-- ==== Sys2Proof/Word.lean ====
section
/-! DEFINITION. The word types of CORE (00_scope.md R4, R6, R11). -/

namespace Sys2Proof

/-- A data word of the command port or a register of the register map: 64 bits (00_scope.md R4). -/
abbrev Word := BitVec 64

/-- A binary64 datum, held as its 64-bit word (00_scope.md R6): `f64(w)` and `bits(x)` are both the identity here, so a
NaN's bits pass through storage unchanged. Arithmetic on it is that of Sys2Proof/Machine/Fp.lean. -/
abbrev F64 := BitVec 64

/-- The 32-bit command word `CMD` (30_encoding.md R80). -/
abbrev CmdWord := BitVec 32

/-- The 8-bit register address `REG` of a command word (30_encoding.md R81, R84). -/
abbrev RegAddr := BitVec 8

/-- A complex sample: an ordered pair of binary64 values (00_scope.md R11). -/
@[ext]
structure Cplx where
  re : F64
  im : F64
  deriving DecidableEq, Repr

/-- `C0`, the pair `(+0.0, +0.0)` (00_scope.md R11). -/
def C0 : Cplx := ⟨0, 0⟩

/-- The place of one arithmetic operation of one PROC: a path of numbers, the innermost step first and the number of the
PROC last. Two operations never share a path, so each has its own free NaN (93_implementation_defined.md I1; log 5). -/
abbrev Site := List Nat

end Sys2Proof
end

