-- ==== Sys2Proof/Config.lean ====
section
/-! DEFINITION. What one implementation fixes (00_scope.md R3) and the free values: constants without a body, of which
nothing can be evaluated or proved beyond their types. -/

namespace Sys2Proof

/-- The bits of a quiet NaN that the spec leaves open: its sign and the 51 payload bits below the quiet bit. -/
abbrev NanBits := Bool × BitVec 51

/-- A binary64 in `[-1.0, 1.0]`: a sign, and the low 63 bits, which are at most those of 1.0 (00_scope.md R8 (c)). -/
abbrev UnitBits := Bool × Fin (0x3FF0000000000000 + 1)

/-- A binary64 in `[-PI, PI]`: a sign, and the low 63 bits, which are at most those of PI (00_scope.md R9). -/
abbrev PhaseBits := Bool × Fin (0x400921FB54442D18 + 1)

/-- The byte orders that `RECORD_BYTE_ORDER` ranges over (00_scope.md R3). -/
inductive ByteOrder where
  | little
  | big
  deriving DecidableEq, Repr, Inhabited

namespace Config

/-- `MAX_TAPS - 1`: OPEN, so that `1 <= MAX_TAPS < 2^32` is all that is known of MAX_TAPS (00_scope.md R3; log 8). -/
opaque maxTapsPred : Fin (0xFFFFFFFE + 1)

/-- `MAX_TAPS`, the capacity in taps (00_scope.md R3). -/
def maxTaps : Nat := maxTapsPred.val + 1

/-- `DELAY_COUNT`, the delay of the core's delay line in samples (00_scope.md R3). -/
def delayCount : Nat := 1

/-- `TRACK_PHASE_GAIN`, binary64 0.25 (00_scope.md R3; log 9). -/
def trackPhaseGain : F64 := 0x3FD0000000000000

/-- `TRACK_FREQ_GAIN`, the binary64 nearest 0.1 (00_scope.md R3; log 9). -/
def trackFreqGain : F64 := 0x3FB999999999999A

/-- The sign and payload of the NaN that the arithmetic operation at a site produces: any value
(93_implementation_defined.md I1; log 5). -/
opaque nanBits : Site → NanBits

/-- `SIN` of a positive finite operand, where the spec only bounds it (00_scope.md R8; log 6). -/
opaque sinValue : F64 → UnitBits

/-- `COS` of a positive finite operand, where the spec only bounds it (00_scope.md R8; log 6). -/
opaque cosValue : F64 → UnitBits

/-- The bits of the NaN that `SIN` gives for an infinity or a NaN with sign bit 0 (00_scope.md R8 (d), (e)). -/
opaque sinNan : F64 → NanBits

/-- The bits of the NaN that `COS` gives for an infinity or a NaN with sign bit 0 (00_scope.md R8 (d), (e)). -/
opaque cosNan : F64 → NanBits

/-- `ATAN2(y, x)` for `y` with sign bit 0, where the spec only bounds it (00_scope.md R9; log 7). -/
opaque atan2Value : F64 → F64 → PhaseBits

/-- The bits of the NaN that `ATAN2(y, x)` gives for a NaN operand, `y` with sign bit 0 (00_scope.md R9 (c), (e)). -/
opaque atan2Nan : F64 → F64 → NanBits

/-- `RECORD_BYTE_ORDER`: OPEN, and not used by CORE (00_scope.md R3; 20_memory.md R61; log 16). -/
opaque recordByteOrder : ByteOrder

/-- `CMD_LATENCY`, the time from a command's acceptance to its response: OPEN, and no rule depends on it
(00_scope.md R3; 70_reset_and_hazards.md R303; log 16). -/
opaque cmdLatency : Nat

end Config

end Sys2Proof
end

