-- ==== Sys2Proof/Syntax.lean ====
section
/-! DEFINITION. The commands of CORE and what travels on the command port (30_encoding.md). -/

namespace Sys2Proof

/-- The instructions: the seven commands of opcode_table.json with the operands each one reads
(30_encoding.md R82, R85). Every field has exactly the width of its operand. -/
inductive Instr where
  /-- `NOP` (48_host_commands.md R220). -/
  | nop
  /-- `SRST` (48_host_commands.md R221). -/
  | srst
  /-- `CFGW reg, value` (48_host_commands.md R222). -/
  | cfgw (reg : RegAddr) (value : Word)
  /-- `RDREG reg` (48_host_commands.md R223). -/
  | rdreg (reg : RegAddr)
  /-- `START` (48_host_commands.md R225). -/
  | start
  /-- `PROC re, im` (48_host_commands.md R226). -/
  | proc (re im : F64)
  /-- `CLRST` (48_host_commands.md R227). -/
  | clrst
  deriving DecidableEq, Repr

/-- A command as the host issues it: the command word and two data words (30_encoding.md R80). -/
structure Command where
  cmd : CmdWord
  data0 : Word
  data1 : Word
  deriving DecidableEq, Repr

/-- What can reach CORE from outside: a command of the host (30_encoding.md R80), or a hard reset applied by the platform
(70_reset_and_hazards.md R290; log 4). -/
inductive PortEvent where
  | command (c : Command)
  | hardReset
  deriving DecidableEq, Repr

/-- Why a command word is illegal (30_encoding.md R86). -/
inductive DecodeError where
  /-- `OP` is 0x7 to 0xF. -/
  | reservedOpcode
  /-- `RSVD != 0`. -/
  | reservedBits
  /-- `REG != 0` for an opcode other than CFGW and RDREG. -/
  | strayRegister
  deriving DecidableEq, Repr

/-- The registers of the register map (10_state.md R42). -/
inductive RegName where
  | status
  | caps
  | sps
  | rolloff
  | span
  | window
  | freqThr
  | phaseThr
  | ncoRate
  | ncoPhase
  | freqEst
  | phaseEst
  | sampleCount
  | ntaps
  | coefSel
  | coefData
  deriving DecidableEq, Repr

/-- The pseudo-commands (30_encoding.md R89). They have no encoding; each stands for a list of commands. -/
inductive Pseudo where
  | rdstat
  | setup (sps alpha span window fthr pthr : Word)
  | rdcoef (i : Word)
  | reinit
  deriving DecidableEq, Repr

end Sys2Proof
end

