-- ==== Sys2Proof/Machine/State.lean ====
section
/-! DEFINITION. The architectural state of CORE (10_state.md), its value after a hard reset, and the reasons a step can stop. -/

namespace Sys2Proof.Machine

/-- The operating mode (10_state.md R22). -/
inductive Mode where
  | idle
  | run
  deriving DecidableEq, Repr

/-- The lifecycle state of the demodulator (10_state.md R23). -/
inductive Lock where
  | acquiringFrequency
  | acquiringPhase
  | tracking
  deriving DecidableEq, Repr

/-- The response codes (60_exceptions.md R260). -/
inductive RspCode where
  | ok
  | illegalCmd
  | badReg
  | readOnly
  | wrongMode
  | cfgSps
  | cfgRolloff
  | cfgWindow
  | cfgNtaps
  | cfgDegenerate
  deriving DecidableEq, Repr

/-- A response on the command port: `RSP`, `OUT0` and `OUT1` (30_encoding.md R80). -/
@[ext]
structure Response where
  rsp : BitVec 8
  out0 : Word
  out1 : Word
  deriving DecidableEq, Repr

/-- The state of one accumulate-and-dump block (10_state.md R38). -/
@[ext]
structure AccDump where
  count : BitVec 32
  acc : F64
  last : F64
  deriving DecidableEq, Repr

/-- The state of the delay line: `dl_buf[]` and `dl_idx` (10_state.md R39). -/
@[ext]
structure DelayLine where
  buf : List F64
  idx : Nat
  deriving DecidableEq, Repr

/-- The whole state. Each field's docstring names the rule of 10_state.md, or says that the field is the port's or the
model's own. -/
@[ext]
structure State where
  /-- R22. -/
  mode : Mode
  /-- R23. -/
  lock : Lock
  /-- R24. -/
  stNf : Bool
  /-- R25. -/
  stErr : Bool
  /-- R26. -/
  stLastErr : BitVec 8
  /-- R27. -/
  cfgSps : Word
  /-- R28. -/
  cfgRolloff : Word
  /-- R29. -/
  cfgSpan : Word
  /-- R30. -/
  cfgWindow : Word
  /-- R31. -/
  cfgFreqThr : Word
  /-- R31. -/
  cfgPhaseThr : Word
  /-- R32. -/
  coefSel : Word
  /-- R33. -/
  ncoRate : F64
  /-- R34. -/
  ncoPhase : F64
  /-- R35. -/
  ntaps : Nat
  /-- R36: entries `0..ntaps-1`; every further entry is `+0.0` (log 10). -/
  coef : List F64
  /-- R37: entries `0..ntaps-1`, newest first; every further entry is `C0` (log 10). -/
  taps : List Cplx
  /-- R38, the frequency-error path. -/
  fad : AccDump
  /-- R38, the phase-error path. -/
  pad : AccDump
  /-- R39. -/
  dl : DelayLine
  /-- R40. -/
  phaseEstimate : F64
  /-- R40. -/
  freqEstimate : F64
  /-- R41. -/
  sampleCount : Word
  /-- The command port's input: what has been issued and not yet performed, oldest first (30_encoding.md R80;
  20_memory.md R67; log 2). -/
  port : List PortEvent
  /-- The command port's output: the response of the last command performed (30_encoding.md R80; log 2). -/
  response : Option Response
  /-- The model's own: the number of PROCs performed since power-on, from which each takes its free NaNs (log 5). -/
  freeCount : Nat
  deriving DecidableEq, Repr

/-- The reasons a step can fault: none. Every error of CORE is a rejection with a response code (60_exceptions.md R260,
R264), after which it accepts the next command (R265). -/
inductive Fault where
  deriving DecidableEq, Repr

/-- The reasons a step can be refused. -/
inductive Refusal where
  /-- Raised by nothing: every command has its meaning. It would be safe, since no claim about a next state follows. -/
  | notModelled (mnemonic : String)
  deriving DecidableEq, Repr

/-- The state after a hard reset: the "Hard reset" column of 10_state.md R45; no command waits, no response has been given,
and no free value has been used (logs 2, 5). -/
def State.reset : State where
  mode := .idle
  lock := .acquiringFrequency
  stNf := false
  stErr := false
  stLastErr := 0
  cfgSps := 0
  cfgRolloff := 0
  cfgSpan := 0
  cfgWindow := 0
  cfgFreqThr := 0
  cfgPhaseThr := 0
  coefSel := 0
  ncoRate := 0
  ncoPhase := 0
  ntaps := 0
  coef := []
  taps := []
  fad := ⟨0, 0, 0⟩
  pad := ⟨0, 0, 0⟩
  dl := ⟨List.replicate Config.delayCount 0, 0⟩
  phaseEstimate := 0
  freqEstimate := 0
  sampleCount := 0
  port := []
  response := none
  freeCount := 0

end Sys2Proof.Machine
end

