-- ==== Sys2Proof/Machine/Delay.lean ====
section
/-! DEFINITION. The sample delay line of 45_delay_line.md. -/

namespace Sys2Proof.Machine

/-- `DL_PROC(x)` for a delay of `k` samples: read the slot, overwrite it, advance the one index (45_delay_line.md R170). -/
def dlCall (k : Nat) (x : F64) (d : DelayLine) : F64 × DelayLine :=
  (d.buf.getD d.idx 0, ⟨d.buf.set d.idx x, (d.idx + 1) % k⟩)

/-- The realization with `k+1` slots: write at the write index, then read one slot ahead of it (45_delay_line.md R172). The
index is the write index. -/
def dlCallAhead (k : Nat) (x : F64) (d : DelayLine) : F64 × DelayLine :=
  ((d.buf.set d.idx x).getD ((d.idx + 1) % (k + 1)) 0, ⟨d.buf.set d.idx x, (d.idx + 1) % (k + 1)⟩)

/-- `DL_PROC(x)` of CORE's delay line (45_delay_line.md R170). -/
def dlProc (x : F64) (s : State) : F64 × State :=
  ((dlCall Config.delayCount x s.dl).1, { s with dl := (dlCall Config.delayCount x s.dl).2 })

end Sys2Proof.Machine
end

