-- ==== Sys2Proof/Machine/Fields.lean ====
section
/-! DEFINITION. The bit fields of the command word (30_encoding.md R81) and the register map's addresses (10_state.md R42). -/

namespace Sys2Proof.Machine

/-- `OP`, bits 31:28 (30_encoding.md R81). -/
def cmdOp (w : CmdWord) : BitVec 4 := w.extractLsb' 28 4

/-- `REG`, bits 27:20 (30_encoding.md R81). -/
def cmdReg (w : CmdWord) : RegAddr := w.extractLsb' 20 8

/-- `RSVD`, bits 19:0 (30_encoding.md R81). -/
def cmdRsvd (w : CmdWord) : BitVec 20 := w.extractLsb' 0 20

/-- The command word with given `OP` and `REG`, and `RSVD = 0` (30_encoding.md R81). -/
def cmdWord (op : BitVec 4) (reg : RegAddr) : CmdWord := op ++ reg ++ (0 : BitVec 20)

/-- The register that an address names; none for an unmapped address (10_state.md R42; 20_memory.md R65). -/
def regOfAddr (a : RegAddr) : Option RegName :=
  match a.toNat with
  | 0x00 => some .status
  | 0x01 => some .caps
  | 0x08 => some .sps
  | 0x09 => some .rolloff
  | 0x0A => some .span
  | 0x0B => some .window
  | 0x0C => some .freqThr
  | 0x0D => some .phaseThr
  | 0x10 => some .ncoRate
  | 0x11 => some .ncoPhase
  | 0x12 => some .freqEst
  | 0x13 => some .phaseEst
  | 0x14 => some .sampleCount
  | 0x15 => some .ntaps
  | 0x16 => some .coefSel
  | 0x17 => some .coefData
  | _ => none

/-- The address of a register (10_state.md R42). -/
def regAddr : RegName → RegAddr
  | .status => 0x00
  | .caps => 0x01
  | .sps => 0x08
  | .rolloff => 0x09
  | .span => 0x0A
  | .window => 0x0B
  | .freqThr => 0x0C
  | .phaseThr => 0x0D
  | .ncoRate => 0x10
  | .ncoPhase => 0x11
  | .freqEst => 0x12
  | .phaseEst => 0x13
  | .sampleCount => 0x14
  | .ntaps => 0x15
  | .coefSel => 0x16
  | .coefData => 0x17

/-- The six configuration registers, 0x08 to 0x0D: writable in IDLE only (10_state.md R42). -/
def regIsConfig : RegName → Bool
  | .sps | .rolloff | .span | .window | .freqThr | .phaseThr => true
  | .status | .caps | .ncoRate | .ncoPhase | .freqEst | .phaseEst | .sampleCount | .ntaps | .coefSel | .coefData => false

/-- The read-only registers (48_host_commands.md R224). -/
def regIsReadOnly : RegName → Bool
  | .status | .caps | .ncoRate | .ncoPhase | .freqEst | .phaseEst | .sampleCount | .ntaps | .coefData => true
  | .sps | .rolloff | .span | .window | .freqThr | .phaseThr | .coefSel => false

end Sys2Proof.Machine
end

