-- ==== Sys2Proof/Machine/Fp.lean ====
section
/-! DEFINITION. IEEE 754 binary64 arithmetic, rounded to nearest with ties to even (00_scope.md R6, R7, R10). Every finite
binary64 is a whole number of units of 2^-1074; an operation computes its exact result in such units, as a fraction of
natural numbers, and narrows it once. Where an operation's result is a NaN its sign and payload are the free value of
the operation's site (93_implementation_defined.md I1; log 5).

The operations are marked irreducible so that no unification unfolds their numbers of a thousand bits; `unfold`, `simp` with
the name, and the kernel still see their bodies. -/

namespace Sys2Proof.Machine

/-! ## Fields and classes -/

/-- The sign, bit 63 (00_scope.md R6). -/
def fsign (x : F64) : Bool := x.getLsbD 63

/-- Bits 62:0 read as a natural number. For two values of one sign its order is the order of the magnitudes. -/
def fmag (x : F64) : Nat := x.toNat % 2 ^ 63

/-- The biased exponent, bits 62:52 (00_scope.md R6). -/
def fexpo (x : F64) : Nat := fmag x / 2 ^ 52

/-- The fraction, bits 51:0 (00_scope.md R6). -/
def ffrac (x : F64) : Nat := x.toNat % 2 ^ 52

/-- `fmag` of an infinity. -/
def infMag : Nat := 0x7FF0000000000000

def isNaN (x : F64) : Bool := infMag < fmag x

def isInf (x : F64) : Bool := fmag x = infMag

/-- `isfinite` (00_scope.md R7). -/
def isFinite (x : F64) : Bool := fmag x < infMag

/-- True of `+0.0` and `-0.0`. -/
def isZero (x : F64) : Bool := fmag x = 0

/-- The binary64 with a given sign bit and bits 62:0. -/
def fpack (neg : Bool) (mag : Nat) : F64 := BitVec.ofNat 64 (mag % 2 ^ 63 + (if neg then 2 ^ 63 else 0))

/-- The quiet NaN with a given sign and payload: fraction bit 51 is set (log 5). -/
def fnan (b : NanBits) : F64 := fpack b.1 (0x7FF8000000000000 + b.2.toNat)

/-- The free NaN of an operation's site (93_implementation_defined.md I1). -/
def qnan (q : Site) : F64 := fnan (Config.nanBits q)

/-! ## Sign primitives and constants -/

/-- `neg(x)` flips bit 63, of a NaN too (00_scope.md R7). -/
def fneg (x : F64) : F64 := x ^^^ 0x8000000000000000

/-- `fabs(x)` clears bit 63, of a NaN too (00_scope.md R7). -/
def fabs (x : F64) : F64 := x &&& 0x7FFFFFFFFFFFFFFF

/-- `PI` (00_scope.md R10). -/
def piC : F64 := 0x400921FB54442D18

/-- `TWO_PI` (00_scope.md R10). -/
def twoPi : F64 := 0x401921FB54442D18

/-- `HALF_PI` (00_scope.md R10). -/
def halfPi : F64 := 0x3FF921FB54442D18

/-- `PI_QUARTER_3` (00_scope.md R9 (b)). -/
def piQuarter3 : F64 := 0x4002D97C7F3321D2

/-- PI/4 (00_scope.md R9 (b)). -/
def piQuarter : F64 := 0x3FE921FB54442D18

def one : F64 := 0x3FF0000000000000

def two : F64 := 0x4000000000000000

def four : F64 := 0x4010000000000000

/-! ## Comparisons (00_scope.md R7) -/

/-- A number whose order is the order of the non-NaN values; both zeros have 0. -/
def fkey (x : F64) : Int := if fsign x then -(fmag x : Int) else (fmag x : Int)

/-- `x < y`: false with a NaN operand. -/
@[irreducible]
def flt (x y : F64) : Bool := !isNaN x && !isNaN y && decide (fkey x < fkey y)

/-- `x <= y`: false with a NaN operand. -/
@[irreducible]
def fle (x y : F64) : Bool := !isNaN x && !isNaN y && decide (fkey x ≤ fkey y)

/-- `x == y`: false with a NaN operand, true of the two zeros. -/
@[irreducible]
def feq (x y : F64) : Bool := !isNaN x && !isNaN y && decide (fkey x = fkey y)

/-- `x > y`. -/
def fgt (x y : F64) : Bool := flt y x

/-- `x >= y`. -/
def fge (x y : F64) : Bool := fle y x

/-! ## Exact values and rounding -/

/-- How many units of 2^-1074 make 1.0. -/
@[irreducible]
def unitScale : Nat := 2 ^ 1074

/-- The magnitude of a finite value with bits 62:0 equal to `mag`, in units of 2^-1074. -/
@[irreducible]
def magUnits (mag : Nat) : Nat :=
  if mag / 2 ^ 52 = 0 then mag else (2 ^ 52 + mag % 2 ^ 52) * 2 ^ (mag / 2 ^ 52 - 1)

/-- The value of a finite binary64 in units of 2^-1074, exactly. -/
def funits (x : F64) : Int := if fsign x then -(magUnits (fmag x) : Int) else (magUnits (fmag x) : Int)

/-- `n / d` rounded to a natural number, ties to even. -/
def roundQuot (n d : Nat) : Nat :=
  if 2 * (n % d) > d || (2 * (n % d) == d && n / d % 2 == 1) then n / d + 1 else n / d

/-- How many low bits of a magnitude of about `u` units the 53-bit significand drops. -/
def roundShift (u : Nat) : Nat := Nat.log2 u - 52

/-- Bits 62:0 of the magnitude `n / d` units rounded to nearest, ties to even; infinity on overflow. The significand with
its leading bit, added to the dropped bits' count times 2^52, is the word (for a subnormal the count is 0), and a
rounding that carries out of the significand lands on the next binade's first word. -/
@[irreducible]
def roundMag (n d : Nat) : Nat :=
  min infMag (roundShift (n / d) * 2 ^ 52 + roundQuot n (d * 2 ^ roundShift (n / d)))

/-- The value `n / d` units with sign bit `neg`, rounded (00_scope.md R6). -/
@[irreducible]
def fround (neg : Bool) (n d : Nat) : F64 := fpack neg (roundMag n d)

/-! ## Operations (00_scope.md R6, R7). Each takes the site of its free NaN first. -/

/-- Addition. An exact zero sum is `-0.0` only when both operands have sign bit 1. -/
@[irreducible]
def fadd (q : Site) (x y : F64) : F64 :=
  if isNaN x || isNaN y then qnan q
  else if isInf x then (if isInf y && fsign x != fsign y then qnan q else x)
  else if isInf y then y
  else if funits x + funits y = 0 then fpack (fsign x && fsign y) 0
  else fround (decide (funits x + funits y < 0)) (funits x + funits y).natAbs 1

/-- Subtraction: the sum with `neg(y)`. -/
@[irreducible]
def fsub (q : Site) (x y : F64) : F64 := fadd q x (fneg y)

/-- Multiplication. -/
@[irreducible]
def fmul (q : Site) (x y : F64) : F64 :=
  if isNaN x || isNaN y then qnan q
  else if isInf x || isInf y then
    (if isZero x || isZero y then qnan q else fpack (fsign x != fsign y) infMag)
  else fround (fsign x != fsign y) (magUnits (fmag x) * magUnits (fmag y)) unitScale

/-- Division. -/
@[irreducible]
def fdiv (q : Site) (x y : F64) : F64 :=
  if isNaN x || isNaN y then qnan q
  else if isInf x then (if isInf y then qnan q else fpack (fsign x != fsign y) infMag)
  else if isInf y then fpack (fsign x != fsign y) 0
  else if isZero y then (if isZero x then qnan q else fpack (fsign x != fsign y) infMag)
  else fround (fsign x != fsign y) (magUnits (fmag x) * unitScale) (magUnits (fmag y))

/-- The whole part of the square root of `n`, one binary digit a level; `fuel` levels suffice when `n < 4 ^ fuel`. -/
def isqrt : Nat → Nat → Nat
  | 0, _ => 0
  | fuel + 1, n =>
    if (2 * isqrt fuel (n / 4) + 1) * (2 * isqrt fuel (n / 4) + 1) ≤ n then 2 * isqrt fuel (n / 4) + 1
    else 2 * isqrt fuel (n / 4)

/-- The whole part of the square root of `n`. -/
def natSqrt (n : Nat) : Nat := isqrt (Nat.log2 n / 2 + 1) n

/-- `SQRT(x)`, correctly rounded (00_scope.md R7). The root of `m` units is the root of `m * 2^1074` in units; it has
hundreds of whole bits, so one more bit, set when the root is not whole, rounds it right. -/
@[irreducible]
def fsqrt (q : Site) (x : F64) : F64 :=
  if isNaN x then qnan q
  else if isZero x then x
  else if fsign x then qnan q
  else if isInf x then x
  else
    let m := magUnits (fmag x) * unitScale
    fround false (2 * natSqrt m + (if natSqrt m * natSqrt m = m then 0 else 1)) 2

/-- `REM(x, y)`, the IEEE 754 remainder: `x - n*y` exactly, `n` the integer nearest `x/y`, ties to even
(00_scope.md R7). A zero remainder has the sign of `x` (log 13). -/
@[irreducible]
def frem (q : Site) (x y : F64) : F64 :=
  if isNaN x || isInf x || isNaN y || isZero y then qnan q
  else if isInf y then x
  else
    let ax := magUnits (fmag x)
    let ay := magUnits (fmag y)
    if roundQuot ax ay = ax / ay then fround (fsign x) (ax % ay) 1
    else fround (!fsign x) (ay - ax % ay) 1

/-- `to_f64(n)` (00_scope.md R7). -/
@[irreducible]
def fofNat (n : Nat) : F64 := fround false (n * unitScale) 1

/-- `to_f64` of a signed whole number, as RRC_GRID uses it (42_rrc_synth.md R130); 0 gives `+0.0`. -/
@[irreducible]
def fofInt (n : Int) : F64 := fround (decide (n < 0)) (n.natAbs * unitScale) 1

end Sys2Proof.Machine
end

