-- ==== Sys2Proof/Machine/Flags.lean ====
section
/-! DEFINITION. The status fields: the encodings of STATUS and CAPS (10_state.md R23, R43), the threshold predicates
(47_demod_fsm.md R196) and the condition of the sticky non-finite flag (47_demod_fsm.md R201). -/

namespace Sys2Proof.Machine

/-- The byte of a response code (60_exceptions.md R260). -/
def rspByte : RspCode → BitVec 8
  | .ok => 0x00
  | .illegalCmd => 0x01
  | .badReg => 0x02
  | .readOnly => 0x03
  | .wrongMode => 0x04
  | .cfgSps => 0x10
  | .cfgRolloff => 0x11
  | .cfgWindow => 0x12
  | .cfgNtaps => 0x13
  | .cfgDegenerate => 0x14

/-- STATUS bit 0 (10_state.md R43). -/
def runBit : Mode → BitVec 1
  | .idle => 0
  | .run => 1

/-- The encoding of `lock`, STATUS bits 2:1 (10_state.md R23, R43). -/
def lockBits : Lock → BitVec 2
  | .acquiringFrequency => 0
  | .acquiringPhase => 1
  | .tracking => 2

/-- The contents of STATUS (10_state.md R43). -/
def statusWord (s : State) : Word :=
  (0 : BitVec 48) ++ s.stLastErr ++ (0 : BitVec 3) ++ BitVec.ofBool s.stErr ++ BitVec.ofBool s.stNf ++ lockBits s.lock
    ++ runBit s.mode

/-- The contents of CAPS (10_state.md R43). -/
def capsWord : Word := (0 : BitVec 24) ++ BitVec.ofNat 8 Config.delayCount ++ BitVec.ofNat 32 Config.maxTaps

/-- `withinF` and `withinP`: the magnitude is at most the threshold (47_demod_fsm.md R196). -/
def within (avg thr : F64) : Bool := fle (fabs avg) thr

/-- `exceedsF` and `exceedsP`: the magnitude is above the threshold (47_demod_fsm.md R196). -/
def exceeds (avg thr : F64) : Bool := fgt (fabs avg) thr

/-- `all_finite` of the output and the three fields that PROC checks (47_demod_fsm.md R201). -/
def allFinite (narrowband : Cplx) (s : State) : Bool :=
  isFinite narrowband.re && isFinite narrowband.im && isFinite s.ncoPhase && isFinite s.freqEstimate
    && isFinite s.phaseEstimate

end Sys2Proof.Machine
end

