-- ==== Sys2Proof/Machine/Operands.lean ====
section
/-! DEFINITION. The operands of commands: the registers of the register map as views of the state (10_state.md R42), and the
input sample of PROC (30_encoding.md R82). -/

namespace Sys2Proof.Machine

/-- Entry `i` of `coef[]`; `+0.0` at `ntaps` and above (10_state.md R36). -/
def coefAt (s : State) (i : Nat) : F64 := s.coef.getD i 0

/-- Entry `i` of `taps[]`; `C0` above the entries in use (10_state.md R37). -/
def tapAt (s : State) (i : Nat) : Cplx := s.taps.getD i C0

/-- The contents of a register on read (10_state.md R42, R43). -/
def readReg (r : RegName) (s : State) : Word :=
  match r with
  | .status => statusWord s
  | .caps => capsWord
  | .sps => s.cfgSps
  | .rolloff => s.cfgRolloff
  | .span => s.cfgSpan
  | .window => s.cfgWindow
  | .freqThr => s.cfgFreqThr
  | .phaseThr => s.cfgPhaseThr
  | .ncoRate => s.ncoRate
  | .ncoPhase => s.ncoPhase
  | .freqEst => s.freqEstimate
  | .phaseEst => s.phaseEstimate
  | .sampleCount => s.sampleCount
  | .ntaps => BitVec.ofNat 64 s.ntaps
  | .coefSel => s.coefSel
  | .coefData => if s.coefSel.toNat < s.ntaps then coefAt s s.coefSel.toNat else 0

/-- The write effect of a register: all 64 bits as given; a read-only register takes nothing (10_state.md R42;
48_host_commands.md R222). -/
def writeReg (r : RegName) (v : Word) (s : State) : State :=
  match r with
  | .sps => { s with cfgSps := v }
  | .rolloff => { s with cfgRolloff := v }
  | .span => { s with cfgSpan := v }
  | .window => { s with cfgWindow := v }
  | .freqThr => { s with cfgFreqThr := v }
  | .phaseThr => { s with cfgPhaseThr := v }
  | .coefSel => { s with coefSel := v }
  | .status | .caps | .ncoRate | .ncoPhase | .freqEst | .phaseEst | .sampleCount | .ntaps | .coefData => s

/-- The window size `W` as a natural number (10_state.md R30). -/
def windowSize (s : State) : Nat := s.cfgWindow.toNat

/-- The input sample of PROC: DATA0 is the real part, DATA1 the imaginary part (30_encoding.md R82; 20_memory.md R61). -/
def sampleOf (re im : F64) : Cplx := ⟨re, im⟩

end Sys2Proof.Machine
end

