-- ==== Sys2Proof/Machine/Elementary.lean ====
section
/-! DEFINITION. The parameter functions `SIN`, `COS` and `ATAN2`: exactly the properties the spec gives them
(00_scope.md R8, R9) are built in, and everything else is an open constant of Config (logs 6, 7). -/

namespace Sys2Proof.Machine

/-- The binary64 that a sign and the low 63 bits name, for the open values of `SIN`, `COS` and `ATAN2`. -/
def ofOpenBits {n : Nat} (b : Bool × Fin n) : F64 := fpack b.1 b.2.val

/-- `SIN` of an operand with sign bit 0: `+0.0` at `+0.0`, in `[-1.0, 1.0]` when finite, NaN otherwise (00_scope.md R8). -/
def sinPos (x : F64) : F64 :=
  if isZero x then 0
  else if isFinite x then ofOpenBits (Config.sinValue x)
  else fnan (Config.sinNan x)

/-- `SIN`, odd in every operand (00_scope.md R8 (b)). -/
@[irreducible]
def fsin (x : F64) : F64 := if fsign x then fneg (sinPos (fabs x)) else sinPos x

/-- `COS` of an operand with sign bit 0: 1.0 at `+0.0`, in `[-1.0, 1.0]` when finite, NaN otherwise (00_scope.md R8). -/
def cosPos (x : F64) : F64 :=
  if isZero x then one
  else if isFinite x then ofOpenBits (Config.cosValue x)
  else fnan (Config.cosNan x)

/-- `COS`, even in every operand (00_scope.md R8 (b)). -/
@[irreducible]
def fcos (x : F64) : F64 := cosPos (fabs x)

/-- `ATAN2(y, x)` for `y` with sign bit 0: the special cases of 00_scope.md R9 (a), (b), (c), and otherwise an open value in
`[-PI, PI]`. -/
def atan2Pos (y x : F64) : F64 :=
  if isNaN y || isNaN x then fnan (Config.atan2Nan y x)
  else if isZero y then (if fsign x then piC else 0)
  else if isZero x then halfPi
  else if y = one ∧ x = fneg one then piQuarter3
  else if y = one ∧ x = one then piQuarter
  else ofOpenBits (Config.atan2Value y x)

/-- `ATAN2(y, x)`, odd in `y` (00_scope.md R9 (d)). -/
@[irreducible]
def fatan2 (y x : F64) : F64 := if fsign y then fneg (atan2Pos (fabs y) x) else atan2Pos y x

end Sys2Proof.Machine
end

