-- ==== Sys2Proof/Machine/PhaseMath.lean ====
section
/-! DEFINITION. The phase and complex primitives of 40_phase_math.md. -/

namespace Sys2Proof.Machine

/-- `WRAP(θ)` (40_phase_math.md R100). -/
@[irreducible]
def wrap (q : Site) (θ : F64) : F64 :=
  if fle (frem (0 :: q) θ twoPi) (fneg piC) then fadd (1 :: q) (frem (0 :: q) θ twoPi) twoPi
  else frem (0 :: q) θ twoPi

/-- `CMUL(a, b)` (40_phase_math.md R104). -/
def cmul (q : Site) (a b : Cplx) : Cplx where
  re := fsub (2 :: q) (fmul (0 :: q) a.re b.re) (fmul (1 :: q) a.im b.im)
  im := fadd (5 :: q) (fmul (3 :: q) a.re b.im) (fmul (4 :: q) a.im b.re)

/-- `CSCALE(c, z)` (40_phase_math.md R105). -/
def cscale (q : Site) (c : F64) (z : Cplx) : Cplx where
  re := fmul (0 :: q) c z.re
  im := fmul (1 :: q) c z.im

/-- `CADD(a, b)` (40_phase_math.md R106). -/
def cadd (q : Site) (a b : Cplx) : Cplx where
  re := fadd (0 :: q) a.re b.re
  im := fadd (1 :: q) a.im b.im

/-- `ARG(z)` (40_phase_math.md R107). -/
def arg (z : Cplx) : F64 := fatan2 z.im z.re

end Sys2Proof.Machine
end

