-- ==== Sys2Proof/Machine/Fir.lean ====
section
/-! DEFINITION. The matched filter of 43_fir.md. -/

namespace Sys2Proof.Machine

/-- The tap buffer of length `n` after the shift: the new sample first, the oldest dropped (43_fir.md R151). -/
def firShift {α : Type} (n : Nat) (x : α) (taps : List α) : List α := (x :: taps).take n

/-- The sum of `coef[i] * taps[i]` for `i = 0..n-1`, in index order from `C0` (43_fir.md R151, R152). -/
def firSum (q : Site) (n : Nat) (coef : List F64) (taps : List Cplx) : Cplx :=
  (List.range n).foldl
    (fun acc i => cadd (1 :: i :: q) acc (cscale (0 :: i :: q) (coef.getD i 0) (taps.getD i C0))) C0

/-- `FIR_PROC(x)` (43_fir.md R151). -/
def firProc (q : Site) (x : Cplx) (s : State) : Cplx × State :=
  let taps := firShift s.ntaps x s.taps
  (firSum q s.ntaps s.coef taps, { s with taps := taps })

/-- The sum of the real-valued variant, from `+0.0` (43_fir.md R153). -/
def firSumReal (q : Site) (n : Nat) (coef taps : List F64) : F64 :=
  (List.range n).foldl
    (fun acc i => fadd (1 :: i :: q) acc (fmul (0 :: i :: q) (coef.getD i 0) (taps.getD i 0))) 0

/-- `FIR_PROC_REAL(x)`, on a buffer of its own: the output and the new buffer. No command reaches it
(43_fir.md R153; log 15). -/
def firProcReal (q : Site) (coef : List F64) (x : F64) (taps : List F64) : F64 × List F64 :=
  (firSumReal q coef.length coef (firShift coef.length x taps), firShift coef.length x taps)

end Sys2Proof.Machine
end

