-- ==== Sys2Proof/Machine/LoopFilter.lean ====
section
/-! DEFINITION. The accumulate-and-dump loop filters of 44_accum_dump.md. -/

namespace Sys2Proof.Machine

/-- The dump on entry, when the window of `w` samples is complete (44_accum_dump.md R160). -/
def adDump (w : Nat) (b : AccDump) : AccDump := if b.count.toNat = w then ⟨0, 0, b.acc⟩ else b

/-- `AD_PROC(blk, x)` with window `w`: the value of the last completed window, and the block (44_accum_dump.md R160). -/
def adProc (q : Site) (w : Nat) (b : AccDump) (x : F64) : F64 × AccDump :=
  ((adDump w b).last, { adDump w b with acc := fadd q (adDump w b).acc x, count := (adDump w b).count + 1 })

/-- `AD_PROC(FAD, x)` (44_accum_dump.md R160). -/
def fadProc (q : Site) (x : F64) (s : State) : F64 × State :=
  ((adProc q (windowSize s) s.fad x).1, { s with fad := (adProc q (windowSize s) s.fad x).2 })

/-- `AD_PROC(PAD, x)` (44_accum_dump.md R160). -/
def padProc (q : Site) (x : F64) (s : State) : F64 × State :=
  ((adProc q (windowSize s) s.pad x).1, { s with pad := (adProc q (windowSize s) s.pad x).2 })

/-- The mean of a completed window's sum, which the caller forms (44_accum_dump.md R161). -/
def windowMean (q : Site) (sum : F64) (s : State) : F64 := fdiv q sum (fofNat (windowSize s))

end Sys2Proof.Machine
end

