-- ==== Sys2Proof/Machine/Nco.lean ====
section
/-! DEFINITION. The NCO of 41_nco.md. -/

namespace Sys2Proof.Machine

/-- `NCO_SETRATE(v)` (41_nco.md R120). -/
def ncoSetRate (v : F64) (s : State) : State := { s with ncoRate := v }

/-- The carrier sample of a phase: `(COS(θ), SIN(θ))`, not renormalized (41_nco.md R121, R122). -/
def ncoOut (θ : F64) : Cplx := ⟨fcos θ, fsin θ⟩

/-- The phase after one generate: the increment `rate + offset` is rounded once before it is added (41_nco.md R121). -/
@[irreducible]
def ncoAdvance (q : Site) (phase rate offset : F64) : F64 :=
  wrap (2 :: q) (fadd (1 :: q) phase (fadd (0 :: q) rate offset))

/-- `NCO_GEN(phase_offset)`: the output is that of the phase before the update (41_nco.md R121). -/
def ncoGen (q : Site) (offset : F64) (s : State) : Cplx × State :=
  (ncoOut s.ncoPhase, { s with ncoPhase := ncoAdvance q s.ncoPhase s.ncoRate offset })

/-- `NCO_GEN_REAL(phase_offset)`: the cosine alone, the same update. No command reaches it (41_nco.md R123; log 15). -/
def ncoGenReal (q : Site) (offset : F64) (s : State) : F64 × State :=
  (fcos s.ncoPhase, { s with ncoPhase := ncoAdvance q s.ncoPhase s.ncoRate offset })

end Sys2Proof.Machine
end

