-- ==== Sys2Proof/Machine/PhaseDetector.lean ====
section
/-! DEFINITION. The BPSK phase detector of 46_phase_detector.md. -/

namespace Sys2Proof.Machine

/-- `PD_DETECT(z)` (46_phase_detector.md R180). -/
@[irreducible]
def pdDetect (q : Site) (z : Cplx) : F64 :=
  if fge z.re 0 then arg z
  else if fgt z.im 0 then fsub (0 :: q) (arg z) piC
  else fneg (fadd (1 :: q) (arg z) piC)

end Sys2Proof.Machine
end

