-- ==== Sys2Proof/Machine/Demod.lean ====
section
/-! DEFINITION. The per-sample step and the carrier-recovery state machine of 47_demod_fsm.md. -/

namespace Sys2Proof.Machine

/-- The transition relation (47_demod_fsm.md R197 to R199, R204), with the thresholds `ft` and `pt`. -/
def nextLock (l : Lock) (avgF avgP ft pt : F64) : Lock :=
  match l with
  | .acquiringFrequency => if within avgF ft then .acquiringPhase else .acquiringFrequency
  | .acquiringPhase =>
    if exceeds avgF ft then .acquiringFrequency else if within avgP pt then .tracking else .acquiringPhase
  | .tracking =>
    if exceeds avgF ft then .acquiringFrequency else if exceeds avgP pt then .acquiringPhase else .tracking

/-- The `phase_estimate` that step 7 writes (47_demod_fsm.md R197 to R199). -/
def nextPhaseEstimate (q : Site) (l : Lock) (avgP : F64) : F64 :=
  match l with
  | .acquiringFrequency => 0
  | .acquiringPhase => avgP
  | .tracking => fmul q Config.trackPhaseGain avgP

/-- The `freq_estimate` after step 7; AcquiringPhase does not write it (47_demod_fsm.md R197 to R199). -/
def nextFreqEstimate (q : Site) (l : Lock) (avgF old : F64) : F64 :=
  match l with
  | .acquiringFrequency => avgF
  | .acquiringPhase => old
  | .tracking => fmul q Config.trackFreqGain avgF

/-- `UPDATE(lock, avgF, avgP)`, step 7: the rule of the state held when it began (47_demod_fsm.md R202). -/
def updateLoop (q : Site) (avgF avgP : F64) (s : State) : State :=
  { s with
    phaseEstimate := nextPhaseEstimate (0 :: q) s.lock avgP
    freqEstimate := nextFreqEstimate (1 :: q) s.lock avgF s.freqEstimate
    lock := nextLock s.lock avgF avgP s.cfgFreqThr s.cfgPhaseThr }

/-- Step 8's count, modulo 2^64 (47_demod_fsm.md R200). -/
def countSample (s : State) : State := { s with sampleCount := s.sampleCount + 1 }

/-- The sticky flag of non-finite results (47_demod_fsm.md R201). -/
def recordNonFinite (narrowband : Cplx) (s : State) : State := { s with stNf := s.stNf || !allFinite narrowband s }

/-- `STEP(x)`: the output sample and the state after the eight steps (47_demod_fsm.md R190). Its operations' free NaNs are
those of the PROC's number, which it uses up (log 5). -/
def demodStep (x : Cplx) (s : State) : Cplx × State :=
  let q : Site := [s.freeCount]
  let s1 := ncoSetRate s.freqEstimate s
  let carrier := ncoGen (0 :: q) s1.phaseEstimate s1
  let wideband := cmul (1 :: q) carrier.1 x
  let narrowband := firProc (2 :: q) wideband carrier.2
  let err := pdDetect (3 :: q) narrowband.1
  let errD1 := dlProc err narrowband.2
  let fes := fsub (4 :: q) err errD1.1
  let dumpF := fadProc (5 :: q) fes errD1.2
  let avgF := windowMean (6 :: q) dumpF.1 dumpF.2
  let dumpP := padProc (7 :: q) err dumpF.2
  let avgP := windowMean (8 :: q) dumpP.1 dumpP.2
  let s7 := updateLoop (9 :: q) avgF avgP dumpP.2
  let s8 := recordNonFinite narrowband.1 (countSample s7)
  (narrowband.1, { s8 with freeCount := s.freeCount + 1 })

end Sys2Proof.Machine
end

