-- ==== Sys2Proof/WellFormed.lean ====
section
/-! DEFINITION. The static checks: which command words are legal (30_encoding.md R86), and which instructions name a register
that their command can act on in some mode (48_host_commands.md R224). An instruction that fails the second check still
decodes; CORE rejects it with BAD_REG or READ_ONLY. -/

namespace Sys2Proof

/-- `OP` is 0x0 to 0x6 (30_encoding.md R86). -/
def Command.opAssigned (c : Command) : Bool := decide ((Machine.cmdOp c.cmd).toNat ≤ 6)

/-- `RSVD` is 0 (30_encoding.md R86). -/
def Command.rsvdClear (c : Command) : Bool := Machine.cmdRsvd c.cmd == 0

/-- `REG` is 0 unless the opcode is CFGW or RDREG (30_encoding.md R86). -/
def Command.regAllowed (c : Command) : Bool :=
  Machine.cmdReg c.cmd == 0 || Machine.cmdOp c.cmd == 0x2 || Machine.cmdOp c.cmd == 0x3

/-- The command word is not illegal (30_encoding.md R86). -/
def Command.wf (c : Command) : Bool := c.opAssigned && c.rsvdClear && c.regAllowed

/-- The address an instruction names, if any, is mapped (48_host_commands.md R224). -/
def Instr.regMapped : Instr → Bool
  | .cfgw a _ => (Machine.regOfAddr a).isSome
  | .rdreg a => (Machine.regOfAddr a).isSome
  | .nop | .srst | .start | .proc _ _ | .clrst => true

/-- The register an instruction writes, if any, is not a read-only one (48_host_commands.md R224). -/
def Instr.regWritable : Instr → Bool
  | .cfgw a _ => ((Machine.regOfAddr a).map Machine.regIsReadOnly) != some true
  | .nop | .srst | .rdreg _ | .start | .proc _ _ | .clrst => true

/-- Both static checks on an instruction's register. -/
def Instr.wf (i : Instr) : Bool := i.regMapped && i.regWritable

end Sys2Proof
end

