-- ==== Sys2Proof/Decode.lean ====
section
/-! DEFINITION. The decoder, total on every command, and the encoder (30_encoding.md R81 to R89). -/

namespace Sys2Proof

open Machine

/-- A command without a register operand: `REG` must be 0 (30_encoding.md R86). -/
def decodeNoReg (c : Command) (i : Instr) : Except DecodeError Instr :=
  if cmdReg c.cmd = 0 then .ok i else .error .strayRegister

/-- The instruction of a command, or why the command word is illegal (30_encoding.md R82, R85, R86). -/
def decode (c : Command) : Except DecodeError Instr :=
  if cmdRsvd c.cmd ≠ 0 then .error .reservedBits
  else if cmdOp c.cmd = 0x0 then decodeNoReg c .nop
  else if cmdOp c.cmd = 0x1 then decodeNoReg c .srst
  else if cmdOp c.cmd = 0x2 then .ok (.cfgw (cmdReg c.cmd) c.data0)
  else if cmdOp c.cmd = 0x3 then .ok (.rdreg (cmdReg c.cmd))
  else if cmdOp c.cmd = 0x4 then decodeNoReg c .start
  else if cmdOp c.cmd = 0x5 then decodeNoReg c (.proc c.data0 c.data1)
  else if cmdOp c.cmd = 0x6 then decodeNoReg c .clrst
  else .error .reservedOpcode

/-- The command of an instruction, 0 in every data word its form does not name (30_encoding.md R88). -/
def encode : Instr → Command
  | .nop => ⟨cmdWord 0x0 0, 0, 0⟩
  | .srst => ⟨cmdWord 0x1 0, 0, 0⟩
  | .cfgw reg value => ⟨cmdWord 0x2 reg, value, 0⟩
  | .rdreg reg => ⟨cmdWord 0x3 reg, 0, 0⟩
  | .start => ⟨cmdWord 0x4 0, 0, 0⟩
  | .proc re im => ⟨cmdWord 0x5 0, re, im⟩
  | .clrst => ⟨cmdWord 0x6 0, 0, 0⟩

/-- The expansion of a pseudo-command (30_encoding.md R89). -/
def expand : Pseudo → List Instr
  | .rdstat => [.rdreg (regAddr .status)]
  | .setup sps alpha span window fthr pthr =>
    [.cfgw (regAddr .sps) sps, .cfgw (regAddr .rolloff) alpha, .cfgw (regAddr .span) span,
     .cfgw (regAddr .window) window, .cfgw (regAddr .freqThr) fthr, .cfgw (regAddr .phaseThr) pthr, .start]
  | .rdcoef i => [.cfgw (regAddr .coefSel) i, .rdreg (regAddr .coefData)]
  | .reinit => [.srst, .start]

/-- A command laid out as one number: `CMD` in bits 31:0, `DATA0` in bits 95:32, `DATA1` in bits 159:96 (log 3). Of `w` the
low `nbits` bits count, and every bit above them is 0. -/
def commandOfTableWord (nbits w : Nat) : Command where
  cmd := BitVec.ofNat 32 (w % 2 ^ nbits)
  data0 := BitVec.ofNat 64 (w % 2 ^ nbits / 2 ^ 32)
  data1 := BitVec.ofNat 64 (w % 2 ^ nbits / 2 ^ 96)

/-- The instruction the decoder reads from a command laid out as one number. -/
def decodeTableWord (nbits w : Nat) : Option Instr :=
  match decode (commandOfTableWord nbits w) with
  | .ok i => some i
  | .error _ => none

end Sys2Proof
end

