-- ==== Sys2Proof/Machine/Ops.lean ====
section
/-! DEFINITION. The operations that commands share: responding, rejecting (CORE's one exception mechanism,
60_exceptions.md R264), the resets (10_state.md R45), and taking the next transaction from the port. -/

namespace Sys2Proof.Machine

/-- `respond(code, d0, d1)`: the command ends with this response and nothing else changes (00_scope.md R13). -/
def respond (c : RspCode) (d0 d1 : Word) (s : State) : State := { s with response := some ⟨rspByte c, d0, d1⟩ }

/-- `reject c`, the taking of an exception: the error fields record the code, the response carries it with zero data, and
nothing else changes. It saves no return state and goes nowhere, so there is no return from it
(60_exceptions.md R261, R264, R265). -/
def reject (c : RspCode) (s : State) : State :=
  { s with stErr := true, stLastErr := rspByte c, response := some ⟨rspByte c, 0, 0⟩ }

/-- The fields that SRST and START give the same values: the sub-blocks, the estimates and the count at their initial
values, lock AcquiringFrequency, the non-finite flag clear (10_state.md R45; 70_reset_and_hazards.md R292). -/
def resetDatapath (s : State) : State :=
  { s with
    lock := .acquiringFrequency, stNf := false, ncoRate := 0, ncoPhase := 0, fad := ⟨0, 0, 0⟩, pad := ⟨0, 0, 0⟩,
    dl := ⟨List.replicate Config.delayCount 0, 0⟩, phaseEstimate := 0, freqEstimate := 0, sampleCount := 0 }

/-- The "SRST" column of 10_state.md R45: the configuration and `coef_sel` are kept (48_host_commands.md R221). -/
def softReset (s : State) : State :=
  { resetDatapath s with mode := .idle, stErr := false, stLastErr := 0, ntaps := 0, coef := [], taps := [] }

/-- The "After START" column of 10_state.md R45, with the `n` synthesized coefficients `c` (42_rrc_synth.md R137). -/
def beginSession (n : Nat) (c : List F64) (s : State) : State :=
  { resetDatapath s with mode := .run, ntaps := n, coef := c, taps := List.replicate n C0 }

/-- Hard reset: every field of the spec at its value of 10_state.md R45. What waits on the port still waits, and the model's
own counter goes on (70_reset_and_hazards.md R290; log 4). -/
def hardReset (s : State) : State := { State.reset with port := s.port, freeCount := s.freeCount }

/-- The clearing of the sticky status that CLRST does (48_host_commands.md R227). -/
def clearSticky (s : State) : State := { s with stNf := false, stErr := false, stLastErr := 0 }

/-- The oldest waiting event, and the state with it taken off the port; none when nothing waits. -/
def takeEvent (s : State) : Option (PortEvent × State) :=
  match s.port with
  | [] => none
  | e :: rest => some (e, { s with port := rest })

end Sys2Proof.Machine
end

