-- ==== Sys2Proof/Machine/Rrc.lean ====
section
/-! DEFINITION. The RRC coefficient synthesizer of 42_rrc_synth.md, which START runs. -/

namespace Sys2Proof.Machine

/-- The tap count `N` of `RRC_GRID`, on unbounded natural numbers (42_rrc_synth.md R130; 00_scope.md R14). -/
def rrcCount (sps d : Nat) : Nat := 2 * sps * d + 1

/-- The sample time `t[k]` of `RRC_GRID` (42_rrc_synth.md R130). -/
def rrcTime (q : Site) (sps d k : Nat) : F64 := fdiv q (fofInt ((k : Int) - sps * d)) (fofNat sps)

/-- The centre branch (42_rrc_synth.md R131). -/
def rrcCentre (q : Site) (r : F64) : F64 :=
  fadd (3 :: q) (fsub (0 :: q) one r) (fdiv (2 :: q) (fmul (1 :: q) four r) piC)

/-- The quotient `1.0 / (4.0 * r)` that the singular branch's condition compares with (42_rrc_synth.md R132). -/
def rrcSingularTime (q : Site) (r : F64) : F64 := fdiv (1 :: q) one (fmul (0 :: q) four r)

/-- The singular branch (42_rrc_synth.md R132). -/
def rrcSingular (q : Site) (r : F64) : F64 :=
  let a := fdiv (1 :: q) piC (fmul (0 :: q) four r)
  fmul (11 :: q) (fdiv (3 :: q) r (fsqrt (2 :: q) two))
    (fadd (10 :: q)
      (fmul (6 :: q) (fadd (5 :: q) one (fdiv (4 :: q) two piC)) (fsin a))
      (fmul (9 :: q) (fsub (8 :: q) one (fdiv (7 :: q) two piC)) (fcos a)))

/-- The numerator of the general branch (42_rrc_synth.md R133). -/
def rrcNum (q : Site) (t r : F64) : F64 :=
  let x := fmul (1 :: q) (fmul (0 :: q) four r) t
  fadd (9 :: q)
    (fsin (fmul (4 :: q) (fmul (2 :: q) piC t) (fsub (3 :: q) one r)))
    (fmul (8 :: q) x (fcos (fmul (7 :: q) (fmul (5 :: q) piC t) (fadd (6 :: q) one r))))

/-- The denominator of the general branch (42_rrc_synth.md R133). -/
def rrcDen (q : Site) (t r : F64) : F64 :=
  let x := fmul (1 :: q) (fmul (0 :: q) four r) t
  fmul (5 :: q) (fmul (2 :: q) piC t) (fsub (4 :: q) one (fmul (3 :: q) x x))

/-- The general branch (42_rrc_synth.md R133). -/
def rrcGeneral (q : Site) (t r : F64) : F64 := fdiv (2 :: q) (rrcNum (0 :: q) t r) (rrcDen (1 :: q) t r)

/-- `RRC_RAW(t, r)`: the first branch whose condition holds (42_rrc_synth.md R134). -/
def rrcRaw (q : Site) (t r : F64) : F64 :=
  if feq t 0 then rrcCentre (0 :: q) r
  else if feq (fabs t) (rrcSingularTime (1 :: q) r) then rrcSingular (2 :: q) r
  else rrcGeneral (3 :: q) t r

/-- The raw taps, index 0 at the earliest time (42_rrc_synth.md R130, R134). -/
def rrcRawTaps (q : Site) (sps d : Nat) (r : F64) : List F64 :=
  (List.range (rrcCount sps d)).map fun k => rrcRaw (1 :: k :: q) (rrcTime (0 :: k :: q) sps d k) r

/-- The sum that `RRC_ENERGY` forms from `e` onwards, in index order, `k` the index of the list's first tap
(42_rrc_synth.md R135). -/
def rrcEnergyFrom (q : Site) (k : Nat) (e : F64) : List F64 → F64
  | [] => e
  | v :: vs => rrcEnergyFrom q (k + 1) (fadd (1 :: k :: q) e (fmul (0 :: k :: q) v v)) vs

/-- `RRC_ENERGY` (42_rrc_synth.md R135). -/
def rrcEnergy (q : Site) (raw : List F64) : F64 := rrcEnergyFrom q 0 0 raw

/-- `RRC_NORM`: every tap divided by the square root of the energy (42_rrc_synth.md R136). -/
def rrcNorm (q : Site) (raw : List F64) (e : F64) : List F64 :=
  raw.zipIdx.map fun v => fdiv (1 :: v.2 :: q) v.1 (fsqrt (0 :: q) e)

/-- `RRC_CHECK`: true of a degenerate set (42_rrc_synth.md R138). -/
def rrcDegenerate (e : F64) (c : List F64) : Bool := !isFinite e || isZero e || c.any fun v => !isFinite v

end Sys2Proof.Machine
end

