-- ==== Sys2Proof/Machine/HostCommands.lean ====
section
/-! DEFINITION. The meanings of the seven commands (48_host_commands.md). The check for an illegal command word comes before
all of them, in the decoder (30_encoding.md R86). -/

namespace Sys2Proof.Machine

/-- The first check that fails for a register write, if any (48_host_commands.md R224). -/
def cfgwReject (a : RegAddr) (s : State) : Option RspCode :=
  match regOfAddr a with
  | none => some .badReg
  | some r =>
    if regIsReadOnly r then some .readOnly
    else if regIsConfig r && decide (s.mode = .run) then some .wrongMode
    else none

/-- The write of a mapped register; an unmapped address writes nothing (48_host_commands.md R222). -/
def writeAddr (a : RegAddr) (v : Word) (s : State) : State :=
  match regOfAddr a with
  | none => s
  | some r => writeReg r v s

/-- The tap count of the configuration (42_rrc_synth.md R130). -/
def cfgCount (s : State) : Nat := rrcCount s.cfgSps.toNat s.cfgSpan.toNat

/-- The raw taps of the configuration (42_rrc_synth.md R130 to R134). -/
def cfgRawTaps (s : State) : List F64 := rrcRawTaps [0, s.freeCount] s.cfgSps.toNat s.cfgSpan.toNat s.cfgRolloff

/-- The energy of the raw taps (42_rrc_synth.md R135). -/
def cfgEnergy (s : State) : F64 := rrcEnergy [1, s.freeCount] (cfgRawTaps s)

/-- The normalized taps (42_rrc_synth.md R136). -/
def cfgTaps (s : State) : List F64 := rrcNorm [2, s.freeCount] (cfgRawTaps s) (cfgEnergy s)

/-- The roll-off is in `(0.0, 1.0]`; a NaN is not (48_host_commands.md R225). -/
def rolloffLegal (s : State) : Bool := fgt s.cfgRolloff 0 && fle s.cfgRolloff one

/-- The first check of START that fails, if any, in the order of 48_host_commands.md R224 and R225. -/
def startReject (s : State) : Option RspCode :=
  if s.mode = .run then some .wrongMode
  else if s.cfgSps.toNat < 2 then some .cfgSps
  else if !rolloffLegal s then some .cfgRolloff
  else if s.cfgWindow.toNat = 0 ∨ 2 ^ 32 ≤ s.cfgWindow.toNat then some .cfgWindow
  else if Config.maxTaps < cfgCount s then some .cfgNtaps
  else if rrcDegenerate (cfgEnergy s) (cfgTaps s) then some .cfgDegenerate
  else none

/-- `NOP` (48_host_commands.md R220). -/
def execNop (s : State) : Host.Outcome State Fault Refusal := .next (respond .ok 0 0 s)

/-- `SRST` (48_host_commands.md R221). -/
def execSrst (s : State) : Host.Outcome State Fault Refusal := .next (respond .ok 0 0 (softReset s))

/-- `CFGW reg, value` (48_host_commands.md R222). -/
def execCfgw (a : RegAddr) (v : Word) (s : State) : Host.Outcome State Fault Refusal :=
  match cfgwReject a s with
  | some c => .next (reject c s)
  | none => .next (respond .ok 0 0 (writeAddr a v s))

/-- `RDREG reg` (48_host_commands.md R223). -/
def execRdreg (a : RegAddr) (s : State) : Host.Outcome State Fault Refusal :=
  match regOfAddr a with
  | none => .next (reject .badReg s)
  | some r => .next (respond .ok (readReg r s) 0 s)

/-- `START` (48_host_commands.md R225). -/
def execStart (s : State) : Host.Outcome State Fault Refusal :=
  match startReject s with
  | some c => .next (reject c s)
  | none => .next (respond .ok 0 0 (beginSession (cfgCount s) (cfgTaps s) s))

/-- `PROC re, im` (48_host_commands.md R226). -/
def execProc (re im : F64) (s : State) : Host.Outcome State Fault Refusal :=
  match s.mode with
  | .idle => .next (reject .wrongMode s)
  | .run =>
    .next (respond .ok (demodStep (sampleOf re im) s).1.re (demodStep (sampleOf re im) s).1.im
      (demodStep (sampleOf re im) s).2)

/-- `CLRST` (48_host_commands.md R227). -/
def execClrst (s : State) : Host.Outcome State Fault Refusal := .next (respond .ok 0 0 (clearSticky s))

end Sys2Proof.Machine
end

