-- ==== Sys2Proof/Machine/Dispatch.lean ====
section
/-! DEFINITION. One arm per constructor of Instr. -/

namespace Sys2Proof.Machine

/-- The meaning of an instruction in a state. -/
def exec (i : Instr) (s : State) : Host.Outcome State Fault Refusal :=
  match i with
  | .nop => Sys2Proof.Machine.execNop s
  | .srst => Sys2Proof.Machine.execSrst s
  | .cfgw reg value => Sys2Proof.Machine.execCfgw reg value s
  | .rdreg reg => Sys2Proof.Machine.execRdreg reg s
  | .start => Sys2Proof.Machine.execStart s
  | .proc re im => Sys2Proof.Machine.execProc re im s
  | .clrst => Sys2Proof.Machine.execClrst s

end Sys2Proof.Machine
end

