-- ==== Sys2Proof/Machine/Step.lean ====
section
/-! DEFINITION. One step: CORE takes the oldest event from the port and performs it as one atomic transition
(20_memory.md R63, R67); with nothing waiting it holds its state (60_exceptions.md R273). -/

namespace Sys2Proof.Machine

/-- One step of CORE. -/
def step (s : State) : Host.Outcome State Fault Refusal :=
  match takeEvent s with
  | none => .next s
  | some (.hardReset, s1) => .next (hardReset s1)
  | some (.command c, s1) =>
    match decode c with
    | .error _ => .next (reject .illegalCmd s1)
    | .ok i => exec i s1

/-- The state with the command of a table word issued next: it stands before whatever waits on the port (log 1). -/
def State.withFetchWord (s : State) (nbits w : Nat) : State :=
  { s with port := .command (commandOfTableWord nbits w) :: s.port }

end Sys2Proof.Machine
end

