-- ==== Sys2Proof/Machine/Assembler.lean ====
section
/-! DEFINITION. The assembler's line format (30_encoding.md R88, R89): one command or pseudo-command a line. It belongs to
the host's side of the port; no step of CORE uses it (log 14). -/

namespace Sys2Proof.Machine

/-- The text before a comment (30_encoding.md R88). -/
def asmCode (cs : List Char) : List Char := cs.takeWhile (· ≠ ';')

/-- The text without blanks at either end. -/
def asmTrim (cs : List Char) : List Char := ((cs.dropWhile (· = ' ')).reverse.dropWhile (· = ' ')).reverse

/-- The pieces of a text between commas; at least one piece. -/
def asmPieces : List Char → List (List Char)
  | [] => [[]]
  | c :: cs =>
    match asmPieces cs with
    | [] => [[c]]
    | p :: ps => if c = ',' then [] :: p :: ps else (c :: p) :: ps

/-- The value of a digit in a base up to sixteen. -/
def asmDigit (base : Nat) (c : Char) : Option Nat :=
  let v :=
    if '0' ≤ c ∧ c ≤ '9' then c.toNat - '0'.toNat
    else if 'a' ≤ c ∧ c ≤ 'f' then c.toNat - 'a'.toNat + 10
    else if 'A' ≤ c ∧ c ≤ 'F' then c.toNat - 'A'.toNat + 10
    else base
  if v < base then some v else none

/-- The number that digits continue from `acc`; none when a character is no digit of the base. -/
def asmDigitsFrom (base acc : Nat) : List Char → Option Nat
  | [] => some acc
  | c :: cs =>
    match asmDigit base c with
    | none => none
    | some v => asmDigitsFrom base (acc * base + v) cs

/-- A number with at least one digit. -/
def asmNumber (base : Nat) (cs : List Char) : Option Nat := if cs = [] then none else asmDigitsFrom base 0 cs

/-- A natural number: hexadecimal after `0x`, else decimal. -/
def asmNatural : List Char → Option Nat
  | '0' :: 'x' :: cs => asmNumber 16 cs
  | cs => asmNumber 10 cs

/-- A decimal exponent with an optional sign. -/
def asmExponent : List Char → Option Int
  | '-' :: cs => (asmNumber 10 cs).map fun n => -(n : Int)
  | '+' :: cs => (asmNumber 10 cs).map fun n => (n : Int)
  | cs => (asmNumber 10 cs).map fun n => (n : Int)

/-- The binary64 nearest `n * 10^e`, with a sign bit (30_encoding.md R88). -/
def asmDecimal (neg : Bool) (n : Nat) (e : Int) : F64 :=
  fround neg (n * 10 ^ e.toNat * unitScale) (10 ^ (-e).toNat)

/-- An unsigned decimal real: digits, then a point with digits, or an exponent, or both (30_encoding.md R88). -/
def asmRealFrom (neg : Bool) (cs : List Char) : Option F64 :=
  let isExp := fun c : Char => c = 'e' || c = 'E'
  let mantissa := cs.takeWhile fun c => !isExp c
  let whole := mantissa.takeWhile (· ≠ '.')
  let frac := (mantissa.dropWhile (· ≠ '.')).drop 1
  let digits := asmNumber 10 (whole ++ frac)
  let expo : Option Int := if cs.any isExp then asmExponent ((cs.dropWhile fun c => !isExp c).drop 1) else some 0
  if whole = [] || !(cs.any isExp || mantissa.any (· = '.')) then none
  else
    match digits, expo with
    | some n, some e => some (asmDecimal neg n (e - frac.length))
    | _, _ => none

/-- A decimal real with an optional minus sign. -/
def asmReal : List Char → Option F64
  | '-' :: cs => asmRealFrom true cs
  | cs => asmRealFrom false cs

/-- A data operand: a hex word, a decimal natural number below 2^64, or a decimal real (30_encoding.md R88). -/
def asmData (cs : List Char) : Option Word :=
  match asmNatural cs with
  | some n => if n < 2 ^ 64 then some (BitVec.ofNat 64 n) else none
  | none => asmReal cs

/-- A register by its name in the register map (10_state.md R42). -/
def asmRegName (s : String) : Option RegName :=
  match s with
  | "STATUS" => some .status
  | "CAPS" => some .caps
  | "SPS" => some .sps
  | "ROLLOFF" => some .rolloff
  | "SPAN" => some .span
  | "WINDOW" => some .window
  | "FREQ_THR" => some .freqThr
  | "PHASE_THR" => some .phaseThr
  | "NCO_RATE" => some .ncoRate
  | "NCO_PHASE" => some .ncoPhase
  | "FREQ_EST" => some .freqEst
  | "PHASE_EST" => some .phaseEst
  | "SAMPLE_COUNT" => some .sampleCount
  | "NTAPS" => some .ntaps
  | "COEF_SEL" => some .coefSel
  | "COEF_DATA" => some .coefData
  | _ => none

/-- A register operand: a register's name, or an 8-bit number (30_encoding.md R88). -/
def asmReg (cs : List Char) : Option RegAddr :=
  match asmRegName (String.ofList cs) with
  | some r => some (regAddr r)
  | none =>
    match asmNatural cs with
    | some n => if n < 256 then some (BitVec.ofNat 8 n) else none
    | none => none

/-- The commands of a mnemonic with its operands, a pseudo-command expanded; none when the form is not one of
30_encoding.md R88 and R89. -/
def asmForm (mnemonic : String) (operands : List (List Char)) : Option (List Instr) :=
  match mnemonic, operands with
  | "NOP", [] => some [.nop]
  | "SRST", [] => some [.srst]
  | "CFGW", [r, v] =>
    match asmReg r, asmData v with
    | some a, some w => some [.cfgw a w]
    | _, _ => none
  | "RDREG", [r] => (asmReg r).map fun a => [.rdreg a]
  | "START", [] => some [.start]
  | "PROC", [re, im] =>
    match asmData re, asmData im with
    | some x, some y => some [.proc x y]
    | _, _ => none
  | "CLRST", [] => some [.clrst]
  | "RDSTAT", [] => some (expand .rdstat)
  | "SETUP", [a, b, c, d, e, f] =>
    match asmData a, asmData b, asmData c, asmData d, asmData e, asmData f with
    | some sps, some alpha, some span, some window, some fthr, some pthr =>
      some (expand (.setup sps alpha span window fthr pthr))
    | _, _, _, _, _, _ => none
  | "RDCOEF", [v] => (asmData v).map fun i => expand (.rdcoef i)
  | "REINIT", [] => some (expand .reinit)
  | _, _ => none

/-- The commands of one line; a line with a comment or blanks alone has none (30_encoding.md R88). -/
def asmLine (line : String) : Option (List Instr) :=
  let code := asmTrim (asmCode line.toList)
  let rest := asmTrim (code.dropWhile (· ≠ ' '))
  if code = [] then some []
  else asmForm (String.ofList (code.takeWhile (· ≠ ' '))) (if rest = [] then [] else (asmPieces rest).map asmTrim)

/-- The commands that a program's lines put on the port, in order; none when a line is malformed. -/
def asmProgram : List String → Option (List Command)
  | [] => some []
  | line :: lines =>
    match asmLine line, asmProgram lines with
    | some is, some cs => some (is.map encode ++ cs)
    | _, _ => none

end Sys2Proof.Machine
end

