-- ==== Sys2Proof/Safety.lean ====
section
/-! DEFINITION. The terms in which claims are stated: safe outcomes, the invariant of the state, what a session's results
depend on, runs of commands and of sub-blocks, and the real values of binary64 words. -/

namespace Sys2Proof.Machine

/-! ## Outcomes and runs -/

/-- The state an outcome goes on in; the given one where it does not go on. -/
def stateOr (s : State) : Host.Outcome State Fault Refusal → State
  | .next t => t
  | .fault _ => s
  | .refused _ => s

/-- The state after one command. -/
def after (i : Instr) (s : State) : State := stateOr s (exec i s)

/-- The state after commands performed in order. -/
def afterAll (is : List Instr) (s : State) : State := is.foldl (fun t i => after i t) s

/-- True of a PROC. -/
def isProc : Instr → Bool
  | .proc _ _ => true
  | .nop | .srst | .cfgw _ _ | .rdreg _ | .start | .clrst => false

/-- The responses to the PROCs among commands performed in order. -/
def procResponses : List Instr → State → List (Option Response)
  | [], _ => []
  | i :: is, s => (if isProc i then [(after i s).response] else []) ++ procResponses is (after i s)

/-! ## Responses, with the code as the byte of 60_exceptions.md R260 -/

/-- A command that completed, with its two output words (30_encoding.md R83). -/
def answeredWith (out0 out1 : Word) (s : State) : State := { s with response := some ⟨0x00, out0, out1⟩ }

/-- A command rejected with a code (60_exceptions.md R264). -/
def rejectedWith (code : BitVec 8) (s : State) : State :=
  { s with stErr := true, stLastErr := code, response := some ⟨code, 0, 0⟩ }

/-- The response codes (60_exceptions.md R260). -/
def rspCodes : List (BitVec 8) := [0x00, 0x01, 0x02, 0x03, 0x04, 0x10, 0x11, 0x12, 0x13, 0x14]

/-! ## Command words -/

/-- The match and mask columns of the opcode map (30_encoding.md R85). -/
def opcodeRows : List (CmdWord × CmdWord) :=
  [(0x00000000, 0xFFFFFFFF), (0x10000000, 0xFFFFFFFF), (0x20000000, 0xF00FFFFF), (0x30000000, 0xF00FFFFF),
   (0x40000000, 0xFFFFFFFF), (0x50000000, 0xFFFFFFFF), (0x60000000, 0xFFFFFFFF)]

/-- A command word is illegal (30_encoding.md R86), by the fields' places in the word as a number. -/
def illegalWord (w : CmdWord) : Prop :=
  7 ≤ w.toNat / 2 ^ 28 ∨ w.toNat % 2 ^ 20 ≠ 0 ∨
    (w.toNat / 2 ^ 20 % 2 ^ 8 ≠ 0 ∧ w.toNat / 2 ^ 28 ≠ 2 ∧ w.toNat / 2 ^ 28 ≠ 3)

/-! ## The invariant -/

/-- The error fields agree: no error is recorded exactly when the recorded code is 0, and a recorded code is one of
60_exceptions.md R260. -/
def ErrorFieldsAgree (s : State) : Prop :=
  (s.stErr = false ↔ s.stLastErr = 0) ∧ ∃ c : RspCode, s.stLastErr = rspByte c

/-- In IDLE there is no session: the datapath is as SRST leaves it (10_state.md R45; 48_host_commands.md R221, R222). -/
def IdleClean (s : State) : Prop := resetDatapath s = s ∧ s.ntaps = 0 ∧ s.coef = [] ∧ s.taps = []

/-- In RUN the configuration is one that START accepts, and the buffers have the sizes and the counters the ranges that the
spec gives them (10_state.md R27 to R30, R35 to R39; 44_accum_dump.md R160). -/
structure RunLegal (s : State) : Prop where
  sps : 2 ≤ s.cfgSps.toNat
  rolloff : rolloffLegal s = true
  window : 1 ≤ s.cfgWindow.toNat ∧ s.cfgWindow.toNat < 2 ^ 32
  count : s.ntaps = cfgCount s
  capacity : 1 ≤ s.ntaps ∧ s.ntaps ≤ Config.maxTaps
  coefLength : s.coef.length = s.ntaps
  coefFinite : ∀ c ∈ s.coef, isFinite c = true
  tapsLength : s.taps.length = s.ntaps
  fadCount : s.fad.count.toNat ≤ s.cfgWindow.toNat
  padCount : s.pad.count = s.fad.count
  delay : s.dl.buf.length = Config.delayCount ∧ s.dl.idx < Config.delayCount

/-- The invariant of the state. -/
def Inv (s : State) : Prop := ErrorFieldsAgree s ∧ (s.mode = .idle → IdleClean s) ∧ (s.mode = .run → RunLegal s)

/-- `nco_phase` is in `(-PI, PI]`, or NaN (10_state.md R34). -/
def PhaseWrapped (s : State) : Prop :=
  isNaN s.ncoPhase = true ∨ (flt (fneg piC) s.ncoPhase = true ∧ fle s.ncoPhase piC = true)

/-! ## The values inside one PROC, written out from the rules of 47_demod_fsm.md. The lists of numbers are the sites of the
free NaNs (log 5). -/

/-- The carrier-wiped sample of step 2: `(COS(θ), SIN(θ))` of the phase before the update, not conjugated, times the input
(R192; 41_nco.md R121; 40_phase_math.md R104). -/
def wideband (x : Cplx) (s : State) : Cplx where
  re := fsub [2, 1, s.freeCount] (fmul [0, 1, s.freeCount] (fcos s.ncoPhase) x.re)
    (fmul [1, 1, s.freeCount] (fsin s.ncoPhase) x.im)
  im := fadd [5, 1, s.freeCount] (fmul [3, 1, s.freeCount] (fcos s.ncoPhase) x.im)
    (fmul [4, 1, s.freeCount] (fsin s.ncoPhase) x.re)

/-- The phase after step 2: the increment is the rate, `freq_estimate` since step 1, plus the offset `phase_estimate`, and it
is rounded before it is added (R191, R192; 41_nco.md R121). -/
def phaseAfter (s : State) : F64 :=
  wrap [2, 0, s.freeCount] (fadd [1, 0, s.freeCount] s.ncoPhase
    (fadd [0, 0, s.freeCount] s.freqEstimate s.phaseEstimate))

/-- The tap buffer after step 3: the new sample first, the oldest dropped (R193; 43_fir.md R151). -/
def tapsAfter (x : Cplx) (s : State) : List Cplx := (wideband x s :: s.taps).take s.ntaps

/-- The matched-filter output of step 3, which PROC returns: in index order from `C0`, each product and each sum rounded
(R193, R200; 43_fir.md R151). -/
def narrowband (x : Cplx) (s : State) : Cplx :=
  (List.range s.ntaps).foldl (fun acc i => {
    re := fadd [0, 1, i, 2, s.freeCount] acc.re
      (fmul [0, 0, i, 2, s.freeCount] (s.coef.getD i 0) ((tapsAfter x s).getD i C0).re)
    im := fadd [1, 1, i, 2, s.freeCount] acc.im
      (fmul [1, 0, i, 2, s.freeCount] (s.coef.getD i 0) ((tapsAfter x s).getD i C0).im) }) ⟨0, 0⟩

/-- The phase error of step 4, by the three branches of 46_phase_detector.md R180 (R194). -/
def phaseError (x : Cplx) (s : State) : F64 :=
  if fge (narrowband x s).re 0 then fatan2 (narrowband x s).im (narrowband x s).re
  else if fgt (narrowband x s).im 0 then
    fsub [0, 3, s.freeCount] (fatan2 (narrowband x s).im (narrowband x s).re) piC
  else fneg (fadd [1, 3, s.freeCount] (fatan2 (narrowband x s).im (narrowband x s).re) piC)

/-- The delay line's call of step 5 (R194). -/
def delayed (x : Cplx) (s : State) : F64 × DelayLine := dlCall Config.delayCount (phaseError x s) s.dl

/-- The frequency-error sample of step 5 (R194). -/
def freqErrorSample (x : Cplx) (s : State) : F64 := fsub [4, s.freeCount] (phaseError x s) (delayed x s).1

/-- The frequency path's accumulate-and-dump call of step 6 (R195). -/
def freqDump (x : Cplx) (s : State) : F64 × AccDump :=
  adProc [5, s.freeCount] (windowSize s) s.fad (freqErrorSample x s)

/-- `avgF` of step 6 (R195). -/
def avgFreqErr (x : Cplx) (s : State) : F64 := fdiv [6, s.freeCount] (freqDump x s).1 (fofNat (windowSize s))

/-- The phase path's accumulate-and-dump call of step 6 (R195). -/
def phaseDump (x : Cplx) (s : State) : F64 × AccDump := adProc [7, s.freeCount] (windowSize s) s.pad (phaseError x s)

/-- `avgP` of step 6 (R195). -/
def avgPhaseErr (x : Cplx) (s : State) : F64 := fdiv [8, s.freeCount] (phaseDump x s).1 (fofNat (windowSize s))

/-- `phase_estimate` after step 7 (R197 to R199). -/
def phaseEstAfter (x : Cplx) (s : State) : F64 :=
  match s.lock with
  | .acquiringFrequency => 0
  | .acquiringPhase => avgPhaseErr x s
  | .tracking => fmul [0, 9, s.freeCount] Config.trackPhaseGain (avgPhaseErr x s)

/-- `freq_estimate` after step 7 (R197 to R199). -/
def freqEstAfter (x : Cplx) (s : State) : F64 :=
  match s.lock with
  | .acquiringFrequency => avgFreqErr x s
  | .acquiringPhase => s.freqEstimate
  | .tracking => fmul [1, 9, s.freeCount] Config.trackFreqGain (avgFreqErr x s)

/-- `lock` after step 7, by the table of R204. -/
def lockAfter (x : Cplx) (s : State) : Lock :=
  match s.lock with
  | .acquiringFrequency =>
    if fle (fabs (avgFreqErr x s)) s.cfgFreqThr then .acquiringPhase else .acquiringFrequency
  | .acquiringPhase =>
    if fgt (fabs (avgFreqErr x s)) s.cfgFreqThr then .acquiringFrequency
    else if fle (fabs (avgPhaseErr x s)) s.cfgPhaseThr then .tracking
    else .acquiringPhase
  | .tracking =>
    if fgt (fabs (avgFreqErr x s)) s.cfgFreqThr then .acquiringFrequency
    else if fgt (fabs (avgPhaseErr x s)) s.cfgPhaseThr then .acquiringPhase
    else .tracking

/-- Every value that step 8 checks is finite (R201). -/
def stepFinite (x : Cplx) (s : State) : Bool :=
  isFinite (narrowband x s).re && isFinite (narrowband x s).im && isFinite (phaseAfter s)
    && isFinite (freqEstAfter x s) && isFinite (phaseEstAfter x s)

/-- The state that an accepted PROC leaves, but for the response: the fields R190 to R201 write, and the model's counter. -/
def stepState (x : Cplx) (s : State) : State :=
  { s with
    ncoRate := s.freqEstimate, ncoPhase := phaseAfter s, taps := tapsAfter x s, dl := (delayed x s).2,
    fad := (freqDump x s).2, pad := (phaseDump x s).2, phaseEstimate := phaseEstAfter x s,
    freqEstimate := freqEstAfter x s, lock := lockAfter x s, sampleCount := s.sampleCount + 1,
    stNf := s.stNf || !stepFinite x s, freeCount := s.freeCount + 1 }

/-! ## What a session's results depend on -/

/-- The state with everything left out that no datapath rule reads: the sticky status, `coef_sel` and the port
(10_state.md R24, R25, R26, R32; 48_host_commands.md R229). -/
def datapath (s : State) : State :=
  { s with stNf := false, stErr := false, stLastErr := 0, coefSel := 0, port := [], response := none }

/-! ## Runs of sub-blocks -/

/-- The sum that a window of inputs leaves in an accumulator, from `acc`; the input of call `i` is added at the site of
call `i` (44_accum_dump.md R162). -/
def adSum (q : Site) (i : Nat) (acc : F64) : List F64 → F64
  | [] => acc
  | x :: xs => adSum q (i + 1) (fadd (i :: q) acc x) xs

/-- The values that successive calls of an accumulate-and-dump block return, numbered from `i` (44_accum_dump.md R160). -/
def adOutputs (q : Site) (w i : Nat) (b : AccDump) : List F64 → List F64
  | [] => []
  | x :: xs => (adProc (i :: q) w b x).1 :: adOutputs q w (i + 1) (adProc (i :: q) w b x).2 xs

/-- The values that successive calls of a delay line return (45_delay_line.md R171). -/
def dlOutputs (call : F64 → DelayLine → F64 × DelayLine) (d : DelayLine) : List F64 → List F64
  | [] => []
  | x :: xs => (call x d).1 :: dlOutputs call (call x d).2 xs

/-- The outputs of successive calls of a matched filter of length `n`, numbered from `i` (43_fir.md R154). -/
def firOutputs (q : Site) (n i : Nat) (coef : List F64) (taps : List Cplx) : List Cplx → List Cplx
  | [] => []
  | x :: xs => firSum (i :: q) n coef (firShift n x taps) :: firOutputs q n (i + 1) coef (firShift n x taps) xs

/-! ## Real values -/

/-- The value of a finite binary64 as a rational number (00_scope.md R6). -/
def fvalue (x : F64) : ℚ := (funits x : ℚ) / unitScale

/-- `r` is the real number `v` rounded to the nearest binary64, ties to even, an infinity from half a unit above the greatest
finite magnitude on (00_scope.md R6). -/
def RoundsTo (v : ℝ) (r : F64) : Prop :=
  if |v| < 2 ^ 1024 - 2 ^ 970 then
    isFinite r = true ∧ (∀ z, isFinite z = true → |(fvalue r : ℝ) - v| ≤ |(fvalue z : ℝ) - v|) ∧
      ∀ z, isFinite z = true → fvalue z ≠ fvalue r → |(fvalue z : ℝ) - v| = |(fvalue r : ℝ) - v| → fmag r % 2 = 0
  else isInf r = true ∧ (fsign r = true ↔ v < 0)

end Sys2Proof.Machine
end

