-- ==== Sys2Proof/Certificates/Slice0/Obligations.lean ====
section
/-! DEFINITION. The statements for the provers. A statement about a free NaN or an open value of SIN, COS, ATAN2 or MAX_TAPS
holds whatever that value is. -/

open Sys2Proof Sys2Proof.Machine

/-! ## Encoding and the step -/

/-- When the oldest event on the port is a command that decodes to an instruction, the step takes it off the port and is
that instruction's meaning (30_encoding.md R80; 20_memory.md R67). -/
def Obligations.StepRunsDecodedCommand : Prop :=
  ∀ (s : State) (c : Command) (rest : List PortEvent) (i : Instr),
    s.port = .command c :: rest → decode c = .ok i → step s = exec i { s with port := rest }

/-- Every word is either illegal or matches exactly one row of the opcode map; an illegal command is rejected with
ILLEGAL_CMD and has no other effect (30_encoding.md R86). -/
def Obligations.IllegalWordsAreRejected : Prop :=
  (∀ w : CmdWord,
    (illegalWord w → ∀ r ∈ opcodeRows, w &&& r.2 ≠ r.1) ∧
      (¬illegalWord w → (opcodeRows.filter fun r => w &&& r.2 = r.1).length = 1)) ∧
  ∀ (s : State) (c : Command) (rest : List PortEvent),
    s.port = .command c :: rest → illegalWord c.cmd → step s = .next (rejectedWith 0x01 { s with port := rest })

/-- The opcode map: a word that matches a row decodes to that row's command with the operands of 30_encoding.md R82, and a
word with a reserved opcode decodes to nothing (30_encoding.md R85). -/
def Obligations.OpcodeMapDecodes : Prop :=
  ∀ c : Command,
    (c.cmd &&& 0xFFFFFFFF = 0x00000000 → decode c = .ok .nop) ∧
    (c.cmd &&& 0xFFFFFFFF = 0x10000000 → decode c = .ok .srst) ∧
    (c.cmd &&& 0xF00FFFFF = 0x20000000 → decode c = .ok (.cfgw (c.cmd.extractLsb' 20 8) c.data0)) ∧
    (c.cmd &&& 0xF00FFFFF = 0x30000000 → decode c = .ok (.rdreg (c.cmd.extractLsb' 20 8))) ∧
    (c.cmd &&& 0xFFFFFFFF = 0x40000000 → decode c = .ok .start) ∧
    (c.cmd &&& 0xFFFFFFFF = 0x50000000 → decode c = .ok (.proc c.data0 c.data1)) ∧
    (c.cmd &&& 0xFFFFFFFF = 0x60000000 → decode c = .ok .clrst) ∧
    (7 ≤ c.cmd.toNat / 2 ^ 28 → ∀ i, decode c ≠ .ok i)

/-- Decoding the encoding of an instruction gives it back, for every operand. -/
def Obligations.DecodeOfEncode : Prop := ∀ i : Instr, decode (encode i) = .ok i

/-- A legal command is the encoding of the one instruction it decodes to, but for the data words that its form does not
name (30_encoding.md R82, R88). -/
def Obligations.EncodeOfDecode : Prop :=
  ∀ (c : Command) (i : Instr), decode c = .ok i →
    encode i = {
      cmd := c.cmd
      data0 := if c.cmd.toNat / 2 ^ 28 = 2 ∨ c.cmd.toNat / 2 ^ 28 = 5 then c.data0 else 0
      data1 := if c.cmd.toNat / 2 ^ 28 = 5 then c.data1 else 0 }

/-- The encoded examples of 30_encoding.md section 7 and one word of every other command. -/
def Obligations.ExampleWordsDecode : Prop :=
  decode ⟨0x20800000, 0x0000000000000002, 0⟩ = .ok (.cfgw 0x08 2) ∧
  decode ⟨0x30000000, 0, 0⟩ = .ok (.rdreg 0x00) ∧
  decode ⟨0x31300000, 0, 0⟩ = .ok (.rdreg 0x13) ∧
  decode ⟨0x21600000, 3, 0⟩ = .ok (.cfgw 0x16 3) ∧
  decode ⟨0x00000000, 0, 0⟩ = .ok .nop ∧
  decode ⟨0x10000000, 0, 0⟩ = .ok .srst ∧
  decode ⟨0x40000000, 0, 0⟩ = .ok .start ∧
  decode ⟨0x50000000, 0xBFF0000000000000, 0x8000000000000000⟩ = .ok (.proc 0xBFF0000000000000 0x8000000000000000) ∧
  decode ⟨0x60000000, 0, 0⟩ = .ok .clrst ∧
  decode ⟨0x00100000, 0, 0⟩ = .error .strayRegister ∧
  decode ⟨0x60000001, 0, 0⟩ = .error .reservedBits ∧
  decode ⟨0x70000000, 0, 0⟩ = .error .reservedOpcode

/-- The commands that the pseudo-commands expand to, as the words the host issues (30_encoding.md R88, R89). -/
def Obligations.PseudoCommandsExpand : Prop :=
  (expand .rdstat).map encode = [⟨0x30000000, 0, 0⟩] ∧
  (∀ sps alpha span window fthr pthr : Word, (expand (.setup sps alpha span window fthr pthr)).map encode =
    [⟨0x20800000, sps, 0⟩, ⟨0x20900000, alpha, 0⟩, ⟨0x20A00000, span, 0⟩, ⟨0x20B00000, window, 0⟩,
     ⟨0x20C00000, fthr, 0⟩, ⟨0x20D00000, pthr, 0⟩, ⟨0x40000000, 0, 0⟩]) ∧
  (∀ i : Word, (expand (.rdcoef i)).map encode = [⟨0x21600000, i, 0⟩, ⟨0x31700000, 0, 0⟩]) ∧
  (expand .reinit).map encode = [⟨0x10000000, 0, 0⟩, ⟨0x40000000, 0, 0⟩]

/-- Every command gets exactly one response, with a code of the table, and leaves the port (30_encoding.md R80;
60_exceptions.md R260). -/
def Obligations.EveryCommandIsAnswered : Prop :=
  ∀ (s : State) (c : Command) (rest : List PortEvent), s.port = .command c :: rest →
    ∃ (t : State) (r : Response), step s = .next t ∧ t.port = rest ∧ t.response = some r ∧ r.rsp ∈ rspCodes

/-- No step of CORE stops the machine, in any state (60_exceptions.md R263, R265). -/
def Obligations.StepAlwaysGoesOn : Prop := ∀ s : State, ∃ t : State, step s = .next t

/-- A hard reset gives every field of 10_state.md the value of R45's first column. What waits on the port goes on waiting, no
response is given, and the model's counter goes on: these three are the model's choice (log 4). -/
def Obligations.HardResetClearsEverything : Prop :=
  ∀ (s : State) (rest : List PortEvent), s.port = .hardReset :: rest →
    step s = .next {
      mode := .idle, lock := .acquiringFrequency, stNf := false, stErr := false, stLastErr := 0x00, cfgSps := 0,
      cfgRolloff := 0, cfgSpan := 0, cfgWindow := 0, cfgFreqThr := 0, cfgPhaseThr := 0, coefSel := 0, ncoRate := 0,
      ncoPhase := 0, ntaps := 0, coef := [], taps := [], fad := ⟨0, 0, 0⟩, pad := ⟨0, 0, 0⟩, dl := ⟨[0], 0⟩,
      phaseEstimate := 0, freqEstimate := 0, sampleCount := 0, port := rest, response := none,
      freeCount := s.freeCount }

/-- Between commands CORE holds its state unchanged (60_exceptions.md R273). -/
def Obligations.NothingHappensWithoutCommand : Prop := ∀ s : State, s.port = [] → step s = .next s

/-! ## The commands -/

/-- NOP completes in both modes, answers OK with zero data whatever the data words, and changes no other state
(48_host_commands.md R220). -/
def Obligations.NopCompletes : Prop :=
  (∀ s : State, exec .nop s = .next (answeredWith 0 0 s)) ∧
  ∀ (s : State) (d0 d1 : Word) (rest : List PortEvent), s.port = .command ⟨0x00000000, d0, d1⟩ :: rest →
    step s = .next (answeredWith 0 0 { s with port := rest })

/-- SRST completes in both modes: the values of 10_state.md R45's SRST column, the configuration and `coef_sel` kept
(48_host_commands.md R221). The port and the model's counter are kept too. -/
def Obligations.SrstCompletes : Prop :=
  (∀ s : State, exec .srst s = .next { s with
    mode := .idle, lock := .acquiringFrequency, stNf := false, stErr := false, stLastErr := 0x00, ncoRate := 0,
    ncoPhase := 0, ntaps := 0, coef := [], taps := [], fad := ⟨0, 0, 0⟩, pad := ⟨0, 0, 0⟩, dl := ⟨[0], 0⟩,
    phaseEstimate := 0, freqEstimate := 0, sampleCount := 0, response := some ⟨0x00, 0, 0⟩ }) ∧
  ∀ (s : State) (d0 d1 : Word) (rest : List PortEvent), s.port = .command ⟨0x10000000, d0, d1⟩ :: rest →
    step s = exec .srst { s with port := rest }

/-- CLRST completes in both modes: the three sticky fields become 0 and nothing else changes
(48_host_commands.md R227). -/
def Obligations.ClrstCompletes : Prop :=
  (∀ s : State, exec .clrst s = .next { s with
    stNf := false, stErr := false, stLastErr := 0x00, response := some ⟨0x00, 0, 0⟩ }) ∧
  ∀ (s : State) (d0 d1 : Word) (rest : List PortEvent), s.port = .command ⟨0x60000000, d0, d1⟩ :: rest →
    step s = exec .clrst { s with port := rest }

/-- CFGW completes on each configuration register in IDLE and on COEF_SEL in both modes: the register takes all 64 bits as
given, no matter the value, and nothing else changes (48_host_commands.md R222; 10_state.md R27 to R32, R42). -/
def Obligations.CfgwCompletes : Prop :=
  (∀ (s : State) (v : Word), s.mode = .idle →
    exec (.cfgw 0x08 v) s = .next (answeredWith 0 0 { s with cfgSps := v }) ∧
    exec (.cfgw 0x09 v) s = .next (answeredWith 0 0 { s with cfgRolloff := v }) ∧
    exec (.cfgw 0x0A v) s = .next (answeredWith 0 0 { s with cfgSpan := v }) ∧
    exec (.cfgw 0x0B v) s = .next (answeredWith 0 0 { s with cfgWindow := v }) ∧
    exec (.cfgw 0x0C v) s = .next (answeredWith 0 0 { s with cfgFreqThr := v }) ∧
    exec (.cfgw 0x0D v) s = .next (answeredWith 0 0 { s with cfgPhaseThr := v })) ∧
  ∀ (s : State) (v : Word), exec (.cfgw 0x16 v) s = .next (answeredWith 0 0 { s with coefSel := v })

/-- CFGW is rejected with BAD_REG on an unmapped address, with READ_ONLY on a read-only register in both modes, and with
WRONG_MODE on a configuration register in RUN (48_host_commands.md R224; 20_memory.md R65). -/
def Obligations.CfgwRejections : Prop :=
  ∀ (s : State) (a : RegAddr) (v : Word),
    ((2 ≤ a.toNat ∧ a.toNat ≤ 7) ∨ a.toNat = 0x0E ∨ a.toNat = 0x0F ∨ 0x18 ≤ a.toNat →
      exec (.cfgw a v) s = .next (rejectedWith 0x02 s)) ∧
    (a.toNat ≤ 1 ∨ (0x10 ≤ a.toNat ∧ a.toNat ≤ 0x15) ∨ a.toNat = 0x17 →
      exec (.cfgw a v) s = .next (rejectedWith 0x03 s)) ∧
    (0x08 ≤ a.toNat ∧ a.toNat ≤ 0x0D → s.mode = .run → exec (.cfgw a v) s = .next (rejectedWith 0x04 s))

/-- RDREG completes on every mapped register in both modes: it answers the register's contents and changes nothing, and it
is rejected with BAD_REG on an unmapped address (48_host_commands.md R223; 10_state.md R42; 20_memory.md R64). The fields of
STATUS and CAPS are those of StatusAndCapsFields. -/
def Obligations.RdregCompletes : Prop :=
  ∀ s : State,
    exec (.rdreg 0x00) s = .next (answeredWith (readReg .status s) 0 s) ∧
    exec (.rdreg 0x01) s = .next (answeredWith (readReg .caps s) 0 s) ∧
    exec (.rdreg 0x08) s = .next (answeredWith s.cfgSps 0 s) ∧
    exec (.rdreg 0x09) s = .next (answeredWith s.cfgRolloff 0 s) ∧
    exec (.rdreg 0x0A) s = .next (answeredWith s.cfgSpan 0 s) ∧
    exec (.rdreg 0x0B) s = .next (answeredWith s.cfgWindow 0 s) ∧
    exec (.rdreg 0x0C) s = .next (answeredWith s.cfgFreqThr 0 s) ∧
    exec (.rdreg 0x0D) s = .next (answeredWith s.cfgPhaseThr 0 s) ∧
    exec (.rdreg 0x10) s = .next (answeredWith s.ncoRate 0 s) ∧
    exec (.rdreg 0x11) s = .next (answeredWith s.ncoPhase 0 s) ∧
    exec (.rdreg 0x12) s = .next (answeredWith s.freqEstimate 0 s) ∧
    exec (.rdreg 0x13) s = .next (answeredWith s.phaseEstimate 0 s) ∧
    exec (.rdreg 0x14) s = .next (answeredWith s.sampleCount 0 s) ∧
    exec (.rdreg 0x15) s = .next (answeredWith (BitVec.ofNat 64 s.ntaps) 0 s) ∧
    exec (.rdreg 0x16) s = .next (answeredWith s.coefSel 0 s) ∧
    (s.coefSel.toNat < s.ntaps →
      exec (.rdreg 0x17) s = .next (answeredWith (s.coef.getD s.coefSel.toNat 0) 0 s)) ∧
    (s.ntaps ≤ s.coefSel.toNat → exec (.rdreg 0x17) s = .next (answeredWith 0 0 s)) ∧
    ∀ a : RegAddr, (2 ≤ a.toNat ∧ a.toNat ≤ 7) ∨ a.toNat = 0x0E ∨ a.toNat = 0x0F ∨ 0x18 ≤ a.toNat →
      exec (.rdreg a) s = .next (rejectedWith 0x02 s)

/-- STATUS at address 0x00 and CAPS at address 0x01: read-only in both modes, with these fields, reserved bits 0
(10_state.md R43). -/
def Obligations.StatusAndCapsFields : Prop :=
  ∀ s : State,
    exec (.rdreg 0x00) s = .next (answeredWith (readReg .status s) 0 s) ∧
    exec (.rdreg 0x01) s = .next (answeredWith (readReg .caps s) 0 s) ∧
    (∀ v : Word, exec (.cfgw 0x00 v) s = .next (rejectedWith 0x03 s) ∧
      exec (.cfgw 0x01 v) s = .next (rejectedWith 0x03 s)) ∧
    (readReg .status s).getLsbD 0 = decide (s.mode = .run) ∧
    (s.lock = .acquiringFrequency → (readReg .status s).extractLsb' 1 2 = 0) ∧
    (s.lock = .acquiringPhase → (readReg .status s).extractLsb' 1 2 = 1) ∧
    (s.lock = .tracking → (readReg .status s).extractLsb' 1 2 = 2) ∧
    (readReg .status s).getLsbD 3 = s.stNf ∧
    (readReg .status s).getLsbD 4 = s.stErr ∧
    (readReg .status s).extractLsb' 5 3 = 0 ∧
    (readReg .status s).extractLsb' 8 8 = s.stLastErr ∧
    (readReg .status s).extractLsb' 16 48 = 0 ∧
    ((readReg .caps s).extractLsb' 0 32).toNat = Config.maxTaps ∧
    (readReg .caps s).extractLsb' 32 8 = 1 ∧
    (readReg .caps s).extractLsb' 40 24 = 0

/-- START reports the first check that fails, in the order of 48_host_commands.md R225 and 60_exceptions.md R262, with no
other effect. A degenerate set is reported only when the tap count fits. -/
def Obligations.StartRejections : Prop :=
  ∀ s : State,
    (s.mode = .run → exec .start s = .next (rejectedWith 0x04 s)) ∧
    (s.mode = .idle → s.cfgSps.toNat < 2 → exec .start s = .next (rejectedWith 0x10 s)) ∧
    (s.mode = .idle → 2 ≤ s.cfgSps.toNat →
      ¬(fgt s.cfgRolloff 0 = true ∧ fle s.cfgRolloff 0x3FF0000000000000 = true) →
      exec .start s = .next (rejectedWith 0x11 s)) ∧
    (s.mode = .idle → 2 ≤ s.cfgSps.toNat → fgt s.cfgRolloff 0 = true → fle s.cfgRolloff 0x3FF0000000000000 = true →
      (s.cfgWindow.toNat = 0 ∨ 2 ^ 32 ≤ s.cfgWindow.toNat) → exec .start s = .next (rejectedWith 0x12 s)) ∧
    (s.mode = .idle → 2 ≤ s.cfgSps.toNat → fgt s.cfgRolloff 0 = true → fle s.cfgRolloff 0x3FF0000000000000 = true →
      1 ≤ s.cfgWindow.toNat → s.cfgWindow.toNat < 2 ^ 32 →
      Config.maxTaps < 2 * s.cfgSps.toNat * s.cfgSpan.toNat + 1 → exec .start s = .next (rejectedWith 0x13 s)) ∧
    (s.mode = .idle → 2 ≤ s.cfgSps.toNat → fgt s.cfgRolloff 0 = true → fle s.cfgRolloff 0x3FF0000000000000 = true →
      1 ≤ s.cfgWindow.toNat → s.cfgWindow.toNat < 2 ^ 32 →
      (isFinite (cfgEnergy s) = false ∨ feq (cfgEnergy s) 0 = true ∨ ∃ c ∈ cfgTaps s, isFinite c = false) →
      exec .start s = .next (rejectedWith
        (if Config.maxTaps < 2 * s.cfgSps.toNat * s.cfgSpan.toNat + 1 then 0x13 else 0x14) s))

/-- START completes exactly on a configuration that passes every check: the "After START" column of 10_state.md R45, with
the synthesized taps (48_host_commands.md R225; 42_rrc_synth.md R137). -/
def Obligations.StartCompletes : Prop :=
  ∀ s : State, s.mode = .idle → 2 ≤ s.cfgSps.toNat → fgt s.cfgRolloff 0 = true →
    fle s.cfgRolloff 0x3FF0000000000000 = true → 1 ≤ s.cfgWindow.toNat → s.cfgWindow.toNat < 2 ^ 32 →
    2 * s.cfgSps.toNat * s.cfgSpan.toNat + 1 ≤ Config.maxTaps →
    isFinite (cfgEnergy s) = true → feq (cfgEnergy s) 0 = false → (∀ c ∈ cfgTaps s, isFinite c = true) →
    exec .start s = .next { s with
      mode := .run, lock := .acquiringFrequency, stNf := false, ncoRate := 0, ncoPhase := 0,
      ntaps := 2 * s.cfgSps.toNat * s.cfgSpan.toNat + 1, coef := cfgTaps s,
      taps := List.replicate (2 * s.cfgSps.toNat * s.cfgSpan.toNat + 1) ⟨0, 0⟩, fad := ⟨0, 0, 0⟩, pad := ⟨0, 0, 0⟩,
      dl := ⟨[0], 0⟩, phaseEstimate := 0, freqEstimate := 0, sampleCount := 0, response := some ⟨0x00, 0, 0⟩ }

/-- PROC completes in RUN on every two data words: the state and the answer are those of the eight steps, whose values
Sys2Proof/Safety.lean writes out rule by rule; every other field of the spec keeps its value
(47_demod_fsm.md R190 to R201; 48_host_commands.md R226). That `freeCount` advances by one, and that it and the operation's
place name each free NaN, is the model's choice (log 5). -/
def Obligations.ProcCompletes : Prop :=
  ∀ (s : State) (re im : F64), s.mode = .run →
    exec (.proc re im) s =
      .next (answeredWith (narrowband ⟨re, im⟩ s).re (narrowband ⟨re, im⟩ s).im (stepState ⟨re, im⟩ s))

/-- PROC in IDLE is rejected with WRONG_MODE and consumes no sample (48_host_commands.md R224, R228). -/
def Obligations.ProcRejectedInIdle : Prop :=
  ∀ (s : State) (re im : F64), s.mode = .idle → exec (.proc re im) s = .next (rejectedWith 0x04 s)

/-- A response with a code other than OK means that the state is the one before the command plus the two error fields
(60_exceptions.md R264). -/
def Obligations.RejectionIsPrecise : Prop :=
  ∀ (s t : State) (c : Command) (rest : List PortEvent) (r : Response),
    s.port = .command c :: rest → step s = .next t → t.response = some r → r.rsp ≠ 0x00 →
    t = rejectedWith r.rsp { s with port := rest }

/-! ## Rules of the whole machine -/

/-- The invariant holds after reset. -/
def Obligations.ResetHasInvariant : Prop := Inv State.reset ∧ PhaseWrapped State.reset

/-- Every step keeps the invariant: the error fields agree, IDLE has no session, RUN has an accepted configuration, buffers
of the right sizes, finite coefficients and counters in range (10_state.md R26 to R39; 44_accum_dump.md R160). -/
def Obligations.StepKeepsInvariant : Prop := ∀ s t : State, Inv s → step s = .next t → Inv t

/-- Every step keeps the NCO phase in `(-PI, PI]` or NaN (10_state.md R34). -/
def Obligations.StepKeepsPhaseWrapped : Prop := ∀ s t : State, PhaseWrapped s → step s = .next t → PhaseWrapped t

/-- The lock state changes only in these events: a hard reset, SRST, a START that completes, and a PROC in RUN, and a PROC
changes it only along a transition of the table, a regression to AcquiringFrequency only when the mean frequency error exceeds
its threshold (10_state.md R23; 47_demod_fsm.md R204). -/
def Obligations.LockChangesOnlyAlongTransitions : Prop :=
  ∀ s t : State, step s = .next t → t.lock ≠ s.lock →
    (t.lock = .acquiringFrequency ∧ ∃ rest, s.port = .hardReset :: rest) ∨
    ∃ c rest, s.port = .command c :: rest ∧
      ((decode c = .ok .srst ∧ t.lock = .acquiringFrequency) ∨
        (decode c = .ok .start ∧ s.mode = .idle ∧ t.mode = .run ∧ t.lock = .acquiringFrequency) ∨
        ∃ re im, decode c = .ok (.proc re im) ∧ s.mode = .run ∧
          ((s.lock = .acquiringFrequency ∧ t.lock = .acquiringPhase) ∨
            (s.lock = .acquiringPhase ∧ t.lock = .tracking) ∨
            (s.lock = .tracking ∧ t.lock = .acquiringPhase) ∨
            ((s.lock = .acquiringPhase ∨ s.lock = .tracking) ∧ t.lock = .acquiringFrequency ∧
              fgt (fabs (avgFreqErr ⟨re, im⟩ s)) s.cfgFreqThr = true)))

/-- While a session runs, no step changes the configuration, the tap count or the coefficients (70_reset_and_hazards.md R294;
10_state.md R35, R36). -/
def Obligations.RunningSessionIsFixed : Prop :=
  ∀ s t : State, s.mode = .run → step s = .next t → t.mode = .run →
    t.cfgSps = s.cfgSps ∧ t.cfgRolloff = s.cfgRolloff ∧ t.cfgSpan = s.cfgSpan ∧ t.cfgWindow = s.cfgWindow ∧
    t.cfgFreqThr = s.cfgFreqThr ∧ t.cfgPhaseThr = s.cfgPhaseThr ∧ t.ntaps = s.ntaps ∧ t.coef = s.coef

/-- What the PROCs of a session answer, and the datapath they leave, depend only on the datapath before them and on their
own inputs, whatever other commands but SRST stand between them (48_host_commands.md R229). The free NaNs are numbered by the
PROCs performed, which the datapath counts (log 5). -/
def Obligations.InterleavedCommandsDoNotMatter : Prop :=
  ∀ (is js : List Instr) (s t : State), s.mode = .run → (∀ i ∈ is, i ≠ .srst) → (∀ j ∈ js, j ≠ .srst) →
    is.filter isProc = js.filter isProc → datapath s = datapath t →
    procResponses is s = procResponses js t ∧ datapath (afterAll is s) = datapath (afterAll js t)

/-- A session begins from its configuration alone: two IDLE states with one configuration either both start or both do not,
and then have one datapath (70_reset_and_hazards.md R292). The states agree in the model's counter (log 5). -/
def Obligations.SessionBeginsFromConfiguration : Prop :=
  ∀ s t : State, s.mode = .idle → t.mode = .idle → s.cfgSps = t.cfgSps → s.cfgRolloff = t.cfgRolloff →
    s.cfgSpan = t.cfgSpan → s.cfgWindow = t.cfgWindow → s.cfgFreqThr = t.cfgFreqThr → s.cfgPhaseThr = t.cfgPhaseThr →
    s.freeCount = t.freeCount →
    (after .start s).mode = (after .start t).mode ∧
      ((after .start s).mode = .run → datapath (after .start s) = datapath (after .start t))

/-- With non-negative thresholds that are not NaN, the second PROC after START leaves the lock state at Tracking, whatever
the samples, when the window is at least 2 (47_demod_fsm.md R206; for a window of 1 the second PROC already sees the first
sample's error, as program P2 of 95_test_vectors.md shows). -/
def Obligations.TrackingAtSecondSample : Prop :=
  ∀ (s : State) (re1 im1 re2 im2 : F64), s.mode = .run → s.lock = .acquiringFrequency → s.fad = ⟨0, 0, 0⟩ →
    s.pad = ⟨0, 0, 0⟩ → 2 ≤ s.cfgWindow.toNat → s.cfgWindow.toNat < 2 ^ 32 → fge s.cfgFreqThr 0 = true →
    fge s.cfgPhaseThr 0 = true →
    (after (.proc re1 im1) s).lock = .acquiringPhase ∧
      (after (.proc re2 im2) (after (.proc re1 im1) s)).lock = .tracking

/-- Once the NCO phase is NaN it stays NaN, and every PROC answers NaN in both parts and sets the sticky flag
(70_reset_and_hazards.md R301; 40_phase_math.md R103). -/
def Obligations.NanPhaseNeverRecovers : Prop :=
  ∀ (s : State) (re im : F64), s.mode = .run → 1 ≤ s.ntaps → isNaN s.ncoPhase = true →
    ∃ (t : State) (r : Response), exec (.proc re im) s = .next t ∧ t.response = some r ∧ isNaN t.ncoPhase = true ∧
      t.stNf = true ∧ isNaN r.out0 = true ∧ isNaN r.out1 = true

/-! ## Arithmetic -/

/-- Addition, subtraction, multiplication and division of finite operands give the exact result rounded to nearest, ties to
even, with overflow to an infinity (00_scope.md R6). The sign of a zero result and the operands that are not finite are in
ArithmeticSpecialCases. -/
def Obligations.ArithmeticRoundsToNearestEven : Prop :=
  ∀ (q : Site) (x y : F64), isFinite x = true → isFinite y = true →
    RoundsTo ((fvalue x + fvalue y : ℚ) : ℝ) (fadd q x y) ∧
    RoundsTo ((fvalue x - fvalue y : ℚ) : ℝ) (fsub q x y) ∧
    RoundsTo ((fvalue x * fvalue y : ℚ) : ℝ) (fmul q x y) ∧
    (fvalue y ≠ 0 → RoundsTo ((fvalue x / fvalue y : ℚ) : ℝ) (fdiv q x y))

/-- The square root of a finite operand that is not negative is correctly rounded, and that of a negative one is NaN
(00_scope.md R7). -/
def Obligations.SquareRootIsCorrectlyRounded : Prop :=
  ∀ (q : Site) (x : F64), isFinite x = true →
    (0 ≤ fvalue x → RoundsTo (Real.sqrt (fvalue x : ℝ)) (fsqrt q x)) ∧
    (fvalue x < 0 → isNaN (fsqrt q x) = true)

/-- The remainder is exact: `x - n*y` with `n` the integer nearest `x/y`, ties to the even `n`; it is NaN when `x` is infinite
or NaN, or `y` is zero or NaN (00_scope.md R7). -/
def Obligations.RemainderIsExact : Prop :=
  ∀ (q : Site) (x y : F64),
    (isFinite x = true → isFinite y = true → fvalue y ≠ 0 →
      isFinite (frem q x y) = true ∧ ∃ n : ℤ,
        fvalue (frem q x y) = fvalue x - n * fvalue y ∧
        (∀ m : ℤ, |fvalue x / fvalue y - n| ≤ |fvalue x / fvalue y - m|) ∧
        (∀ m : ℤ, m ≠ n → |fvalue x / fvalue y - n| = |fvalue x / fvalue y - m| → Even n)) ∧
    (isFinite x = false → isNaN (frem q x y) = true) ∧
    (isNaN y = true ∨ isZero y = true → isNaN (frem q x y) = true)

/-- The comparisons of finite operands are those of their values, so the two zeros are equal; an infinity is equal to itself
alone and beyond every other value of its side; and any comparison with a NaN is false (00_scope.md R7; for the infinities,
IEEE 754, log 12). -/
def Obligations.ComparisonsFollowValues : Prop :=
  ∀ x y : F64,
    (isFinite x = true → isFinite y = true →
      (flt x y = true ↔ fvalue x < fvalue y) ∧ (fle x y = true ↔ fvalue x ≤ fvalue y) ∧
      (fgt x y = true ↔ fvalue y < fvalue x) ∧ (fge x y = true ↔ fvalue y ≤ fvalue x) ∧
      (feq x y = true ↔ fvalue x = fvalue y)) ∧
    (isNaN x = false →
      (flt x 0x7FF0000000000000 = true ↔ x ≠ 0x7FF0000000000000) ∧ fle x 0x7FF0000000000000 = true ∧
      flt 0x7FF0000000000000 x = false ∧ (fle 0x7FF0000000000000 x = true ↔ x = 0x7FF0000000000000) ∧
      (feq x 0x7FF0000000000000 = true ↔ x = 0x7FF0000000000000) ∧
      (flt 0xFFF0000000000000 x = true ↔ x ≠ 0xFFF0000000000000) ∧ fle 0xFFF0000000000000 x = true ∧
      flt x 0xFFF0000000000000 = false ∧ (fle x 0xFFF0000000000000 = true ↔ x = 0xFFF0000000000000) ∧
      (feq x 0xFFF0000000000000 = true ↔ x = 0xFFF0000000000000)) ∧
    (fgt x y = flt y x ∧ fge x y = fle y x ∧ feq x y = feq y x) ∧
    (isNaN x = true ∨ isNaN y = true →
      flt x y = false ∧ fle x y = false ∧ fgt x y = false ∧ fge x y = false ∧ feq x y = false)

/-- The conversion of a natural number rounds to nearest, and is exact below 2^53 (00_scope.md R7). -/
def Obligations.NaturalsConvertRounded : Prop :=
  (∀ n : ℕ, RoundsTo (n : ℝ) (fofNat n)) ∧ ∀ n : ℕ, n < 2 ^ 53 → fvalue (fofNat n) = n

/-- Phase wrapping of a finite phase: the range, the exact multiple of TWO_PI, idempotence bit for bit, and the identity on
the range bit for bit (40_phase_math.md R101). -/
def Obligations.WrapStaysInRange : Prop :=
  ∀ (q q' : Site) (θ : F64), isFinite θ = true →
    (flt (fneg piC) (wrap q θ) = true ∧ fle (wrap q θ) piC = true) ∧
    wrap q' (wrap q θ) = wrap q θ ∧
    (∃ n : ℤ, fvalue (wrap q θ) = fvalue θ - n * fvalue twoPi) ∧
    (flt (fneg piC) θ = true → fle θ piC = true → wrap q θ = θ)

/-- The corner cases of phase wrapping, and NaN for a non-finite phase (40_phase_math.md R102, R103). -/
def Obligations.WrapCornerCases : Prop :=
  ∀ q : Site,
    wrap q 0x0000000000000000 = 0x0000000000000000 ∧ wrap q 0x8000000000000000 = 0x8000000000000000 ∧
    wrap q piC = piC ∧ wrap q (fneg piC) = piC ∧ wrap q twoPi = 0x0000000000000000 ∧
    wrap q (fneg twoPi) = 0x8000000000000000 ∧
    ∀ θ : F64, isFinite θ = false → isNaN (wrap q θ) = true

/-- The properties of SIN and COS that the spec states, whatever their open values are (00_scope.md R8). -/
def Obligations.SinAndCosProperties : Prop :=
  (fcos 0x0000000000000000 = 0x3FF0000000000000 ∧ fcos 0x8000000000000000 = 0x3FF0000000000000 ∧
    fsin 0x0000000000000000 = 0x0000000000000000 ∧ fsin 0x8000000000000000 = 0x8000000000000000) ∧
  ∀ x : F64,
    fsin (fneg x) = fneg (fsin x) ∧ fcos (fneg x) = fcos x ∧
    (isFinite x = true →
      (fle 0xBFF0000000000000 (fsin x) = true ∧ fle (fsin x) 0x3FF0000000000000 = true) ∧
      (fle 0xBFF0000000000000 (fcos x) = true ∧ fle (fcos x) 0x3FF0000000000000 = true)) ∧
    (isFinite x = false → isNaN (fsin x) = true ∧ isNaN (fcos x) = true)

/-- The properties of ATAN2 that the spec states, whatever its open values are (00_scope.md R9). -/
def Obligations.Atan2Properties : Prop :=
  ∀ x y : F64,
    (isNaN x = false → isNaN y = false →
      fle (fneg piC) (fatan2 y x) = true ∧ fle (fatan2 y x) piC = true) ∧
    (fgt x 0 = true ∨ x = 0x0000000000000000 →
      fatan2 0x0000000000000000 x = 0x0000000000000000 ∧ fatan2 0x8000000000000000 x = 0x8000000000000000) ∧
    (flt x 0 = true ∨ x = 0x8000000000000000 →
      fatan2 0x0000000000000000 x = piC ∧ fatan2 0x8000000000000000 x = fneg piC) ∧
    (fgt y 0 = true → fatan2 y 0x0000000000000000 = halfPi ∧ fatan2 y 0x8000000000000000 = halfPi) ∧
    (flt y 0 = true → fatan2 y 0x0000000000000000 = fneg halfPi ∧ fatan2 y 0x8000000000000000 = fneg halfPi) ∧
    fatan2 0x3FF0000000000000 0xBFF0000000000000 = 0x4002D97C7F3321D2 ∧
    fatan2 0xBFF0000000000000 0xBFF0000000000000 = fneg 0x4002D97C7F3321D2 ∧
    fatan2 0x3FF0000000000000 0x3FF0000000000000 = 0x3FE921FB54442D18 ∧
    (isNaN x = true ∨ isNaN y = true → isNaN (fatan2 y x) = true) ∧
    fatan2 (fneg y) x = fneg (fatan2 y x)

/-! ## Sub-blocks -/

/-- A rate with offset zero is the increment itself, but for `-0.0`, which gives `+0.0` (41_nco.md R124). -/
def Obligations.AddingZeroKeepsRate : Prop :=
  ∀ (q : Site) (r : F64), isNaN r = false →
    fadd q r 0 = if r = 0x8000000000000000 then 0x0000000000000000 else r

/-- The sample times of the RRC grid: each is the exact quotient `(k - sps*d) / sps` rounded once, the first is `-d` and the
last `+d`, they are symmetric about the centre bit for bit, and the centre is `+0.0`; a span of 0 has the one time `+0.0`
(42_rrc_synth.md R130; its symmetry is stated for `j` of at least 1, log 17). -/
def Obligations.SampleTimesAreSymmetric : Prop :=
  (∀ (q q' : Site) (sps d : ℕ), 2 ≤ sps → sps < 2 ^ 64 → 1 ≤ d → rrcCount sps d < 2 ^ 32 →
    rrcCount sps d = 2 * sps * d + 1 ∧
    (∀ k : ℕ, k < rrcCount sps d → RoundsTo (((k : ℝ) - sps * d) / sps) (rrcTime q sps d k)) ∧
    rrcTime q sps d 0 = fneg (fofNat d) ∧ rrcTime q sps d (2 * sps * d) = fofNat d ∧ fvalue (fofNat d) = d ∧
    rrcTime q sps d (sps * d) = 0x0000000000000000 ∧
    ∀ j : ℕ, 1 ≤ j → j ≤ sps * d →
      rrcTime q sps d (sps * d - j) = fneg (rrcTime q' sps d (sps * d + j)) ∧
      flt 0 (rrcTime q' sps d (sps * d + j)) = true) ∧
  ∀ (q : Site) (sps : ℕ), 2 ≤ sps → sps < 2 ^ 64 → rrcCount sps 0 = 1 ∧ rrcTime q sps 0 0 = 0x0000000000000000

/-- Each raw tap is the formula of the first branch whose condition holds, and the raw taps are these at the sample times in
index order (42_rrc_synth.md R131 to R134). -/
def Obligations.RawTapsFollowBranches : Prop :=
  (∀ (q : Site) (t r : F64), feq t 0 = true →
    rrcRaw q t r =
      fadd (3 :: 0 :: q) (fsub (0 :: 0 :: q) one r) (fdiv (2 :: 0 :: q) (fmul (1 :: 0 :: q) four r) piC)) ∧
  (∀ (q : Site) (t r : F64), feq t 0 = false →
    feq (fabs t) (fdiv (1 :: 1 :: q) one (fmul (0 :: 1 :: q) four r)) = true →
    ∀ a : F64, a = fdiv (1 :: 2 :: q) piC (fmul (0 :: 2 :: q) four r) →
    rrcRaw q t r =
      fmul (11 :: 2 :: q) (fdiv (3 :: 2 :: q) r (fsqrt (2 :: 2 :: q) two))
        (fadd (10 :: 2 :: q)
          (fmul (6 :: 2 :: q) (fadd (5 :: 2 :: q) one (fdiv (4 :: 2 :: q) two piC)) (fsin a))
          (fmul (9 :: 2 :: q) (fsub (8 :: 2 :: q) one (fdiv (7 :: 2 :: q) two piC)) (fcos a)))) ∧
  (∀ (q : Site) (t r : F64), feq t 0 = false →
    feq (fabs t) (fdiv (1 :: 1 :: q) one (fmul (0 :: 1 :: q) four r)) = false →
    ∀ x y : F64, x = fmul (1 :: 0 :: 3 :: q) (fmul (0 :: 0 :: 3 :: q) four r) t →
    y = fmul (1 :: 1 :: 3 :: q) (fmul (0 :: 1 :: 3 :: q) four r) t →
    rrcRaw q t r =
      fdiv (2 :: 3 :: q)
        (fadd (9 :: 0 :: 3 :: q)
          (fsin (fmul (4 :: 0 :: 3 :: q) (fmul (2 :: 0 :: 3 :: q) piC t) (fsub (3 :: 0 :: 3 :: q) one r)))
          (fmul (8 :: 0 :: 3 :: q) x
            (fcos (fmul (7 :: 0 :: 3 :: q) (fmul (5 :: 0 :: 3 :: q) piC t) (fadd (6 :: 0 :: 3 :: q) one r)))))
        (fmul (5 :: 1 :: 3 :: q) (fmul (2 :: 1 :: 3 :: q) piC t)
          (fsub (4 :: 1 :: 3 :: q) one (fmul (3 :: 1 :: 3 :: q) y y)))) ∧
  ∀ (q : Site) (sps d : ℕ) (r : F64), (rrcRawTaps q sps d r).length = 2 * sps * d + 1 ∧
    ∀ k : ℕ, k < 2 * sps * d + 1 →
      (rrcRawTaps q sps d r)[k]? = some (rrcRaw (1 :: k :: q) (rrcTime (0 :: k :: q) sps d k) r)

/-- The coefficients that START accepts are symmetric about the centre, compared as numbers (42_rrc_synth.md R139). The rule
says bit for bit; a numerator that cancels to `+0.0` gives zeros of both signs, so the model claims equality of values. -/
def Obligations.CoefficientsAreSymmetric : Prop :=
  ∀ s t : State, exec .start s = .next t → t.mode = .run → s.mode = .idle →
    ∀ k : ℕ, k < t.ntaps → feq (t.coef.getD k 0) (t.coef.getD (t.ntaps - 1 - k) 0) = true

/-- A span of 0 is legal and gives one tap of value exactly 1.0 for every legal roll-off (48_host_commands.md R225). -/
def Obligations.SpanZeroGivesUnitTap : Prop :=
  ∀ s : State, s.mode = .idle → 2 ≤ s.cfgSps.toNat → fgt s.cfgRolloff 0 = true →
    fle s.cfgRolloff 0x3FF0000000000000 = true → 1 ≤ s.cfgWindow.toNat → s.cfgWindow.toNat < 2 ^ 32 → s.cfgSpan = 0 →
    ∃ t : State, exec .start s = .next t ∧ t.mode = .run ∧ t.ntaps = 1 ∧ t.coef = [0x3FF0000000000000]

/-- The square root of a rounded square gives the number back, when the square neither overflows nor underflows
(42_rrc_synth.md R136). -/
def Obligations.RootOfSquareIsIdentity : Prop :=
  ∀ (q q' : Site) (x : F64), fsign x = false → 2 ^ 52 ≤ fmag (fmul q x x) → isFinite (fmul q x x) = true →
    fsqrt q' (fmul q x x) = x

/-- The tap buffer holds the most recent samples, newest first: after a list of inputs it is those inputs, latest first,
followed by what it held, cut to the filter's length (43_fir.md R150, R151). -/
def Obligations.TapBufferHoldsNewestFirst : Prop :=
  ∀ (n : ℕ) (taps xs : List Cplx), taps.length = n →
    xs.foldl (fun b x => firShift n x b) taps = (xs.reverse ++ taps).take n

/-- The impulse response is the coefficient vector, with `+0.0` for a coefficient of `-0.0`, and the imaginary parts are
`+0.0` (43_fir.md R154). -/
def Obligations.ImpulseResponseIsCoefficients : Prop :=
  ∀ (q : Site) (coef : List F64), (∀ c ∈ coef, isFinite c = true) → coef ≠ [] →
    firOutputs q coef.length 0 coef (List.replicate coef.length C0)
        (⟨0x3FF0000000000000, 0⟩ :: List.replicate (coef.length - 1) C0) =
      coef.map fun c => ⟨if c = 0x8000000000000000 then 0 else c, 0⟩

/-- The latency of a loop filter: `w` calls return the value held at the start, and the next `w` calls return the sum of
the first `w` inputs, rounded at each step (44_accum_dump.md R162). -/
def Obligations.LoopFilterHasOneWindowLatency : Prop :=
  ∀ (q : Site) (w : ℕ) (held : F64) (xs ys : List F64), 1 ≤ w → w < 2 ^ 32 → xs.length = w → ys.length = w →
    adOutputs q w 0 ⟨0, 0, held⟩ (xs ++ ys) = List.replicate w held ++ List.replicate w (adSum q 0 0 xs)

/-- A loop filter's held value changes only in a call that enters with a full window, and such a call returns the full
window's sum (44_accum_dump.md R160, R163). -/
def Obligations.LoopFilterChangesOnlyAtDump : Prop :=
  ∀ (q : Site) (w : ℕ) (b : AccDump) (x : F64),
    (b.count.toNat ≠ w →
      adProc q w b x = (b.last, ⟨b.count + 1, fadd q b.acc x, b.last⟩)) ∧
    (b.count.toNat = w → adProc q w b x = (b.acc, ⟨1, fadd q 0 x, b.acc⟩))

/-- The latency of a delay line of `k` samples: it returns `+0.0` for `k` calls and then its inputs, delayed by `k`, bit for
bit (45_delay_line.md R171). -/
def Obligations.DelayLineDelaysInputs : Prop :=
  ∀ (k : ℕ) (xs : List F64), 1 ≤ k →
    dlOutputs (dlCall k) ⟨List.replicate k 0, 0⟩ xs = (List.replicate k 0 ++ xs).take xs.length

/-- The realization with `k+1` slots and a read index one slot ahead gives the same outputs as the one-index realization, for
every input sequence (45_delay_line.md R172). -/
def Obligations.DelayLineRealizationsAgree : Prop :=
  ∀ (k : ℕ) (xs : List F64), 1 ≤ k →
    dlOutputs (dlCallAhead k) ⟨List.replicate (k + 1) 0, 0⟩ xs = dlOutputs (dlCall k) ⟨List.replicate k 0, 0⟩ xs

/-- In the left half-plane the phase error is never positive (46_phase_detector.md R181). -/
def Obligations.LeftHalfPlaneErrorIsNotPositive : Prop :=
  ∀ (q : Site) (z : Cplx), flt z.re 0 = true → isNaN z.im = false → fle (pdDetect q z) 0 = true

/-- The three branches of the phase detector for every sample, its exact corner values, and NaN for a NaN part
(46_phase_detector.md R180, R182). -/
def Obligations.PhaseDetectorCornerValues : Prop :=
  ∀ q : Site,
    (∀ z : Cplx,
      (fge z.re 0 = true → pdDetect q z = fatan2 z.im z.re) ∧
      (fge z.re 0 = false → fgt z.im 0 = true → pdDetect q z = fsub (0 :: q) (fatan2 z.im z.re) piC) ∧
      (fge z.re 0 = false → fgt z.im 0 = false → pdDetect q z = fneg (fadd (1 :: q) (fatan2 z.im z.re) piC))) ∧
    pdDetect q ⟨0x3FF0000000000000, 0x0000000000000000⟩ = 0x0000000000000000 ∧
    pdDetect q ⟨0x0000000000000000, 0x0000000000000000⟩ = 0x0000000000000000 ∧
    pdDetect q ⟨0x0000000000000000, 0x8000000000000000⟩ = 0x8000000000000000 ∧
    pdDetect q ⟨0x8000000000000000, 0x0000000000000000⟩ = piC ∧
    pdDetect q ⟨0x8000000000000000, 0x8000000000000000⟩ = fneg piC ∧
    pdDetect q ⟨0x0000000000000000, 0x3FF0000000000000⟩ = halfPi ∧
    pdDetect q ⟨0x8000000000000000, 0x3FF0000000000000⟩ = halfPi ∧
    pdDetect q ⟨0x0000000000000000, 0xBFF0000000000000⟩ = fneg halfPi ∧
    pdDetect q ⟨0xBFF0000000000000, 0x0000000000000000⟩ = fneg twoPi ∧
    pdDetect q ⟨0xBFF0000000000000, 0x8000000000000000⟩ = 0x8000000000000000 ∧
    ∀ z : Cplx, isNaN z.re = true ∨ isNaN z.im = true → isNaN (pdDetect q z) = true

/-- The threshold predicates: for operands that are not NaN exactly one holds, with a NaN neither does, and a negative
threshold is always exceeded (47_demod_fsm.md R196). -/
def Obligations.ThresholdPredicatesAreComplementary : Prop :=
  ∀ avg thr : F64,
    (within avg thr = true ↔ fle (fabs avg) thr = true) ∧ (exceeds avg thr = true ↔ fgt (fabs avg) thr = true) ∧
    (isNaN avg = false → isNaN thr = false → (within avg thr = true ↔ exceeds avg thr = false)) ∧
    (isNaN avg = true ∨ isNaN thr = true → within avg thr = false ∧ exceeds avg thr = false) ∧
    (isNaN avg = false → flt thr 0 = true → within avg thr = false ∧ exceeds avg thr = true)

/-! ## The sub-blocks' formulas -/

/-- The NCO and the complex primitives by their formulas: `NCO_GEN` outputs `(COS(θ), SIN(θ))` of the phase before the update,
not conjugated, and then advances the phase by the rounded increment; `CMUL`, `CSCALE`, `CADD` and `ARG`, each operation
rounded on its own (41_nco.md R120, R121, R123; 40_phase_math.md R104 to R107). -/
def Obligations.NcoAndComplexFormulas : Prop :=
  (∀ (q : Site) (v offset : F64) (s : State),
    ncoSetRate v s = { s with ncoRate := v } ∧
    ncoGen q offset s =
      (⟨fcos s.ncoPhase, fsin s.ncoPhase⟩,
        { s with ncoPhase := wrap (2 :: q) (fadd (1 :: q) s.ncoPhase (fadd (0 :: q) s.ncoRate offset)) }) ∧
    ncoGenReal q offset s = (fcos s.ncoPhase, (ncoGen q offset s).2)) ∧
  ∀ (q : Site) (c : F64) (a b : Cplx),
    cmul q a b =
      ⟨fsub (2 :: q) (fmul (0 :: q) a.re b.re) (fmul (1 :: q) a.im b.im),
        fadd (5 :: q) (fmul (3 :: q) a.re b.im) (fmul (4 :: q) a.im b.re)⟩ ∧
    cscale q c a = ⟨fmul (0 :: q) c a.re, fmul (1 :: q) c a.im⟩ ∧
    cadd q a b = ⟨fadd (0 :: q) a.re b.re, fadd (1 :: q) a.im b.im⟩ ∧
    arg a = fatan2 a.im a.re

/-- The matched filter's call: the new sample is shifted in first and the oldest dropped, and the output sums
`coef[i] * taps[i]` in index order from `C0`, each product and each sum rounded on its own; so the real variant, from `+0.0`
(43_fir.md R151 to R153). -/
def Obligations.MatchedFilterSumsInIndexOrder : Prop :=
  (∀ (q : Site) (x : Cplx) (s : State),
    firProc q x s =
      (firSum q s.ntaps s.coef ((x :: s.taps).take s.ntaps), { s with taps := (x :: s.taps).take s.ntaps })) ∧
  (∀ (q : Site) (coef : List F64) (taps : List Cplx),
    firSum q 0 coef taps = ⟨0, 0⟩ ∧
    ∀ n : ℕ, firSum q (n + 1) coef taps =
      ⟨fadd (0 :: 1 :: n :: q) (firSum q n coef taps).re
          (fmul (0 :: 0 :: n :: q) (coef.getD n 0) (taps.getD n C0).re),
        fadd (1 :: 1 :: n :: q) (firSum q n coef taps).im
          (fmul (1 :: 0 :: n :: q) (coef.getD n 0) (taps.getD n C0).im)⟩) ∧
  ∀ (q : Site) (coef taps : List F64) (x : F64),
    firProcReal q coef x taps =
      (firSumReal q coef.length coef ((x :: taps).take coef.length), (x :: taps).take coef.length) ∧
    firSumReal q 0 coef taps = 0 ∧
    ∀ n : ℕ, firSumReal q (n + 1) coef taps =
      fadd (1 :: n :: q) (firSumReal q n coef taps) (fmul (0 :: n :: q) (coef.getD n 0) (taps.getD n 0))

/-- The energy sums the squares of the raw taps in index order from `+0.0`, each step rounded; every tap is divided by the
square root of the energy; and START uses the raw taps of its three registers, their energy, and those quotients
(42_rrc_synth.md R135, R136; 48_host_commands.md R225). -/
def Obligations.EnergyAndNormalization : Prop :=
  (∀ (q : Site) (raw : List F64) (v : F64),
    rrcEnergy q [] = 0 ∧
    rrcEnergy q (raw ++ [v]) =
      fadd (1 :: raw.length :: q) (rrcEnergy q raw) (fmul (0 :: raw.length :: q) v v)) ∧
  (∀ (q : Site) (raw : List F64) (e : F64),
    (rrcNorm q raw e).length = raw.length ∧
    ∀ k : ℕ, (rrcNorm q raw e)[k]? = raw[k]?.map fun v => fdiv (1 :: k :: q) v (fsqrt (0 :: q) e)) ∧
  ∀ s : State,
    cfgRawTaps s = rrcRawTaps [0, s.freeCount] s.cfgSps.toNat s.cfgSpan.toNat s.cfgRolloff ∧
    cfgEnergy s = rrcEnergy [1, s.freeCount] (cfgRawTaps s) ∧
    cfgTaps s = rrcNorm [2, s.freeCount] (cfgRawTaps s) (cfgEnergy s)

/-- The results that the rounding of a finite exact value does not settle: NaN operands, infinities, a zero divisor, and the
sign of a zero result. The spec names the IEEE 754 operations (00_scope.md R6, R7) and does not write these out: they are
PRESUMED from the standard (log 12; for the remainder, log 13). -/
def Obligations.ArithmeticSpecialCases : Prop :=
  ∀ (q : Site) (x y : F64),
    (isNaN x = true ∨ isNaN y = true →
      isNaN (fadd q x y) = true ∧ isNaN (fsub q x y) = true ∧ isNaN (fmul q x y) = true ∧
      isNaN (fdiv q x y) = true) ∧
    fsub q x y = fadd q x (fneg y) ∧
    (isInf x = true → isInf y = true → fsign x ≠ fsign y → isNaN (fadd q x y) = true) ∧
    (isInf x = true → isInf y = true → fsign x = fsign y → fadd q x y = x) ∧
    (isInf x = true → isFinite y = true → fadd q x y = x ∧ fadd q y x = x) ∧
    (isFinite x = true → isFinite y = true → fvalue x + fvalue y = 0 →
      fadd q x y = if fsign x = true ∧ fsign y = true then 0x8000000000000000 else 0x0000000000000000) ∧
    (isInf x = true → isZero y = true → isNaN (fmul q x y) = true ∧ isNaN (fmul q y x) = true) ∧
    (isInf x = true → isNaN y = false → isZero y = false →
      isInf (fmul q x y) = true ∧ isInf (fmul q y x) = true) ∧
    (isNaN (fmul q x y) = false → fsign (fmul q x y) = (fsign x != fsign y)) ∧
    (isInf x = true → isInf y = true → isNaN (fdiv q x y) = true) ∧
    (isZero x = true → isZero y = true → isNaN (fdiv q x y) = true) ∧
    (isInf x = true → isFinite y = true → isInf (fdiv q x y) = true) ∧
    (isFinite x = true → isInf y = true → isZero (fdiv q x y) = true) ∧
    (isFinite x = true → isZero x = false → isZero y = true → isInf (fdiv q x y) = true) ∧
    (isNaN (fdiv q x y) = false → fsign (fdiv q x y) = (fsign x != fsign y)) ∧
    (isNaN x = true → isNaN (fsqrt q x) = true) ∧
    (isZero x = true → fsqrt q x = x) ∧
    (isInf x = true → fsign x = false → fsqrt q x = x) ∧
    (isInf x = true → fsign x = true → isNaN (fsqrt q x) = true) ∧
    (isFinite x = true → isInf y = true → frem q x y = x) ∧
    (isZero (frem q x y) = true → fsign (frem q x y) = fsign x) ∧
    ∀ n : ℕ, fsign (fofNat n) = false
end

