-- ==== Sys2Proof/Laws/State.lean ====
section
/-! SUPPORT. One lemma per field per update of the state. -/

namespace Sys2Proof.Machine

/-! ## respond -/

@[simp] theorem respond_mode (c : RspCode) (d0 d1 : Word) (s : State) : (respond c d0 d1 s).mode = s.mode := rfl
@[simp] theorem respond_lock (c : RspCode) (d0 d1 : Word) (s : State) : (respond c d0 d1 s).lock = s.lock := rfl
@[simp] theorem respond_stNf (c : RspCode) (d0 d1 : Word) (s : State) : (respond c d0 d1 s).stNf = s.stNf := rfl
@[simp] theorem respond_stErr (c : RspCode) (d0 d1 : Word) (s : State) : (respond c d0 d1 s).stErr = s.stErr := rfl
@[simp] theorem respond_stLastErr (c : RspCode) (d0 d1 : Word) (s : State) : (respond c d0 d1 s).stLastErr = s.stLastErr := rfl
@[simp] theorem respond_cfgSps (c : RspCode) (d0 d1 : Word) (s : State) : (respond c d0 d1 s).cfgSps = s.cfgSps := rfl
@[simp] theorem respond_cfgRolloff (c : RspCode) (d0 d1 : Word) (s : State) : (respond c d0 d1 s).cfgRolloff = s.cfgRolloff := rfl
@[simp] theorem respond_cfgSpan (c : RspCode) (d0 d1 : Word) (s : State) : (respond c d0 d1 s).cfgSpan = s.cfgSpan := rfl
@[simp] theorem respond_cfgWindow (c : RspCode) (d0 d1 : Word) (s : State) : (respond c d0 d1 s).cfgWindow = s.cfgWindow := rfl
@[simp] theorem respond_cfgFreqThr (c : RspCode) (d0 d1 : Word) (s : State) : (respond c d0 d1 s).cfgFreqThr = s.cfgFreqThr := rfl
@[simp] theorem respond_cfgPhaseThr (c : RspCode) (d0 d1 : Word) (s : State) : (respond c d0 d1 s).cfgPhaseThr = s.cfgPhaseThr := rfl
@[simp] theorem respond_coefSel (c : RspCode) (d0 d1 : Word) (s : State) : (respond c d0 d1 s).coefSel = s.coefSel := rfl
@[simp] theorem respond_ncoRate (c : RspCode) (d0 d1 : Word) (s : State) : (respond c d0 d1 s).ncoRate = s.ncoRate := rfl
@[simp] theorem respond_ncoPhase (c : RspCode) (d0 d1 : Word) (s : State) : (respond c d0 d1 s).ncoPhase = s.ncoPhase := rfl
@[simp] theorem respond_ntaps (c : RspCode) (d0 d1 : Word) (s : State) : (respond c d0 d1 s).ntaps = s.ntaps := rfl
@[simp] theorem respond_coef (c : RspCode) (d0 d1 : Word) (s : State) : (respond c d0 d1 s).coef = s.coef := rfl
@[simp] theorem respond_taps (c : RspCode) (d0 d1 : Word) (s : State) : (respond c d0 d1 s).taps = s.taps := rfl
@[simp] theorem respond_fad (c : RspCode) (d0 d1 : Word) (s : State) : (respond c d0 d1 s).fad = s.fad := rfl
@[simp] theorem respond_pad (c : RspCode) (d0 d1 : Word) (s : State) : (respond c d0 d1 s).pad = s.pad := rfl
@[simp] theorem respond_dl (c : RspCode) (d0 d1 : Word) (s : State) : (respond c d0 d1 s).dl = s.dl := rfl
@[simp] theorem respond_phaseEstimate (c : RspCode) (d0 d1 : Word) (s : State) : (respond c d0 d1 s).phaseEstimate = s.phaseEstimate := rfl
@[simp] theorem respond_freqEstimate (c : RspCode) (d0 d1 : Word) (s : State) : (respond c d0 d1 s).freqEstimate = s.freqEstimate := rfl
@[simp] theorem respond_sampleCount (c : RspCode) (d0 d1 : Word) (s : State) : (respond c d0 d1 s).sampleCount = s.sampleCount := rfl
@[simp] theorem respond_port (c : RspCode) (d0 d1 : Word) (s : State) : (respond c d0 d1 s).port = s.port := rfl
@[simp] theorem respond_response (c : RspCode) (d0 d1 : Word) (s : State) : (respond c d0 d1 s).response = some ⟨rspByte c, d0, d1⟩ := rfl
@[simp] theorem respond_freeCount (c : RspCode) (d0 d1 : Word) (s : State) : (respond c d0 d1 s).freeCount = s.freeCount := rfl

/-! ## reject -/

@[simp] theorem reject_mode (c : RspCode) (s : State) : (reject c s).mode = s.mode := rfl
@[simp] theorem reject_lock (c : RspCode) (s : State) : (reject c s).lock = s.lock := rfl
@[simp] theorem reject_stNf (c : RspCode) (s : State) : (reject c s).stNf = s.stNf := rfl
@[simp] theorem reject_stErr (c : RspCode) (s : State) : (reject c s).stErr = true := rfl
@[simp] theorem reject_stLastErr (c : RspCode) (s : State) : (reject c s).stLastErr = rspByte c := rfl
@[simp] theorem reject_cfgSps (c : RspCode) (s : State) : (reject c s).cfgSps = s.cfgSps := rfl
@[simp] theorem reject_cfgRolloff (c : RspCode) (s : State) : (reject c s).cfgRolloff = s.cfgRolloff := rfl
@[simp] theorem reject_cfgSpan (c : RspCode) (s : State) : (reject c s).cfgSpan = s.cfgSpan := rfl
@[simp] theorem reject_cfgWindow (c : RspCode) (s : State) : (reject c s).cfgWindow = s.cfgWindow := rfl
@[simp] theorem reject_cfgFreqThr (c : RspCode) (s : State) : (reject c s).cfgFreqThr = s.cfgFreqThr := rfl
@[simp] theorem reject_cfgPhaseThr (c : RspCode) (s : State) : (reject c s).cfgPhaseThr = s.cfgPhaseThr := rfl
@[simp] theorem reject_coefSel (c : RspCode) (s : State) : (reject c s).coefSel = s.coefSel := rfl
@[simp] theorem reject_ncoRate (c : RspCode) (s : State) : (reject c s).ncoRate = s.ncoRate := rfl
@[simp] theorem reject_ncoPhase (c : RspCode) (s : State) : (reject c s).ncoPhase = s.ncoPhase := rfl
@[simp] theorem reject_ntaps (c : RspCode) (s : State) : (reject c s).ntaps = s.ntaps := rfl
@[simp] theorem reject_coef (c : RspCode) (s : State) : (reject c s).coef = s.coef := rfl
@[simp] theorem reject_taps (c : RspCode) (s : State) : (reject c s).taps = s.taps := rfl
@[simp] theorem reject_fad (c : RspCode) (s : State) : (reject c s).fad = s.fad := rfl
@[simp] theorem reject_pad (c : RspCode) (s : State) : (reject c s).pad = s.pad := rfl
@[simp] theorem reject_dl (c : RspCode) (s : State) : (reject c s).dl = s.dl := rfl
@[simp] theorem reject_phaseEstimate (c : RspCode) (s : State) : (reject c s).phaseEstimate = s.phaseEstimate := rfl
@[simp] theorem reject_freqEstimate (c : RspCode) (s : State) : (reject c s).freqEstimate = s.freqEstimate := rfl
@[simp] theorem reject_sampleCount (c : RspCode) (s : State) : (reject c s).sampleCount = s.sampleCount := rfl
@[simp] theorem reject_port (c : RspCode) (s : State) : (reject c s).port = s.port := rfl
@[simp] theorem reject_response (c : RspCode) (s : State) : (reject c s).response = some ⟨rspByte c, 0, 0⟩ := rfl
@[simp] theorem reject_freeCount (c : RspCode) (s : State) : (reject c s).freeCount = s.freeCount := rfl

/-! ## resetDatapath -/

@[simp] theorem resetDatapath_mode (s : State) : (resetDatapath s).mode = s.mode := rfl
@[simp] theorem resetDatapath_lock (s : State) : (resetDatapath s).lock = .acquiringFrequency := rfl
@[simp] theorem resetDatapath_stNf (s : State) : (resetDatapath s).stNf = false := rfl
@[simp] theorem resetDatapath_stErr (s : State) : (resetDatapath s).stErr = s.stErr := rfl
@[simp] theorem resetDatapath_stLastErr (s : State) : (resetDatapath s).stLastErr = s.stLastErr := rfl
@[simp] theorem resetDatapath_cfgSps (s : State) : (resetDatapath s).cfgSps = s.cfgSps := rfl
@[simp] theorem resetDatapath_cfgRolloff (s : State) : (resetDatapath s).cfgRolloff = s.cfgRolloff := rfl
@[simp] theorem resetDatapath_cfgSpan (s : State) : (resetDatapath s).cfgSpan = s.cfgSpan := rfl
@[simp] theorem resetDatapath_cfgWindow (s : State) : (resetDatapath s).cfgWindow = s.cfgWindow := rfl
@[simp] theorem resetDatapath_cfgFreqThr (s : State) : (resetDatapath s).cfgFreqThr = s.cfgFreqThr := rfl
@[simp] theorem resetDatapath_cfgPhaseThr (s : State) : (resetDatapath s).cfgPhaseThr = s.cfgPhaseThr := rfl
@[simp] theorem resetDatapath_coefSel (s : State) : (resetDatapath s).coefSel = s.coefSel := rfl
@[simp] theorem resetDatapath_ncoRate (s : State) : (resetDatapath s).ncoRate = 0 := rfl
@[simp] theorem resetDatapath_ncoPhase (s : State) : (resetDatapath s).ncoPhase = 0 := rfl
@[simp] theorem resetDatapath_ntaps (s : State) : (resetDatapath s).ntaps = s.ntaps := rfl
@[simp] theorem resetDatapath_coef (s : State) : (resetDatapath s).coef = s.coef := rfl
@[simp] theorem resetDatapath_taps (s : State) : (resetDatapath s).taps = s.taps := rfl
@[simp] theorem resetDatapath_fad (s : State) : (resetDatapath s).fad = ⟨0, 0, 0⟩ := rfl
@[simp] theorem resetDatapath_pad (s : State) : (resetDatapath s).pad = ⟨0, 0, 0⟩ := rfl
@[simp] theorem resetDatapath_dl (s : State) : (resetDatapath s).dl = ⟨List.replicate Config.delayCount 0, 0⟩ := rfl
@[simp] theorem resetDatapath_phaseEstimate (s : State) : (resetDatapath s).phaseEstimate = 0 := rfl
@[simp] theorem resetDatapath_freqEstimate (s : State) : (resetDatapath s).freqEstimate = 0 := rfl
@[simp] theorem resetDatapath_sampleCount (s : State) : (resetDatapath s).sampleCount = 0 := rfl
@[simp] theorem resetDatapath_port (s : State) : (resetDatapath s).port = s.port := rfl
@[simp] theorem resetDatapath_response (s : State) : (resetDatapath s).response = s.response := rfl
@[simp] theorem resetDatapath_freeCount (s : State) : (resetDatapath s).freeCount = s.freeCount := rfl

/-! ## softReset -/

@[simp] theorem softReset_mode (s : State) : (softReset s).mode = .idle := rfl
@[simp] theorem softReset_lock (s : State) : (softReset s).lock = .acquiringFrequency := rfl
@[simp] theorem softReset_stNf (s : State) : (softReset s).stNf = false := rfl
@[simp] theorem softReset_stErr (s : State) : (softReset s).stErr = false := rfl
@[simp] theorem softReset_stLastErr (s : State) : (softReset s).stLastErr = 0 := rfl
@[simp] theorem softReset_cfgSps (s : State) : (softReset s).cfgSps = s.cfgSps := rfl
@[simp] theorem softReset_cfgRolloff (s : State) : (softReset s).cfgRolloff = s.cfgRolloff := rfl
@[simp] theorem softReset_cfgSpan (s : State) : (softReset s).cfgSpan = s.cfgSpan := rfl
@[simp] theorem softReset_cfgWindow (s : State) : (softReset s).cfgWindow = s.cfgWindow := rfl
@[simp] theorem softReset_cfgFreqThr (s : State) : (softReset s).cfgFreqThr = s.cfgFreqThr := rfl
@[simp] theorem softReset_cfgPhaseThr (s : State) : (softReset s).cfgPhaseThr = s.cfgPhaseThr := rfl
@[simp] theorem softReset_coefSel (s : State) : (softReset s).coefSel = s.coefSel := rfl
@[simp] theorem softReset_ncoRate (s : State) : (softReset s).ncoRate = 0 := rfl
@[simp] theorem softReset_ncoPhase (s : State) : (softReset s).ncoPhase = 0 := rfl
@[simp] theorem softReset_ntaps (s : State) : (softReset s).ntaps = 0 := rfl
@[simp] theorem softReset_coef (s : State) : (softReset s).coef = [] := rfl
@[simp] theorem softReset_taps (s : State) : (softReset s).taps = [] := rfl
@[simp] theorem softReset_fad (s : State) : (softReset s).fad = ⟨0, 0, 0⟩ := rfl
@[simp] theorem softReset_pad (s : State) : (softReset s).pad = ⟨0, 0, 0⟩ := rfl
@[simp] theorem softReset_dl (s : State) : (softReset s).dl = ⟨List.replicate Config.delayCount 0, 0⟩ := rfl
@[simp] theorem softReset_phaseEstimate (s : State) : (softReset s).phaseEstimate = 0 := rfl
@[simp] theorem softReset_freqEstimate (s : State) : (softReset s).freqEstimate = 0 := rfl
@[simp] theorem softReset_sampleCount (s : State) : (softReset s).sampleCount = 0 := rfl
@[simp] theorem softReset_port (s : State) : (softReset s).port = s.port := rfl
@[simp] theorem softReset_response (s : State) : (softReset s).response = s.response := rfl
@[simp] theorem softReset_freeCount (s : State) : (softReset s).freeCount = s.freeCount := rfl

/-! ## beginSession -/

@[simp] theorem beginSession_mode (n : Nat) (c : List F64) (s : State) : (beginSession n c s).mode = .run := rfl
@[simp] theorem beginSession_lock (n : Nat) (c : List F64) (s : State) : (beginSession n c s).lock = .acquiringFrequency := rfl
@[simp] theorem beginSession_stNf (n : Nat) (c : List F64) (s : State) : (beginSession n c s).stNf = false := rfl
@[simp] theorem beginSession_stErr (n : Nat) (c : List F64) (s : State) : (beginSession n c s).stErr = s.stErr := rfl
@[simp] theorem beginSession_stLastErr (n : Nat) (c : List F64) (s : State) : (beginSession n c s).stLastErr = s.stLastErr := rfl
@[simp] theorem beginSession_cfgSps (n : Nat) (c : List F64) (s : State) : (beginSession n c s).cfgSps = s.cfgSps := rfl
@[simp] theorem beginSession_cfgRolloff (n : Nat) (c : List F64) (s : State) : (beginSession n c s).cfgRolloff = s.cfgRolloff := rfl
@[simp] theorem beginSession_cfgSpan (n : Nat) (c : List F64) (s : State) : (beginSession n c s).cfgSpan = s.cfgSpan := rfl
@[simp] theorem beginSession_cfgWindow (n : Nat) (c : List F64) (s : State) : (beginSession n c s).cfgWindow = s.cfgWindow := rfl
@[simp] theorem beginSession_cfgFreqThr (n : Nat) (c : List F64) (s : State) : (beginSession n c s).cfgFreqThr = s.cfgFreqThr := rfl
@[simp] theorem beginSession_cfgPhaseThr (n : Nat) (c : List F64) (s : State) : (beginSession n c s).cfgPhaseThr = s.cfgPhaseThr := rfl
@[simp] theorem beginSession_coefSel (n : Nat) (c : List F64) (s : State) : (beginSession n c s).coefSel = s.coefSel := rfl
@[simp] theorem beginSession_ncoRate (n : Nat) (c : List F64) (s : State) : (beginSession n c s).ncoRate = 0 := rfl
@[simp] theorem beginSession_ncoPhase (n : Nat) (c : List F64) (s : State) : (beginSession n c s).ncoPhase = 0 := rfl
@[simp] theorem beginSession_ntaps (n : Nat) (c : List F64) (s : State) : (beginSession n c s).ntaps = n := rfl
@[simp] theorem beginSession_coef (n : Nat) (c : List F64) (s : State) : (beginSession n c s).coef = c := rfl
@[simp] theorem beginSession_taps (n : Nat) (c : List F64) (s : State) : (beginSession n c s).taps = List.replicate n C0 := rfl
@[simp] theorem beginSession_fad (n : Nat) (c : List F64) (s : State) : (beginSession n c s).fad = ⟨0, 0, 0⟩ := rfl
@[simp] theorem beginSession_pad (n : Nat) (c : List F64) (s : State) : (beginSession n c s).pad = ⟨0, 0, 0⟩ := rfl
@[simp] theorem beginSession_dl (n : Nat) (c : List F64) (s : State) : (beginSession n c s).dl = ⟨List.replicate Config.delayCount 0, 0⟩ := rfl
@[simp] theorem beginSession_phaseEstimate (n : Nat) (c : List F64) (s : State) : (beginSession n c s).phaseEstimate = 0 := rfl
@[simp] theorem beginSession_freqEstimate (n : Nat) (c : List F64) (s : State) : (beginSession n c s).freqEstimate = 0 := rfl
@[simp] theorem beginSession_sampleCount (n : Nat) (c : List F64) (s : State) : (beginSession n c s).sampleCount = 0 := rfl
@[simp] theorem beginSession_port (n : Nat) (c : List F64) (s : State) : (beginSession n c s).port = s.port := rfl
@[simp] theorem beginSession_response (n : Nat) (c : List F64) (s : State) : (beginSession n c s).response = s.response := rfl
@[simp] theorem beginSession_freeCount (n : Nat) (c : List F64) (s : State) : (beginSession n c s).freeCount = s.freeCount := rfl

/-! ## hardReset -/

@[simp] theorem hardReset_mode (s : State) : (hardReset s).mode = State.reset.mode := rfl
@[simp] theorem hardReset_lock (s : State) : (hardReset s).lock = State.reset.lock := rfl
@[simp] theorem hardReset_stNf (s : State) : (hardReset s).stNf = State.reset.stNf := rfl
@[simp] theorem hardReset_stErr (s : State) : (hardReset s).stErr = State.reset.stErr := rfl
@[simp] theorem hardReset_stLastErr (s : State) : (hardReset s).stLastErr = State.reset.stLastErr := rfl
@[simp] theorem hardReset_cfgSps (s : State) : (hardReset s).cfgSps = State.reset.cfgSps := rfl
@[simp] theorem hardReset_cfgRolloff (s : State) : (hardReset s).cfgRolloff = State.reset.cfgRolloff := rfl
@[simp] theorem hardReset_cfgSpan (s : State) : (hardReset s).cfgSpan = State.reset.cfgSpan := rfl
@[simp] theorem hardReset_cfgWindow (s : State) : (hardReset s).cfgWindow = State.reset.cfgWindow := rfl
@[simp] theorem hardReset_cfgFreqThr (s : State) : (hardReset s).cfgFreqThr = State.reset.cfgFreqThr := rfl
@[simp] theorem hardReset_cfgPhaseThr (s : State) : (hardReset s).cfgPhaseThr = State.reset.cfgPhaseThr := rfl
@[simp] theorem hardReset_coefSel (s : State) : (hardReset s).coefSel = State.reset.coefSel := rfl
@[simp] theorem hardReset_ncoRate (s : State) : (hardReset s).ncoRate = State.reset.ncoRate := rfl
@[simp] theorem hardReset_ncoPhase (s : State) : (hardReset s).ncoPhase = State.reset.ncoPhase := rfl
@[simp] theorem hardReset_ntaps (s : State) : (hardReset s).ntaps = State.reset.ntaps := rfl
@[simp] theorem hardReset_coef (s : State) : (hardReset s).coef = State.reset.coef := rfl
@[simp] theorem hardReset_taps (s : State) : (hardReset s).taps = State.reset.taps := rfl
@[simp] theorem hardReset_fad (s : State) : (hardReset s).fad = State.reset.fad := rfl
@[simp] theorem hardReset_pad (s : State) : (hardReset s).pad = State.reset.pad := rfl
@[simp] theorem hardReset_dl (s : State) : (hardReset s).dl = State.reset.dl := rfl
@[simp] theorem hardReset_phaseEstimate (s : State) : (hardReset s).phaseEstimate = State.reset.phaseEstimate := rfl
@[simp] theorem hardReset_freqEstimate (s : State) : (hardReset s).freqEstimate = State.reset.freqEstimate := rfl
@[simp] theorem hardReset_sampleCount (s : State) : (hardReset s).sampleCount = State.reset.sampleCount := rfl
@[simp] theorem hardReset_port (s : State) : (hardReset s).port = s.port := rfl
@[simp] theorem hardReset_response (s : State) : (hardReset s).response = State.reset.response := rfl
@[simp] theorem hardReset_freeCount (s : State) : (hardReset s).freeCount = s.freeCount := rfl

/-! ## clearSticky -/

@[simp] theorem clearSticky_mode (s : State) : (clearSticky s).mode = s.mode := rfl
@[simp] theorem clearSticky_lock (s : State) : (clearSticky s).lock = s.lock := rfl
@[simp] theorem clearSticky_stNf (s : State) : (clearSticky s).stNf = false := rfl
@[simp] theorem clearSticky_stErr (s : State) : (clearSticky s).stErr = false := rfl
@[simp] theorem clearSticky_stLastErr (s : State) : (clearSticky s).stLastErr = 0 := rfl
@[simp] theorem clearSticky_cfgSps (s : State) : (clearSticky s).cfgSps = s.cfgSps := rfl
@[simp] theorem clearSticky_cfgRolloff (s : State) : (clearSticky s).cfgRolloff = s.cfgRolloff := rfl
@[simp] theorem clearSticky_cfgSpan (s : State) : (clearSticky s).cfgSpan = s.cfgSpan := rfl
@[simp] theorem clearSticky_cfgWindow (s : State) : (clearSticky s).cfgWindow = s.cfgWindow := rfl
@[simp] theorem clearSticky_cfgFreqThr (s : State) : (clearSticky s).cfgFreqThr = s.cfgFreqThr := rfl
@[simp] theorem clearSticky_cfgPhaseThr (s : State) : (clearSticky s).cfgPhaseThr = s.cfgPhaseThr := rfl
@[simp] theorem clearSticky_coefSel (s : State) : (clearSticky s).coefSel = s.coefSel := rfl
@[simp] theorem clearSticky_ncoRate (s : State) : (clearSticky s).ncoRate = s.ncoRate := rfl
@[simp] theorem clearSticky_ncoPhase (s : State) : (clearSticky s).ncoPhase = s.ncoPhase := rfl
@[simp] theorem clearSticky_ntaps (s : State) : (clearSticky s).ntaps = s.ntaps := rfl
@[simp] theorem clearSticky_coef (s : State) : (clearSticky s).coef = s.coef := rfl
@[simp] theorem clearSticky_taps (s : State) : (clearSticky s).taps = s.taps := rfl
@[simp] theorem clearSticky_fad (s : State) : (clearSticky s).fad = s.fad := rfl
@[simp] theorem clearSticky_pad (s : State) : (clearSticky s).pad = s.pad := rfl
@[simp] theorem clearSticky_dl (s : State) : (clearSticky s).dl = s.dl := rfl
@[simp] theorem clearSticky_phaseEstimate (s : State) : (clearSticky s).phaseEstimate = s.phaseEstimate := rfl
@[simp] theorem clearSticky_freqEstimate (s : State) : (clearSticky s).freqEstimate = s.freqEstimate := rfl
@[simp] theorem clearSticky_sampleCount (s : State) : (clearSticky s).sampleCount = s.sampleCount := rfl
@[simp] theorem clearSticky_port (s : State) : (clearSticky s).port = s.port := rfl
@[simp] theorem clearSticky_response (s : State) : (clearSticky s).response = s.response := rfl
@[simp] theorem clearSticky_freeCount (s : State) : (clearSticky s).freeCount = s.freeCount := rfl

/-! ## ncoSetRate -/

@[simp] theorem ncoSetRate_mode (v : F64) (s : State) : (ncoSetRate v s).mode = s.mode := rfl
@[simp] theorem ncoSetRate_lock (v : F64) (s : State) : (ncoSetRate v s).lock = s.lock := rfl
@[simp] theorem ncoSetRate_stNf (v : F64) (s : State) : (ncoSetRate v s).stNf = s.stNf := rfl
@[simp] theorem ncoSetRate_stErr (v : F64) (s : State) : (ncoSetRate v s).stErr = s.stErr := rfl
@[simp] theorem ncoSetRate_stLastErr (v : F64) (s : State) : (ncoSetRate v s).stLastErr = s.stLastErr := rfl
@[simp] theorem ncoSetRate_cfgSps (v : F64) (s : State) : (ncoSetRate v s).cfgSps = s.cfgSps := rfl
@[simp] theorem ncoSetRate_cfgRolloff (v : F64) (s : State) : (ncoSetRate v s).cfgRolloff = s.cfgRolloff := rfl
@[simp] theorem ncoSetRate_cfgSpan (v : F64) (s : State) : (ncoSetRate v s).cfgSpan = s.cfgSpan := rfl
@[simp] theorem ncoSetRate_cfgWindow (v : F64) (s : State) : (ncoSetRate v s).cfgWindow = s.cfgWindow := rfl
@[simp] theorem ncoSetRate_cfgFreqThr (v : F64) (s : State) : (ncoSetRate v s).cfgFreqThr = s.cfgFreqThr := rfl
@[simp] theorem ncoSetRate_cfgPhaseThr (v : F64) (s : State) : (ncoSetRate v s).cfgPhaseThr = s.cfgPhaseThr := rfl
@[simp] theorem ncoSetRate_coefSel (v : F64) (s : State) : (ncoSetRate v s).coefSel = s.coefSel := rfl
@[simp] theorem ncoSetRate_ncoRate (v : F64) (s : State) : (ncoSetRate v s).ncoRate = v := rfl
@[simp] theorem ncoSetRate_ncoPhase (v : F64) (s : State) : (ncoSetRate v s).ncoPhase = s.ncoPhase := rfl
@[simp] theorem ncoSetRate_ntaps (v : F64) (s : State) : (ncoSetRate v s).ntaps = s.ntaps := rfl
@[simp] theorem ncoSetRate_coef (v : F64) (s : State) : (ncoSetRate v s).coef = s.coef := rfl
@[simp] theorem ncoSetRate_taps (v : F64) (s : State) : (ncoSetRate v s).taps = s.taps := rfl
@[simp] theorem ncoSetRate_fad (v : F64) (s : State) : (ncoSetRate v s).fad = s.fad := rfl
@[simp] theorem ncoSetRate_pad (v : F64) (s : State) : (ncoSetRate v s).pad = s.pad := rfl
@[simp] theorem ncoSetRate_dl (v : F64) (s : State) : (ncoSetRate v s).dl = s.dl := rfl
@[simp] theorem ncoSetRate_phaseEstimate (v : F64) (s : State) : (ncoSetRate v s).phaseEstimate = s.phaseEstimate := rfl
@[simp] theorem ncoSetRate_freqEstimate (v : F64) (s : State) : (ncoSetRate v s).freqEstimate = s.freqEstimate := rfl
@[simp] theorem ncoSetRate_sampleCount (v : F64) (s : State) : (ncoSetRate v s).sampleCount = s.sampleCount := rfl
@[simp] theorem ncoSetRate_port (v : F64) (s : State) : (ncoSetRate v s).port = s.port := rfl
@[simp] theorem ncoSetRate_response (v : F64) (s : State) : (ncoSetRate v s).response = s.response := rfl
@[simp] theorem ncoSetRate_freeCount (v : F64) (s : State) : (ncoSetRate v s).freeCount = s.freeCount := rfl

/-! ## ncoGen -/

@[simp] theorem ncoGen_mode (q : Site) (o : F64) (s : State) : (ncoGen q o s).2.mode = s.mode := rfl
@[simp] theorem ncoGen_lock (q : Site) (o : F64) (s : State) : (ncoGen q o s).2.lock = s.lock := rfl
@[simp] theorem ncoGen_stNf (q : Site) (o : F64) (s : State) : (ncoGen q o s).2.stNf = s.stNf := rfl
@[simp] theorem ncoGen_stErr (q : Site) (o : F64) (s : State) : (ncoGen q o s).2.stErr = s.stErr := rfl
@[simp] theorem ncoGen_stLastErr (q : Site) (o : F64) (s : State) : (ncoGen q o s).2.stLastErr = s.stLastErr := rfl
@[simp] theorem ncoGen_cfgSps (q : Site) (o : F64) (s : State) : (ncoGen q o s).2.cfgSps = s.cfgSps := rfl
@[simp] theorem ncoGen_cfgRolloff (q : Site) (o : F64) (s : State) : (ncoGen q o s).2.cfgRolloff = s.cfgRolloff := rfl
@[simp] theorem ncoGen_cfgSpan (q : Site) (o : F64) (s : State) : (ncoGen q o s).2.cfgSpan = s.cfgSpan := rfl
@[simp] theorem ncoGen_cfgWindow (q : Site) (o : F64) (s : State) : (ncoGen q o s).2.cfgWindow = s.cfgWindow := rfl
@[simp] theorem ncoGen_cfgFreqThr (q : Site) (o : F64) (s : State) : (ncoGen q o s).2.cfgFreqThr = s.cfgFreqThr := rfl
@[simp] theorem ncoGen_cfgPhaseThr (q : Site) (o : F64) (s : State) : (ncoGen q o s).2.cfgPhaseThr = s.cfgPhaseThr := rfl
@[simp] theorem ncoGen_coefSel (q : Site) (o : F64) (s : State) : (ncoGen q o s).2.coefSel = s.coefSel := rfl
@[simp] theorem ncoGen_ncoRate (q : Site) (o : F64) (s : State) : (ncoGen q o s).2.ncoRate = s.ncoRate := rfl
@[simp] theorem ncoGen_ncoPhase (q : Site) (o : F64) (s : State) : (ncoGen q o s).2.ncoPhase = ncoAdvance q s.ncoPhase s.ncoRate o := rfl
@[simp] theorem ncoGen_ntaps (q : Site) (o : F64) (s : State) : (ncoGen q o s).2.ntaps = s.ntaps := rfl
@[simp] theorem ncoGen_coef (q : Site) (o : F64) (s : State) : (ncoGen q o s).2.coef = s.coef := rfl
@[simp] theorem ncoGen_taps (q : Site) (o : F64) (s : State) : (ncoGen q o s).2.taps = s.taps := rfl
@[simp] theorem ncoGen_fad (q : Site) (o : F64) (s : State) : (ncoGen q o s).2.fad = s.fad := rfl
@[simp] theorem ncoGen_pad (q : Site) (o : F64) (s : State) : (ncoGen q o s).2.pad = s.pad := rfl
@[simp] theorem ncoGen_dl (q : Site) (o : F64) (s : State) : (ncoGen q o s).2.dl = s.dl := rfl
@[simp] theorem ncoGen_phaseEstimate (q : Site) (o : F64) (s : State) : (ncoGen q o s).2.phaseEstimate = s.phaseEstimate := rfl
@[simp] theorem ncoGen_freqEstimate (q : Site) (o : F64) (s : State) : (ncoGen q o s).2.freqEstimate = s.freqEstimate := rfl
@[simp] theorem ncoGen_sampleCount (q : Site) (o : F64) (s : State) : (ncoGen q o s).2.sampleCount = s.sampleCount := rfl
@[simp] theorem ncoGen_port (q : Site) (o : F64) (s : State) : (ncoGen q o s).2.port = s.port := rfl
@[simp] theorem ncoGen_response (q : Site) (o : F64) (s : State) : (ncoGen q o s).2.response = s.response := rfl
@[simp] theorem ncoGen_freeCount (q : Site) (o : F64) (s : State) : (ncoGen q o s).2.freeCount = s.freeCount := rfl

/-! ## ncoGenReal -/

@[simp] theorem ncoGenReal_mode (q : Site) (o : F64) (s : State) : (ncoGenReal q o s).2.mode = s.mode := rfl
@[simp] theorem ncoGenReal_lock (q : Site) (o : F64) (s : State) : (ncoGenReal q o s).2.lock = s.lock := rfl
@[simp] theorem ncoGenReal_stNf (q : Site) (o : F64) (s : State) : (ncoGenReal q o s).2.stNf = s.stNf := rfl
@[simp] theorem ncoGenReal_stErr (q : Site) (o : F64) (s : State) : (ncoGenReal q o s).2.stErr = s.stErr := rfl
@[simp] theorem ncoGenReal_stLastErr (q : Site) (o : F64) (s : State) : (ncoGenReal q o s).2.stLastErr = s.stLastErr := rfl
@[simp] theorem ncoGenReal_cfgSps (q : Site) (o : F64) (s : State) : (ncoGenReal q o s).2.cfgSps = s.cfgSps := rfl
@[simp] theorem ncoGenReal_cfgRolloff (q : Site) (o : F64) (s : State) : (ncoGenReal q o s).2.cfgRolloff = s.cfgRolloff := rfl
@[simp] theorem ncoGenReal_cfgSpan (q : Site) (o : F64) (s : State) : (ncoGenReal q o s).2.cfgSpan = s.cfgSpan := rfl
@[simp] theorem ncoGenReal_cfgWindow (q : Site) (o : F64) (s : State) : (ncoGenReal q o s).2.cfgWindow = s.cfgWindow := rfl
@[simp] theorem ncoGenReal_cfgFreqThr (q : Site) (o : F64) (s : State) : (ncoGenReal q o s).2.cfgFreqThr = s.cfgFreqThr := rfl
@[simp] theorem ncoGenReal_cfgPhaseThr (q : Site) (o : F64) (s : State) : (ncoGenReal q o s).2.cfgPhaseThr = s.cfgPhaseThr := rfl
@[simp] theorem ncoGenReal_coefSel (q : Site) (o : F64) (s : State) : (ncoGenReal q o s).2.coefSel = s.coefSel := rfl
@[simp] theorem ncoGenReal_ncoRate (q : Site) (o : F64) (s : State) : (ncoGenReal q o s).2.ncoRate = s.ncoRate := rfl
@[simp] theorem ncoGenReal_ncoPhase (q : Site) (o : F64) (s : State) : (ncoGenReal q o s).2.ncoPhase = ncoAdvance q s.ncoPhase s.ncoRate o := rfl
@[simp] theorem ncoGenReal_ntaps (q : Site) (o : F64) (s : State) : (ncoGenReal q o s).2.ntaps = s.ntaps := rfl
@[simp] theorem ncoGenReal_coef (q : Site) (o : F64) (s : State) : (ncoGenReal q o s).2.coef = s.coef := rfl
@[simp] theorem ncoGenReal_taps (q : Site) (o : F64) (s : State) : (ncoGenReal q o s).2.taps = s.taps := rfl
@[simp] theorem ncoGenReal_fad (q : Site) (o : F64) (s : State) : (ncoGenReal q o s).2.fad = s.fad := rfl
@[simp] theorem ncoGenReal_pad (q : Site) (o : F64) (s : State) : (ncoGenReal q o s).2.pad = s.pad := rfl
@[simp] theorem ncoGenReal_dl (q : Site) (o : F64) (s : State) : (ncoGenReal q o s).2.dl = s.dl := rfl
@[simp] theorem ncoGenReal_phaseEstimate (q : Site) (o : F64) (s : State) : (ncoGenReal q o s).2.phaseEstimate = s.phaseEstimate := rfl
@[simp] theorem ncoGenReal_freqEstimate (q : Site) (o : F64) (s : State) : (ncoGenReal q o s).2.freqEstimate = s.freqEstimate := rfl
@[simp] theorem ncoGenReal_sampleCount (q : Site) (o : F64) (s : State) : (ncoGenReal q o s).2.sampleCount = s.sampleCount := rfl
@[simp] theorem ncoGenReal_port (q : Site) (o : F64) (s : State) : (ncoGenReal q o s).2.port = s.port := rfl
@[simp] theorem ncoGenReal_response (q : Site) (o : F64) (s : State) : (ncoGenReal q o s).2.response = s.response := rfl
@[simp] theorem ncoGenReal_freeCount (q : Site) (o : F64) (s : State) : (ncoGenReal q o s).2.freeCount = s.freeCount := rfl

/-! ## firProc -/

@[simp] theorem firProc_mode (q : Site) (x : Cplx) (s : State) : (firProc q x s).2.mode = s.mode := rfl
@[simp] theorem firProc_lock (q : Site) (x : Cplx) (s : State) : (firProc q x s).2.lock = s.lock := rfl
@[simp] theorem firProc_stNf (q : Site) (x : Cplx) (s : State) : (firProc q x s).2.stNf = s.stNf := rfl
@[simp] theorem firProc_stErr (q : Site) (x : Cplx) (s : State) : (firProc q x s).2.stErr = s.stErr := rfl
@[simp] theorem firProc_stLastErr (q : Site) (x : Cplx) (s : State) : (firProc q x s).2.stLastErr = s.stLastErr := rfl
@[simp] theorem firProc_cfgSps (q : Site) (x : Cplx) (s : State) : (firProc q x s).2.cfgSps = s.cfgSps := rfl
@[simp] theorem firProc_cfgRolloff (q : Site) (x : Cplx) (s : State) : (firProc q x s).2.cfgRolloff = s.cfgRolloff := rfl
@[simp] theorem firProc_cfgSpan (q : Site) (x : Cplx) (s : State) : (firProc q x s).2.cfgSpan = s.cfgSpan := rfl
@[simp] theorem firProc_cfgWindow (q : Site) (x : Cplx) (s : State) : (firProc q x s).2.cfgWindow = s.cfgWindow := rfl
@[simp] theorem firProc_cfgFreqThr (q : Site) (x : Cplx) (s : State) : (firProc q x s).2.cfgFreqThr = s.cfgFreqThr := rfl
@[simp] theorem firProc_cfgPhaseThr (q : Site) (x : Cplx) (s : State) : (firProc q x s).2.cfgPhaseThr = s.cfgPhaseThr := rfl
@[simp] theorem firProc_coefSel (q : Site) (x : Cplx) (s : State) : (firProc q x s).2.coefSel = s.coefSel := rfl
@[simp] theorem firProc_ncoRate (q : Site) (x : Cplx) (s : State) : (firProc q x s).2.ncoRate = s.ncoRate := rfl
@[simp] theorem firProc_ncoPhase (q : Site) (x : Cplx) (s : State) : (firProc q x s).2.ncoPhase = s.ncoPhase := rfl
@[simp] theorem firProc_ntaps (q : Site) (x : Cplx) (s : State) : (firProc q x s).2.ntaps = s.ntaps := rfl
@[simp] theorem firProc_coef (q : Site) (x : Cplx) (s : State) : (firProc q x s).2.coef = s.coef := rfl
@[simp] theorem firProc_taps (q : Site) (x : Cplx) (s : State) : (firProc q x s).2.taps = firShift s.ntaps x s.taps := rfl
@[simp] theorem firProc_fad (q : Site) (x : Cplx) (s : State) : (firProc q x s).2.fad = s.fad := rfl
@[simp] theorem firProc_pad (q : Site) (x : Cplx) (s : State) : (firProc q x s).2.pad = s.pad := rfl
@[simp] theorem firProc_dl (q : Site) (x : Cplx) (s : State) : (firProc q x s).2.dl = s.dl := rfl
@[simp] theorem firProc_phaseEstimate (q : Site) (x : Cplx) (s : State) : (firProc q x s).2.phaseEstimate = s.phaseEstimate := rfl
@[simp] theorem firProc_freqEstimate (q : Site) (x : Cplx) (s : State) : (firProc q x s).2.freqEstimate = s.freqEstimate := rfl
@[simp] theorem firProc_sampleCount (q : Site) (x : Cplx) (s : State) : (firProc q x s).2.sampleCount = s.sampleCount := rfl
@[simp] theorem firProc_port (q : Site) (x : Cplx) (s : State) : (firProc q x s).2.port = s.port := rfl
@[simp] theorem firProc_response (q : Site) (x : Cplx) (s : State) : (firProc q x s).2.response = s.response := rfl
@[simp] theorem firProc_freeCount (q : Site) (x : Cplx) (s : State) : (firProc q x s).2.freeCount = s.freeCount := rfl

/-! ## dlProc -/

@[simp] theorem dlProc_mode (x : F64) (s : State) : (dlProc x s).2.mode = s.mode := rfl
@[simp] theorem dlProc_lock (x : F64) (s : State) : (dlProc x s).2.lock = s.lock := rfl
@[simp] theorem dlProc_stNf (x : F64) (s : State) : (dlProc x s).2.stNf = s.stNf := rfl
@[simp] theorem dlProc_stErr (x : F64) (s : State) : (dlProc x s).2.stErr = s.stErr := rfl
@[simp] theorem dlProc_stLastErr (x : F64) (s : State) : (dlProc x s).2.stLastErr = s.stLastErr := rfl
@[simp] theorem dlProc_cfgSps (x : F64) (s : State) : (dlProc x s).2.cfgSps = s.cfgSps := rfl
@[simp] theorem dlProc_cfgRolloff (x : F64) (s : State) : (dlProc x s).2.cfgRolloff = s.cfgRolloff := rfl
@[simp] theorem dlProc_cfgSpan (x : F64) (s : State) : (dlProc x s).2.cfgSpan = s.cfgSpan := rfl
@[simp] theorem dlProc_cfgWindow (x : F64) (s : State) : (dlProc x s).2.cfgWindow = s.cfgWindow := rfl
@[simp] theorem dlProc_cfgFreqThr (x : F64) (s : State) : (dlProc x s).2.cfgFreqThr = s.cfgFreqThr := rfl
@[simp] theorem dlProc_cfgPhaseThr (x : F64) (s : State) : (dlProc x s).2.cfgPhaseThr = s.cfgPhaseThr := rfl
@[simp] theorem dlProc_coefSel (x : F64) (s : State) : (dlProc x s).2.coefSel = s.coefSel := rfl
@[simp] theorem dlProc_ncoRate (x : F64) (s : State) : (dlProc x s).2.ncoRate = s.ncoRate := rfl
@[simp] theorem dlProc_ncoPhase (x : F64) (s : State) : (dlProc x s).2.ncoPhase = s.ncoPhase := rfl
@[simp] theorem dlProc_ntaps (x : F64) (s : State) : (dlProc x s).2.ntaps = s.ntaps := rfl
@[simp] theorem dlProc_coef (x : F64) (s : State) : (dlProc x s).2.coef = s.coef := rfl
@[simp] theorem dlProc_taps (x : F64) (s : State) : (dlProc x s).2.taps = s.taps := rfl
@[simp] theorem dlProc_fad (x : F64) (s : State) : (dlProc x s).2.fad = s.fad := rfl
@[simp] theorem dlProc_pad (x : F64) (s : State) : (dlProc x s).2.pad = s.pad := rfl
@[simp] theorem dlProc_dl (x : F64) (s : State) : (dlProc x s).2.dl = (dlCall Config.delayCount x s.dl).2 := rfl
@[simp] theorem dlProc_phaseEstimate (x : F64) (s : State) : (dlProc x s).2.phaseEstimate = s.phaseEstimate := rfl
@[simp] theorem dlProc_freqEstimate (x : F64) (s : State) : (dlProc x s).2.freqEstimate = s.freqEstimate := rfl
@[simp] theorem dlProc_sampleCount (x : F64) (s : State) : (dlProc x s).2.sampleCount = s.sampleCount := rfl
@[simp] theorem dlProc_port (x : F64) (s : State) : (dlProc x s).2.port = s.port := rfl
@[simp] theorem dlProc_response (x : F64) (s : State) : (dlProc x s).2.response = s.response := rfl
@[simp] theorem dlProc_freeCount (x : F64) (s : State) : (dlProc x s).2.freeCount = s.freeCount := rfl

/-! ## fadProc -/

@[simp] theorem fadProc_mode (q : Site) (x : F64) (s : State) : (fadProc q x s).2.mode = s.mode := rfl
@[simp] theorem fadProc_lock (q : Site) (x : F64) (s : State) : (fadProc q x s).2.lock = s.lock := rfl
@[simp] theorem fadProc_stNf (q : Site) (x : F64) (s : State) : (fadProc q x s).2.stNf = s.stNf := rfl
@[simp] theorem fadProc_stErr (q : Site) (x : F64) (s : State) : (fadProc q x s).2.stErr = s.stErr := rfl
@[simp] theorem fadProc_stLastErr (q : Site) (x : F64) (s : State) : (fadProc q x s).2.stLastErr = s.stLastErr := rfl
@[simp] theorem fadProc_cfgSps (q : Site) (x : F64) (s : State) : (fadProc q x s).2.cfgSps = s.cfgSps := rfl
@[simp] theorem fadProc_cfgRolloff (q : Site) (x : F64) (s : State) : (fadProc q x s).2.cfgRolloff = s.cfgRolloff := rfl
@[simp] theorem fadProc_cfgSpan (q : Site) (x : F64) (s : State) : (fadProc q x s).2.cfgSpan = s.cfgSpan := rfl
@[simp] theorem fadProc_cfgWindow (q : Site) (x : F64) (s : State) : (fadProc q x s).2.cfgWindow = s.cfgWindow := rfl
@[simp] theorem fadProc_cfgFreqThr (q : Site) (x : F64) (s : State) : (fadProc q x s).2.cfgFreqThr = s.cfgFreqThr := rfl
@[simp] theorem fadProc_cfgPhaseThr (q : Site) (x : F64) (s : State) : (fadProc q x s).2.cfgPhaseThr = s.cfgPhaseThr := rfl
@[simp] theorem fadProc_coefSel (q : Site) (x : F64) (s : State) : (fadProc q x s).2.coefSel = s.coefSel := rfl
@[simp] theorem fadProc_ncoRate (q : Site) (x : F64) (s : State) : (fadProc q x s).2.ncoRate = s.ncoRate := rfl
@[simp] theorem fadProc_ncoPhase (q : Site) (x : F64) (s : State) : (fadProc q x s).2.ncoPhase = s.ncoPhase := rfl
@[simp] theorem fadProc_ntaps (q : Site) (x : F64) (s : State) : (fadProc q x s).2.ntaps = s.ntaps := rfl
@[simp] theorem fadProc_coef (q : Site) (x : F64) (s : State) : (fadProc q x s).2.coef = s.coef := rfl
@[simp] theorem fadProc_taps (q : Site) (x : F64) (s : State) : (fadProc q x s).2.taps = s.taps := rfl
@[simp] theorem fadProc_fad (q : Site) (x : F64) (s : State) : (fadProc q x s).2.fad = (adProc q (windowSize s) s.fad x).2 := rfl
@[simp] theorem fadProc_pad (q : Site) (x : F64) (s : State) : (fadProc q x s).2.pad = s.pad := rfl
@[simp] theorem fadProc_dl (q : Site) (x : F64) (s : State) : (fadProc q x s).2.dl = s.dl := rfl
@[simp] theorem fadProc_phaseEstimate (q : Site) (x : F64) (s : State) : (fadProc q x s).2.phaseEstimate = s.phaseEstimate := rfl
@[simp] theorem fadProc_freqEstimate (q : Site) (x : F64) (s : State) : (fadProc q x s).2.freqEstimate = s.freqEstimate := rfl
@[simp] theorem fadProc_sampleCount (q : Site) (x : F64) (s : State) : (fadProc q x s).2.sampleCount = s.sampleCount := rfl
@[simp] theorem fadProc_port (q : Site) (x : F64) (s : State) : (fadProc q x s).2.port = s.port := rfl
@[simp] theorem fadProc_response (q : Site) (x : F64) (s : State) : (fadProc q x s).2.response = s.response := rfl
@[simp] theorem fadProc_freeCount (q : Site) (x : F64) (s : State) : (fadProc q x s).2.freeCount = s.freeCount := rfl

/-! ## padProc -/

@[simp] theorem padProc_mode (q : Site) (x : F64) (s : State) : (padProc q x s).2.mode = s.mode := rfl
@[simp] theorem padProc_lock (q : Site) (x : F64) (s : State) : (padProc q x s).2.lock = s.lock := rfl
@[simp] theorem padProc_stNf (q : Site) (x : F64) (s : State) : (padProc q x s).2.stNf = s.stNf := rfl
@[simp] theorem padProc_stErr (q : Site) (x : F64) (s : State) : (padProc q x s).2.stErr = s.stErr := rfl
@[simp] theorem padProc_stLastErr (q : Site) (x : F64) (s : State) : (padProc q x s).2.stLastErr = s.stLastErr := rfl
@[simp] theorem padProc_cfgSps (q : Site) (x : F64) (s : State) : (padProc q x s).2.cfgSps = s.cfgSps := rfl
@[simp] theorem padProc_cfgRolloff (q : Site) (x : F64) (s : State) : (padProc q x s).2.cfgRolloff = s.cfgRolloff := rfl
@[simp] theorem padProc_cfgSpan (q : Site) (x : F64) (s : State) : (padProc q x s).2.cfgSpan = s.cfgSpan := rfl
@[simp] theorem padProc_cfgWindow (q : Site) (x : F64) (s : State) : (padProc q x s).2.cfgWindow = s.cfgWindow := rfl
@[simp] theorem padProc_cfgFreqThr (q : Site) (x : F64) (s : State) : (padProc q x s).2.cfgFreqThr = s.cfgFreqThr := rfl
@[simp] theorem padProc_cfgPhaseThr (q : Site) (x : F64) (s : State) : (padProc q x s).2.cfgPhaseThr = s.cfgPhaseThr := rfl
@[simp] theorem padProc_coefSel (q : Site) (x : F64) (s : State) : (padProc q x s).2.coefSel = s.coefSel := rfl
@[simp] theorem padProc_ncoRate (q : Site) (x : F64) (s : State) : (padProc q x s).2.ncoRate = s.ncoRate := rfl
@[simp] theorem padProc_ncoPhase (q : Site) (x : F64) (s : State) : (padProc q x s).2.ncoPhase = s.ncoPhase := rfl
@[simp] theorem padProc_ntaps (q : Site) (x : F64) (s : State) : (padProc q x s).2.ntaps = s.ntaps := rfl
@[simp] theorem padProc_coef (q : Site) (x : F64) (s : State) : (padProc q x s).2.coef = s.coef := rfl
@[simp] theorem padProc_taps (q : Site) (x : F64) (s : State) : (padProc q x s).2.taps = s.taps := rfl
@[simp] theorem padProc_fad (q : Site) (x : F64) (s : State) : (padProc q x s).2.fad = s.fad := rfl
@[simp] theorem padProc_pad (q : Site) (x : F64) (s : State) : (padProc q x s).2.pad = (adProc q (windowSize s) s.pad x).2 := rfl
@[simp] theorem padProc_dl (q : Site) (x : F64) (s : State) : (padProc q x s).2.dl = s.dl := rfl
@[simp] theorem padProc_phaseEstimate (q : Site) (x : F64) (s : State) : (padProc q x s).2.phaseEstimate = s.phaseEstimate := rfl
@[simp] theorem padProc_freqEstimate (q : Site) (x : F64) (s : State) : (padProc q x s).2.freqEstimate = s.freqEstimate := rfl
@[simp] theorem padProc_sampleCount (q : Site) (x : F64) (s : State) : (padProc q x s).2.sampleCount = s.sampleCount := rfl
@[simp] theorem padProc_port (q : Site) (x : F64) (s : State) : (padProc q x s).2.port = s.port := rfl
@[simp] theorem padProc_response (q : Site) (x : F64) (s : State) : (padProc q x s).2.response = s.response := rfl
@[simp] theorem padProc_freeCount (q : Site) (x : F64) (s : State) : (padProc q x s).2.freeCount = s.freeCount := rfl

/-! ## updateLoop -/

@[simp] theorem updateLoop_mode (q : Site) (f p : F64) (s : State) : (updateLoop q f p s).mode = s.mode := rfl
@[simp] theorem updateLoop_lock (q : Site) (f p : F64) (s : State) : (updateLoop q f p s).lock = nextLock s.lock f p s.cfgFreqThr s.cfgPhaseThr := rfl
@[simp] theorem updateLoop_stNf (q : Site) (f p : F64) (s : State) : (updateLoop q f p s).stNf = s.stNf := rfl
@[simp] theorem updateLoop_stErr (q : Site) (f p : F64) (s : State) : (updateLoop q f p s).stErr = s.stErr := rfl
@[simp] theorem updateLoop_stLastErr (q : Site) (f p : F64) (s : State) : (updateLoop q f p s).stLastErr = s.stLastErr := rfl
@[simp] theorem updateLoop_cfgSps (q : Site) (f p : F64) (s : State) : (updateLoop q f p s).cfgSps = s.cfgSps := rfl
@[simp] theorem updateLoop_cfgRolloff (q : Site) (f p : F64) (s : State) : (updateLoop q f p s).cfgRolloff = s.cfgRolloff := rfl
@[simp] theorem updateLoop_cfgSpan (q : Site) (f p : F64) (s : State) : (updateLoop q f p s).cfgSpan = s.cfgSpan := rfl
@[simp] theorem updateLoop_cfgWindow (q : Site) (f p : F64) (s : State) : (updateLoop q f p s).cfgWindow = s.cfgWindow := rfl
@[simp] theorem updateLoop_cfgFreqThr (q : Site) (f p : F64) (s : State) : (updateLoop q f p s).cfgFreqThr = s.cfgFreqThr := rfl
@[simp] theorem updateLoop_cfgPhaseThr (q : Site) (f p : F64) (s : State) : (updateLoop q f p s).cfgPhaseThr = s.cfgPhaseThr := rfl
@[simp] theorem updateLoop_coefSel (q : Site) (f p : F64) (s : State) : (updateLoop q f p s).coefSel = s.coefSel := rfl
@[simp] theorem updateLoop_ncoRate (q : Site) (f p : F64) (s : State) : (updateLoop q f p s).ncoRate = s.ncoRate := rfl
@[simp] theorem updateLoop_ncoPhase (q : Site) (f p : F64) (s : State) : (updateLoop q f p s).ncoPhase = s.ncoPhase := rfl
@[simp] theorem updateLoop_ntaps (q : Site) (f p : F64) (s : State) : (updateLoop q f p s).ntaps = s.ntaps := rfl
@[simp] theorem updateLoop_coef (q : Site) (f p : F64) (s : State) : (updateLoop q f p s).coef = s.coef := rfl
@[simp] theorem updateLoop_taps (q : Site) (f p : F64) (s : State) : (updateLoop q f p s).taps = s.taps := rfl
@[simp] theorem updateLoop_fad (q : Site) (f p : F64) (s : State) : (updateLoop q f p s).fad = s.fad := rfl
@[simp] theorem updateLoop_pad (q : Site) (f p : F64) (s : State) : (updateLoop q f p s).pad = s.pad := rfl
@[simp] theorem updateLoop_dl (q : Site) (f p : F64) (s : State) : (updateLoop q f p s).dl = s.dl := rfl
@[simp] theorem updateLoop_phaseEstimate (q : Site) (f p : F64) (s : State) : (updateLoop q f p s).phaseEstimate = nextPhaseEstimate (0 :: q) s.lock p := rfl
@[simp] theorem updateLoop_freqEstimate (q : Site) (f p : F64) (s : State) : (updateLoop q f p s).freqEstimate = nextFreqEstimate (1 :: q) s.lock f s.freqEstimate := rfl
@[simp] theorem updateLoop_sampleCount (q : Site) (f p : F64) (s : State) : (updateLoop q f p s).sampleCount = s.sampleCount := rfl
@[simp] theorem updateLoop_port (q : Site) (f p : F64) (s : State) : (updateLoop q f p s).port = s.port := rfl
@[simp] theorem updateLoop_response (q : Site) (f p : F64) (s : State) : (updateLoop q f p s).response = s.response := rfl
@[simp] theorem updateLoop_freeCount (q : Site) (f p : F64) (s : State) : (updateLoop q f p s).freeCount = s.freeCount := rfl

/-! ## countSample -/

@[simp] theorem countSample_mode (s : State) : (countSample s).mode = s.mode := rfl
@[simp] theorem countSample_lock (s : State) : (countSample s).lock = s.lock := rfl
@[simp] theorem countSample_stNf (s : State) : (countSample s).stNf = s.stNf := rfl
@[simp] theorem countSample_stErr (s : State) : (countSample s).stErr = s.stErr := rfl
@[simp] theorem countSample_stLastErr (s : State) : (countSample s).stLastErr = s.stLastErr := rfl
@[simp] theorem countSample_cfgSps (s : State) : (countSample s).cfgSps = s.cfgSps := rfl
@[simp] theorem countSample_cfgRolloff (s : State) : (countSample s).cfgRolloff = s.cfgRolloff := rfl
@[simp] theorem countSample_cfgSpan (s : State) : (countSample s).cfgSpan = s.cfgSpan := rfl
@[simp] theorem countSample_cfgWindow (s : State) : (countSample s).cfgWindow = s.cfgWindow := rfl
@[simp] theorem countSample_cfgFreqThr (s : State) : (countSample s).cfgFreqThr = s.cfgFreqThr := rfl
@[simp] theorem countSample_cfgPhaseThr (s : State) : (countSample s).cfgPhaseThr = s.cfgPhaseThr := rfl
@[simp] theorem countSample_coefSel (s : State) : (countSample s).coefSel = s.coefSel := rfl
@[simp] theorem countSample_ncoRate (s : State) : (countSample s).ncoRate = s.ncoRate := rfl
@[simp] theorem countSample_ncoPhase (s : State) : (countSample s).ncoPhase = s.ncoPhase := rfl
@[simp] theorem countSample_ntaps (s : State) : (countSample s).ntaps = s.ntaps := rfl
@[simp] theorem countSample_coef (s : State) : (countSample s).coef = s.coef := rfl
@[simp] theorem countSample_taps (s : State) : (countSample s).taps = s.taps := rfl
@[simp] theorem countSample_fad (s : State) : (countSample s).fad = s.fad := rfl
@[simp] theorem countSample_pad (s : State) : (countSample s).pad = s.pad := rfl
@[simp] theorem countSample_dl (s : State) : (countSample s).dl = s.dl := rfl
@[simp] theorem countSample_phaseEstimate (s : State) : (countSample s).phaseEstimate = s.phaseEstimate := rfl
@[simp] theorem countSample_freqEstimate (s : State) : (countSample s).freqEstimate = s.freqEstimate := rfl
@[simp] theorem countSample_sampleCount (s : State) : (countSample s).sampleCount = s.sampleCount + 1 := rfl
@[simp] theorem countSample_port (s : State) : (countSample s).port = s.port := rfl
@[simp] theorem countSample_response (s : State) : (countSample s).response = s.response := rfl
@[simp] theorem countSample_freeCount (s : State) : (countSample s).freeCount = s.freeCount := rfl

/-! ## recordNonFinite -/

@[simp] theorem recordNonFinite_mode (n : Cplx) (s : State) : (recordNonFinite n s).mode = s.mode := rfl
@[simp] theorem recordNonFinite_lock (n : Cplx) (s : State) : (recordNonFinite n s).lock = s.lock := rfl
@[simp] theorem recordNonFinite_stNf (n : Cplx) (s : State) : (recordNonFinite n s).stNf = (s.stNf || !allFinite n s) := rfl
@[simp] theorem recordNonFinite_stErr (n : Cplx) (s : State) : (recordNonFinite n s).stErr = s.stErr := rfl
@[simp] theorem recordNonFinite_stLastErr (n : Cplx) (s : State) : (recordNonFinite n s).stLastErr = s.stLastErr := rfl
@[simp] theorem recordNonFinite_cfgSps (n : Cplx) (s : State) : (recordNonFinite n s).cfgSps = s.cfgSps := rfl
@[simp] theorem recordNonFinite_cfgRolloff (n : Cplx) (s : State) : (recordNonFinite n s).cfgRolloff = s.cfgRolloff := rfl
@[simp] theorem recordNonFinite_cfgSpan (n : Cplx) (s : State) : (recordNonFinite n s).cfgSpan = s.cfgSpan := rfl
@[simp] theorem recordNonFinite_cfgWindow (n : Cplx) (s : State) : (recordNonFinite n s).cfgWindow = s.cfgWindow := rfl
@[simp] theorem recordNonFinite_cfgFreqThr (n : Cplx) (s : State) : (recordNonFinite n s).cfgFreqThr = s.cfgFreqThr := rfl
@[simp] theorem recordNonFinite_cfgPhaseThr (n : Cplx) (s : State) : (recordNonFinite n s).cfgPhaseThr = s.cfgPhaseThr := rfl
@[simp] theorem recordNonFinite_coefSel (n : Cplx) (s : State) : (recordNonFinite n s).coefSel = s.coefSel := rfl
@[simp] theorem recordNonFinite_ncoRate (n : Cplx) (s : State) : (recordNonFinite n s).ncoRate = s.ncoRate := rfl
@[simp] theorem recordNonFinite_ncoPhase (n : Cplx) (s : State) : (recordNonFinite n s).ncoPhase = s.ncoPhase := rfl
@[simp] theorem recordNonFinite_ntaps (n : Cplx) (s : State) : (recordNonFinite n s).ntaps = s.ntaps := rfl
@[simp] theorem recordNonFinite_coef (n : Cplx) (s : State) : (recordNonFinite n s).coef = s.coef := rfl
@[simp] theorem recordNonFinite_taps (n : Cplx) (s : State) : (recordNonFinite n s).taps = s.taps := rfl
@[simp] theorem recordNonFinite_fad (n : Cplx) (s : State) : (recordNonFinite n s).fad = s.fad := rfl
@[simp] theorem recordNonFinite_pad (n : Cplx) (s : State) : (recordNonFinite n s).pad = s.pad := rfl
@[simp] theorem recordNonFinite_dl (n : Cplx) (s : State) : (recordNonFinite n s).dl = s.dl := rfl
@[simp] theorem recordNonFinite_phaseEstimate (n : Cplx) (s : State) : (recordNonFinite n s).phaseEstimate = s.phaseEstimate := rfl
@[simp] theorem recordNonFinite_freqEstimate (n : Cplx) (s : State) : (recordNonFinite n s).freqEstimate = s.freqEstimate := rfl
@[simp] theorem recordNonFinite_sampleCount (n : Cplx) (s : State) : (recordNonFinite n s).sampleCount = s.sampleCount := rfl
@[simp] theorem recordNonFinite_port (n : Cplx) (s : State) : (recordNonFinite n s).port = s.port := rfl
@[simp] theorem recordNonFinite_response (n : Cplx) (s : State) : (recordNonFinite n s).response = s.response := rfl
@[simp] theorem recordNonFinite_freeCount (n : Cplx) (s : State) : (recordNonFinite n s).freeCount = s.freeCount := rfl

/-! ## writeReg -/

@[simp] theorem writeReg_sps (v : Word) (s : State) : writeReg .sps v s = { s with cfgSps := v } := rfl
@[simp] theorem writeReg_rolloff (v : Word) (s : State) : writeReg .rolloff v s = { s with cfgRolloff := v } := rfl
@[simp] theorem writeReg_span (v : Word) (s : State) : writeReg .span v s = { s with cfgSpan := v } := rfl
@[simp] theorem writeReg_window (v : Word) (s : State) : writeReg .window v s = { s with cfgWindow := v } := rfl
@[simp] theorem writeReg_freqThr (v : Word) (s : State) : writeReg .freqThr v s = { s with cfgFreqThr := v } := rfl
@[simp] theorem writeReg_phaseThr (v : Word) (s : State) : writeReg .phaseThr v s = { s with cfgPhaseThr := v } := rfl
@[simp] theorem writeReg_coefSel (v : Word) (s : State) : writeReg .coefSel v s = { s with coefSel := v } := rfl

@[simp] theorem writeReg_mode (r : RegName) (v : Word) (s : State) : (writeReg r v s).mode = s.mode := by cases r <;> rfl
@[simp] theorem writeReg_lock (r : RegName) (v : Word) (s : State) : (writeReg r v s).lock = s.lock := by cases r <;> rfl
@[simp] theorem writeReg_stNf (r : RegName) (v : Word) (s : State) : (writeReg r v s).stNf = s.stNf := by cases r <;> rfl
@[simp] theorem writeReg_stErr (r : RegName) (v : Word) (s : State) : (writeReg r v s).stErr = s.stErr := by cases r <;> rfl
@[simp] theorem writeReg_stLastErr (r : RegName) (v : Word) (s : State) : (writeReg r v s).stLastErr = s.stLastErr := by cases r <;> rfl
@[simp] theorem writeReg_ncoRate (r : RegName) (v : Word) (s : State) : (writeReg r v s).ncoRate = s.ncoRate := by cases r <;> rfl
@[simp] theorem writeReg_ncoPhase (r : RegName) (v : Word) (s : State) : (writeReg r v s).ncoPhase = s.ncoPhase := by cases r <;> rfl
@[simp] theorem writeReg_ntaps (r : RegName) (v : Word) (s : State) : (writeReg r v s).ntaps = s.ntaps := by cases r <;> rfl
@[simp] theorem writeReg_coef (r : RegName) (v : Word) (s : State) : (writeReg r v s).coef = s.coef := by cases r <;> rfl
@[simp] theorem writeReg_taps (r : RegName) (v : Word) (s : State) : (writeReg r v s).taps = s.taps := by cases r <;> rfl
@[simp] theorem writeReg_fad (r : RegName) (v : Word) (s : State) : (writeReg r v s).fad = s.fad := by cases r <;> rfl
@[simp] theorem writeReg_pad (r : RegName) (v : Word) (s : State) : (writeReg r v s).pad = s.pad := by cases r <;> rfl
@[simp] theorem writeReg_dl (r : RegName) (v : Word) (s : State) : (writeReg r v s).dl = s.dl := by cases r <;> rfl
@[simp] theorem writeReg_phaseEstimate (r : RegName) (v : Word) (s : State) : (writeReg r v s).phaseEstimate = s.phaseEstimate := by cases r <;> rfl
@[simp] theorem writeReg_freqEstimate (r : RegName) (v : Word) (s : State) : (writeReg r v s).freqEstimate = s.freqEstimate := by cases r <;> rfl
@[simp] theorem writeReg_sampleCount (r : RegName) (v : Word) (s : State) : (writeReg r v s).sampleCount = s.sampleCount := by cases r <;> rfl
@[simp] theorem writeReg_port (r : RegName) (v : Word) (s : State) : (writeReg r v s).port = s.port := by cases r <;> rfl
@[simp] theorem writeReg_response (r : RegName) (v : Word) (s : State) : (writeReg r v s).response = s.response := by cases r <;> rfl
@[simp] theorem writeReg_freeCount (r : RegName) (v : Word) (s : State) : (writeReg r v s).freeCount = s.freeCount := by cases r <;> rfl

@[simp] theorem writeAddr_mode (a : RegAddr) (v : Word) (s : State) : (writeAddr a v s).mode = s.mode := by
  unfold writeAddr; cases regOfAddr a <;> simp
@[simp] theorem writeAddr_lock (a : RegAddr) (v : Word) (s : State) : (writeAddr a v s).lock = s.lock := by
  unfold writeAddr; cases regOfAddr a <;> simp
@[simp] theorem writeAddr_stNf (a : RegAddr) (v : Word) (s : State) : (writeAddr a v s).stNf = s.stNf := by
  unfold writeAddr; cases regOfAddr a <;> simp
@[simp] theorem writeAddr_stErr (a : RegAddr) (v : Word) (s : State) : (writeAddr a v s).stErr = s.stErr := by
  unfold writeAddr; cases regOfAddr a <;> simp
@[simp] theorem writeAddr_stLastErr (a : RegAddr) (v : Word) (s : State) : (writeAddr a v s).stLastErr = s.stLastErr := by
  unfold writeAddr; cases regOfAddr a <;> simp
@[simp] theorem writeAddr_ncoRate (a : RegAddr) (v : Word) (s : State) : (writeAddr a v s).ncoRate = s.ncoRate := by
  unfold writeAddr; cases regOfAddr a <;> simp
@[simp] theorem writeAddr_ncoPhase (a : RegAddr) (v : Word) (s : State) : (writeAddr a v s).ncoPhase = s.ncoPhase := by
  unfold writeAddr; cases regOfAddr a <;> simp
@[simp] theorem writeAddr_ntaps (a : RegAddr) (v : Word) (s : State) : (writeAddr a v s).ntaps = s.ntaps := by
  unfold writeAddr; cases regOfAddr a <;> simp
@[simp] theorem writeAddr_coef (a : RegAddr) (v : Word) (s : State) : (writeAddr a v s).coef = s.coef := by
  unfold writeAddr; cases regOfAddr a <;> simp
@[simp] theorem writeAddr_taps (a : RegAddr) (v : Word) (s : State) : (writeAddr a v s).taps = s.taps := by
  unfold writeAddr; cases regOfAddr a <;> simp
@[simp] theorem writeAddr_fad (a : RegAddr) (v : Word) (s : State) : (writeAddr a v s).fad = s.fad := by
  unfold writeAddr; cases regOfAddr a <;> simp
@[simp] theorem writeAddr_pad (a : RegAddr) (v : Word) (s : State) : (writeAddr a v s).pad = s.pad := by
  unfold writeAddr; cases regOfAddr a <;> simp
@[simp] theorem writeAddr_dl (a : RegAddr) (v : Word) (s : State) : (writeAddr a v s).dl = s.dl := by
  unfold writeAddr; cases regOfAddr a <;> simp
@[simp] theorem writeAddr_phaseEstimate (a : RegAddr) (v : Word) (s : State) : (writeAddr a v s).phaseEstimate = s.phaseEstimate := by
  unfold writeAddr; cases regOfAddr a <;> simp
@[simp] theorem writeAddr_freqEstimate (a : RegAddr) (v : Word) (s : State) : (writeAddr a v s).freqEstimate = s.freqEstimate := by
  unfold writeAddr; cases regOfAddr a <;> simp
@[simp] theorem writeAddr_sampleCount (a : RegAddr) (v : Word) (s : State) : (writeAddr a v s).sampleCount = s.sampleCount := by
  unfold writeAddr; cases regOfAddr a <;> simp
@[simp] theorem writeAddr_port (a : RegAddr) (v : Word) (s : State) : (writeAddr a v s).port = s.port := by
  unfold writeAddr; cases regOfAddr a <;> simp
@[simp] theorem writeAddr_response (a : RegAddr) (v : Word) (s : State) : (writeAddr a v s).response = s.response := by
  unfold writeAddr; cases regOfAddr a <;> simp
@[simp] theorem writeAddr_freeCount (a : RegAddr) (v : Word) (s : State) : (writeAddr a v s).freeCount = s.freeCount := by
  unfold writeAddr; cases regOfAddr a <;> simp

/-! ## windowSize of updated states -/

@[simp] theorem windowSize_ncoSetRate (v : F64) (s : State) : windowSize (ncoSetRate v s) = windowSize s := by simp [windowSize]
@[simp] theorem windowSize_ncoGen (q : Site) (o : F64) (s : State) : windowSize (ncoGen q o s).2 = windowSize s := by simp [windowSize]
@[simp] theorem windowSize_firProc (q : Site) (x : Cplx) (s : State) : windowSize (firProc q x s).2 = windowSize s := by simp [windowSize]
@[simp] theorem windowSize_dlProc (x : F64) (s : State) : windowSize (dlProc x s).2 = windowSize s := by simp [windowSize]
@[simp] theorem windowSize_fadProc (q : Site) (x : F64) (s : State) : windowSize (fadProc q x s).2 = windowSize s := by simp [windowSize]
@[simp] theorem windowSize_padProc (q : Site) (x : F64) (s : State) : windowSize (padProc q x s).2 = windowSize s := by simp [windowSize]
@[simp] theorem windowSize_updateLoop (q : Site) (f p : F64) (s : State) : windowSize (updateLoop q f p s) = windowSize s := by simp [windowSize]
@[simp] theorem windowSize_countSample (s : State) : windowSize (countSample s) = windowSize s := by simp [windowSize]
@[simp] theorem windowSize_recordNonFinite (n : Cplx) (s : State) : windowSize (recordNonFinite n s) = windowSize s := by simp [windowSize]

/-! ## The results of the sub-blocks -/

@[simp] theorem ncoGen_out (q : Site) (o : F64) (s : State) : (ncoGen q o s).1 = ncoOut s.ncoPhase := rfl
@[simp] theorem firProc_out (q : Site) (x : Cplx) (s : State) :
    (firProc q x s).1 = firSum q s.ntaps s.coef (firShift s.ntaps x s.taps) := rfl
@[simp] theorem dlProc_out (x : F64) (s : State) : (dlProc x s).1 = (dlCall Config.delayCount x s.dl).1 := rfl
@[simp] theorem fadProc_out (q : Site) (x : F64) (s : State) :
    (fadProc q x s).1 = (adProc q (windowSize s) s.fad x).1 := rfl
@[simp] theorem padProc_out (q : Site) (x : F64) (s : State) :
    (padProc q x s).1 = (adProc q (windowSize s) s.pad x).1 := rfl

/-! ## demodStep -/

@[simp] theorem demodStep_mode (x : Cplx) (s : State) : (demodStep x s).2.mode = s.mode := by simp [demodStep]
@[simp] theorem demodStep_stErr (x : Cplx) (s : State) : (demodStep x s).2.stErr = s.stErr := by simp [demodStep]
@[simp] theorem demodStep_stLastErr (x : Cplx) (s : State) : (demodStep x s).2.stLastErr = s.stLastErr := by simp [demodStep]
@[simp] theorem demodStep_cfgSps (x : Cplx) (s : State) : (demodStep x s).2.cfgSps = s.cfgSps := by simp [demodStep]
@[simp] theorem demodStep_cfgRolloff (x : Cplx) (s : State) : (demodStep x s).2.cfgRolloff = s.cfgRolloff := by simp [demodStep]
@[simp] theorem demodStep_cfgSpan (x : Cplx) (s : State) : (demodStep x s).2.cfgSpan = s.cfgSpan := by simp [demodStep]
@[simp] theorem demodStep_cfgWindow (x : Cplx) (s : State) : (demodStep x s).2.cfgWindow = s.cfgWindow := by simp [demodStep]
@[simp] theorem demodStep_cfgFreqThr (x : Cplx) (s : State) : (demodStep x s).2.cfgFreqThr = s.cfgFreqThr := by simp [demodStep]
@[simp] theorem demodStep_cfgPhaseThr (x : Cplx) (s : State) : (demodStep x s).2.cfgPhaseThr = s.cfgPhaseThr := by simp [demodStep]
@[simp] theorem demodStep_coefSel (x : Cplx) (s : State) : (demodStep x s).2.coefSel = s.coefSel := by simp [demodStep]
@[simp] theorem demodStep_ntaps (x : Cplx) (s : State) : (demodStep x s).2.ntaps = s.ntaps := by simp [demodStep]
@[simp] theorem demodStep_coef (x : Cplx) (s : State) : (demodStep x s).2.coef = s.coef := by simp [demodStep]
@[simp] theorem demodStep_port (x : Cplx) (s : State) : (demodStep x s).2.port = s.port := by simp [demodStep]
@[simp] theorem demodStep_response (x : Cplx) (s : State) : (demodStep x s).2.response = s.response := by simp [demodStep]
@[simp] theorem demodStep_ncoRate (x : Cplx) (s : State) : (demodStep x s).2.ncoRate = s.freqEstimate := by
  simp [demodStep]
@[simp] theorem demodStep_sampleCount (x : Cplx) (s : State) : (demodStep x s).2.sampleCount = s.sampleCount + 1 := by
  simp [demodStep]
@[simp] theorem demodStep_freeCount (x : Cplx) (s : State) : (demodStep x s).2.freeCount = s.freeCount + 1 := rfl

theorem demodStep_ncoPhase (x : Cplx) (s : State) :
    (demodStep x s).2.ncoPhase = ncoAdvance [0, s.freeCount] s.ncoPhase s.freqEstimate s.phaseEstimate := by
  simp [demodStep]

theorem demodStep_taps (x : Cplx) (s : State) :
    (demodStep x s).2.taps = firShift s.ntaps (cmul [1, s.freeCount] (ncoOut s.ncoPhase) x) s.taps := by
  simp [demodStep]

theorem demodStep_out (x : Cplx) (s : State) :
    (demodStep x s).1 = firSum [2, s.freeCount] s.ntaps s.coef (demodStep x s).2.taps := by
  simp [demodStep]

theorem demodStep_dl (x : Cplx) (s : State) :
    (demodStep x s).2.dl = (dlCall Config.delayCount (pdDetect [3, s.freeCount] (demodStep x s).1) s.dl).2 := by
  simp [demodStep]

theorem demodStep_fad (x : Cplx) (s : State) :
    (demodStep x s).2.fad = (adProc [5, s.freeCount] (windowSize s) s.fad
      (fsub [4, s.freeCount] (pdDetect [3, s.freeCount] (demodStep x s).1)
        (dlCall Config.delayCount (pdDetect [3, s.freeCount] (demodStep x s).1) s.dl).1)).2 := by
  simp [demodStep]

theorem demodStep_pad (x : Cplx) (s : State) :
    (demodStep x s).2.pad =
      (adProc [7, s.freeCount] (windowSize s) s.pad (pdDetect [3, s.freeCount] (demodStep x s).1)).2 := by
  simp [demodStep]

end Sys2Proof.Machine
end

