-- ==== Sys2Proof/Laws/Demod.lean ====
section
/-! SUPPORT. What the per-sample step does, said once: its output and its state in the terms of Sys2Proof/Safety.lean. -/

namespace Sys2Proof.Machine

/-! ## The written-out values are the sub-blocks' -/

theorem wideband_eq (x : Cplx) (s : State) : wideband x s = cmul [1, s.freeCount] (ncoOut s.ncoPhase) x := rfl

theorem phaseAfter_eq (s : State) :
    phaseAfter s = ncoAdvance [0, s.freeCount] s.ncoPhase s.freqEstimate s.phaseEstimate := by rw [ncoAdvance]; rfl

theorem tapsAfter_eq (x : Cplx) (s : State) : tapsAfter x s = firShift s.ntaps (wideband x s) s.taps := rfl

theorem narrowband_eq (x : Cplx) (s : State) :
    narrowband x s = firSum [2, s.freeCount] s.ntaps s.coef (tapsAfter x s) := rfl

theorem phaseError_eq (x : Cplx) (s : State) : phaseError x s = pdDetect [3, s.freeCount] (narrowband x s) := by
  rw [pdDetect]; rfl

/-! ## The step -/

theorem demodStep_fst (x : Cplx) (s : State) : (demodStep x s).1 = narrowband x s := by
  simp [demodStep, narrowband_eq, tapsAfter_eq, wideband_eq]

theorem pdDetect_demodStep (x : Cplx) (s : State) :
    pdDetect [3, s.freeCount] (demodStep x s).1 = phaseError x s := by rw [demodStep_fst, phaseError_eq]

theorem demodStep_avgs (x : Cplx) (s : State) :
    ∃ t : State, t.lock = s.lock ∧ t.freqEstimate = s.freqEstimate ∧ t.cfgFreqThr = s.cfgFreqThr ∧
      t.cfgPhaseThr = s.cfgPhaseThr ∧ t.ncoPhase = phaseAfter s ∧ t.stNf = s.stNf ∧
      (demodStep x s).2 = { recordNonFinite (narrowband x s)
        (countSample (updateLoop [9, s.freeCount] (avgFreqErr x s) (avgPhaseErr x s) t)) with
          freeCount := s.freeCount + 1 } := by
  refine ⟨(padProc [7, s.freeCount] (phaseError x s) (fadProc [5, s.freeCount] (freqErrorSample x s)
    (dlProc (phaseError x s) (firProc [2, s.freeCount] (wideband x s)
      (ncoGen [0, s.freeCount] s.phaseEstimate (ncoSetRate s.freqEstimate s)).2).2).2).2).2, ?_⟩
  simp [demodStep, phaseAfter_eq, wideband_eq, phaseError_eq, narrowband_eq, tapsAfter_eq, freqErrorSample, delayed,
    avgFreqErr, avgPhaseErr, freqDump, phaseDump, windowMean]

theorem demodStep_phaseEstimate (x : Cplx) (s : State) : (demodStep x s).2.phaseEstimate = phaseEstAfter x s := by
  obtain ⟨t, hl, -, -, -, -, -, h⟩ := demodStep_avgs x s
  rw [h]; simp only [recordNonFinite_phaseEstimate, countSample_phaseEstimate, updateLoop_phaseEstimate, hl]; rfl

theorem demodStep_freqEstimate (x : Cplx) (s : State) : (demodStep x s).2.freqEstimate = freqEstAfter x s := by
  obtain ⟨t, hl, hf, -, -, -, -, h⟩ := demodStep_avgs x s
  rw [h]; simp only [recordNonFinite_freqEstimate, countSample_freqEstimate, updateLoop_freqEstimate, hl, hf]; rfl

theorem demodStep_lock (x : Cplx) (s : State) : (demodStep x s).2.lock = lockAfter x s := by
  obtain ⟨t, hl, -, h1, h2, -, -, h⟩ := demodStep_avgs x s
  rw [h]; simp only [recordNonFinite_lock, countSample_lock, updateLoop_lock, hl, h1, h2]; rfl

theorem demodStep_stNf (x : Cplx) (s : State) : (demodStep x s).2.stNf = (s.stNf || !stepFinite x s) := by
  obtain ⟨t, hl, hf, -, -, hp, hn, h⟩ := demodStep_avgs x s
  rw [h]
  simp only [recordNonFinite_stNf, countSample_stNf, updateLoop_stNf, hn, allFinite, countSample_ncoPhase,
    updateLoop_ncoPhase, hp, countSample_freqEstimate, updateLoop_freqEstimate, countSample_phaseEstimate,
    updateLoop_phaseEstimate, hl, hf]
  rfl

theorem demodStep_snd (x : Cplx) (s : State) : (demodStep x s).2 = stepState x s := by
  ext1 <;> simp only [stepState, demodStep_mode, demodStep_lock, demodStep_stNf, demodStep_stErr, demodStep_stLastErr,
    demodStep_cfgSps, demodStep_cfgRolloff, demodStep_cfgSpan, demodStep_cfgWindow, demodStep_cfgFreqThr,
    demodStep_cfgPhaseThr, demodStep_coefSel, demodStep_ncoRate, demodStep_ncoPhase, demodStep_ntaps, demodStep_coef,
    demodStep_taps, demodStep_fad, demodStep_pad, demodStep_dl, demodStep_phaseEstimate, demodStep_freqEstimate,
    demodStep_sampleCount, demodStep_port, demodStep_response, demodStep_freeCount, pdDetect_demodStep]
  all_goals first
    | rfl
    | exact (phaseAfter_eq s).symm

end Sys2Proof.Machine
end

