-- ==== Sys2Proof/Laws/Fp.lean ====
section
/-! SUPPORT. The small lemmas of the binary64 operations: fields, classes, exactness of rounding on representable values, and
that a site shows only in a NaN. -/

namespace Sys2Proof.Machine

/-! ## Fields -/

theorem fmag_lt (x : F64) : fmag x < 2 ^ 63 := Nat.mod_lt _ (by decide)

theorem fsign_eq (x : F64) : fsign x = decide (2 ^ 63 ≤ x.toNat) := by
  unfold fsign
  rw [BitVec.getLsbD, Nat.testBit_eq_decide_div_mod_eq, decide_eq_decide]
  have := x.isLt
  omega

theorem toNat_eq (x : F64) : x.toNat = fmag x + (if fsign x then 2 ^ 63 else 0) := by
  rw [fsign_eq]; unfold fmag
  have := x.isLt
  simp only [decide_eq_true_eq]
  split_ifs <;> omega

theorem fpack_toNat (b : Bool) (m : Nat) : (fpack b m).toNat = m % 2 ^ 63 + (if b then 2 ^ 63 else 0) := by
  unfold fpack
  rw [BitVec.toNat_ofNat]
  apply Nat.mod_eq_of_lt
  have := Nat.mod_lt m (show 2 ^ 63 > 0 by decide)
  cases b <;> simp <;> omega

@[simp] theorem fmag_fpack (b : Bool) (m : Nat) : fmag (fpack b m) = m % 2 ^ 63 := by
  unfold fmag; rw [fpack_toNat]; cases b <;> simp

@[simp] theorem fsign_fpack (b : Bool) (m : Nat) : fsign (fpack b m) = b := by
  rw [fsign_eq, fpack_toNat]
  have := Nat.mod_lt m (show 2 ^ 63 > 0 by decide)
  cases b <;> simp
  omega

/-- Two words with the same sign bit and the same bits 62:0 are equal. -/
theorem f64_ext {x y : F64} (hs : fsign x = fsign y) (hm : fmag x = fmag y) : x = y := by
  apply BitVec.eq_of_toNat_eq; rw [toNat_eq x, toNat_eq y, hs, hm]

theorem fpack_eta (x : F64) : fpack (fsign x) (fmag x) = x :=
  f64_ext (by simp) (by rw [fmag_fpack]; exact Nat.mod_eq_of_lt (fmag_lt x))

/-! ## Sign primitives -/

theorem fneg_eq (x : F64) : fneg x = fpack (!fsign x) (fmag x) := by
  have h : (fneg x).toNat = x.toNat ^^^ 2 ^ 63 := by simp [fneg, BitVec.toNat_xor]
  apply BitVec.eq_of_toNat_eq
  rw [h, fpack_toNat, Nat.mod_eq_of_lt (fmag_lt x)]
  have hx := toNat_eq x
  have hm := fmag_lt x
  have key : ∀ m : Nat, m < 2 ^ 63 → (m + 2 ^ 63) ^^^ 2 ^ 63 = m ∧ m ^^^ 2 ^ 63 = m + 2 ^ 63 := by
    intro m hm'
    have e : m + 2 ^ 63 = m ^^^ 2 ^ 63 := by
      have h1 : (m ^^^ 2 ^ 63) % 2 ^ 63 = m := by
        rw [Nat.xor_mod_two_pow, Nat.mod_self, Nat.xor_zero, Nat.mod_eq_of_lt hm']
      have h2 : (m ^^^ 2 ^ 63) / 2 ^ 63 = 1 := by
        rw [Nat.xor_div_two_pow, Nat.div_eq_of_lt hm', Nat.div_self (by decide)]; rfl
      omega
    refine ⟨?_, e.symm⟩
    rw [e, Nat.xor_assoc, Nat.xor_self, Nat.xor_zero]
  cases hs : fsign x <;> simp only [hs] at hx <;> rw [hx]
  · simpa using (key _ hm).2
  · simpa using (key _ hm).1

@[simp] theorem fsign_fneg (x : F64) : fsign (fneg x) = !fsign x := by rw [fneg_eq]; simp

@[simp] theorem fmag_fneg (x : F64) : fmag (fneg x) = fmag x := by
  rw [fneg_eq, fmag_fpack]; exact Nat.mod_eq_of_lt (fmag_lt x)

@[simp] theorem fneg_fneg (x : F64) : fneg (fneg x) = x := f64_ext (by simp) (by simp)

@[simp] theorem fmag_fabs (x : F64) : fmag (fabs x) = fmag x := by
  unfold fmag fabs
  rw [BitVec.toNat_and, show (0x7FFFFFFFFFFFFFFF : BitVec 64).toNat = 2 ^ 63 - 1 from by decide,
    Nat.and_two_pow_sub_one_eq_mod, Nat.mod_mod]

@[simp] theorem fsign_fabs (x : F64) : fsign (fabs x) = false := by
  rw [fsign_eq]
  unfold fabs
  rw [BitVec.toNat_and, show (0x7FFFFFFFFFFFFFFF : BitVec 64).toNat = 2 ^ 63 - 1 from by decide,
    Nat.and_two_pow_sub_one_eq_mod]
  have := Nat.mod_lt x.toNat (show 2 ^ 63 > 0 by decide)
  simp; omega

theorem fabs_of_pos {x : F64} (h : fsign x = false) : fabs x = x := f64_ext (by simp [h]) (by simp)

theorem fabs_of_neg {x : F64} (h : fsign x = true) : fabs x = fneg x := f64_ext (by simp [h]) (by simp)

@[simp] theorem fabs_fneg (x : F64) : fabs (fneg x) = fabs x := f64_ext (by simp) (by simp)

@[simp] theorem isNaN_fneg (x : F64) : isNaN (fneg x) = isNaN x := by simp [isNaN]
@[simp] theorem isInf_fneg (x : F64) : isInf (fneg x) = isInf x := by simp [isInf]
@[simp] theorem isFinite_fneg (x : F64) : isFinite (fneg x) = isFinite x := by simp [isFinite]
@[simp] theorem isZero_fneg (x : F64) : isZero (fneg x) = isZero x := by simp [isZero]
@[simp] theorem isNaN_fabs (x : F64) : isNaN (fabs x) = isNaN x := by simp [isNaN]
@[simp] theorem isInf_fabs (x : F64) : isInf (fabs x) = isInf x := by simp [isInf]
@[simp] theorem isFinite_fabs (x : F64) : isFinite (fabs x) = isFinite x := by simp [isFinite]
@[simp] theorem isZero_fabs (x : F64) : isZero (fabs x) = isZero x := by simp [isZero]

/-- Every word is a NaN, an infinity or finite. -/
theorem class_cases (x : F64) :
    (isNaN x = true ∧ isInf x = false ∧ isFinite x = false) ∨ (isNaN x = false ∧ isInf x = true ∧ isFinite x = false) ∨
      (isNaN x = false ∧ isInf x = false ∧ isFinite x = true) := by
  simp only [isNaN, isInf, isFinite, decide_eq_true_eq, decide_eq_false_iff_not]; omega

theorem isNaN_fnan (b : NanBits) : isNaN (fnan b) = true := by
  have := b.2.isLt
  simp only [isNaN, fnan, fmag_fpack, infMag, decide_eq_true_eq]
  rw [Nat.mod_eq_of_lt (by omega)]; omega

@[simp] theorem isNaN_qnan (q : Site) : isNaN (qnan q) = true := isNaN_fnan _

@[simp] theorem fkey_fneg (x : F64) : fkey (fneg x) = -fkey x := by
  unfold fkey; cases h : fsign x <;> simp [h]

/-! ## NaN operands -/

theorem fadd_nan_left (q : Site) {x : F64} (y : F64) (h : isNaN x = true) : isNaN (fadd q x y) = true := by
  unfold fadd; simp [h]

theorem fadd_nan_right (q : Site) (x : F64) {y : F64} (h : isNaN y = true) : isNaN (fadd q x y) = true := by
  unfold fadd; simp [h]

theorem fsub_nan_left (q : Site) {x : F64} (y : F64) (h : isNaN x = true) : isNaN (fsub q x y) = true := by
  unfold fsub; exact fadd_nan_left _ _ h

theorem fsub_nan_right (q : Site) (x : F64) {y : F64} (h : isNaN y = true) : isNaN (fsub q x y) = true := by
  unfold fsub; exact fadd_nan_right _ _ (by simpa using h)

theorem fmul_nan_left (q : Site) {x : F64} (y : F64) (h : isNaN x = true) : isNaN (fmul q x y) = true := by
  unfold fmul; simp [h]

theorem fmul_nan_right (q : Site) (x : F64) {y : F64} (h : isNaN y = true) : isNaN (fmul q x y) = true := by
  unfold fmul; simp [h]

theorem fdiv_nan_left (q : Site) {x : F64} (y : F64) (h : isNaN x = true) : isNaN (fdiv q x y) = true := by
  unfold fdiv; simp [h]

theorem fdiv_nan_right (q : Site) (x : F64) {y : F64} (h : isNaN y = true) : isNaN (fdiv q x y) = true := by
  unfold fdiv; simp [h]

theorem fsqrt_nan (q : Site) {x : F64} (h : isNaN x = true) : isNaN (fsqrt q x) = true := by
  unfold fsqrt; simp [h]

/-! ## A site shows only in a NaN -/

theorem fadd_site (q q' : Site) (x y : F64) :
    fadd q x y = fadd q' x y ∨ (isNaN (fadd q x y) = true ∧ isNaN (fadd q' x y) = true) := by
  unfold fadd; split_ifs <;> simp

theorem fsub_site (q q' : Site) (x y : F64) :
    fsub q x y = fsub q' x y ∨ (isNaN (fsub q x y) = true ∧ isNaN (fsub q' x y) = true) := by
  unfold fsub; exact fadd_site q q' _ _

theorem fmul_site (q q' : Site) (x y : F64) :
    fmul q x y = fmul q' x y ∨ (isNaN (fmul q x y) = true ∧ isNaN (fmul q' x y) = true) := by
  unfold fmul; split_ifs <;> simp

theorem fdiv_site (q q' : Site) (x y : F64) :
    fdiv q x y = fdiv q' x y ∨ (isNaN (fdiv q x y) = true ∧ isNaN (fdiv q' x y) = true) := by
  unfold fdiv; split_ifs <;> simp

theorem fsqrt_site (q q' : Site) (x : F64) :
    fsqrt q x = fsqrt q' x ∨ (isNaN (fsqrt q x) = true ∧ isNaN (fsqrt q' x) = true) := by
  unfold fsqrt; split_ifs <;> simp

theorem frem_site (q q' : Site) (x y : F64) :
    frem q x y = frem q' x y ∨ (isNaN (frem q x y) = true ∧ isNaN (frem q' x y) = true) := by
  unfold frem; split_ifs <;> simp

/-! ## Exact values -/

/-- A magnitude word's units, by its biased exponent and fraction. -/
theorem magUnits_eq (m : Nat) :
    magUnits m = if m / 2 ^ 52 = 0 then m else (2 ^ 52 + m % 2 ^ 52) * 2 ^ (m / 2 ^ 52 - 1) := by
  rw [magUnits]

theorem magUnits_sub {m : Nat} (h : m < 2 ^ 53) : magUnits m = m := by
  rw [magUnits_eq]
  split_ifs with h0
  · rfl
  · have : m / 2 ^ 52 = 1 := by omega
    rw [this]; simp; omega

/-- A magnitude word written as dropped bits and a significand with its leading bit. -/
theorem magUnits_normal (k s : Nat) (h1 : 2 ^ 52 ≤ s) (h2 : s < 2 ^ 53) : magUnits (k * 2 ^ 52 + s) = s * 2 ^ k := by
  have hd : (k * 2 ^ 52 + s) / 2 ^ 52 = k + 1 := by omega
  have hm : (k * 2 ^ 52 + s) % 2 ^ 52 = s - 2 ^ 52 := by omega
  rw [magUnits_eq, if_neg (by omega), hd, hm, Nat.add_sub_cancel, Nat.add_sub_cancel' h1]

/-- Every magnitude word is subnormal or has a significand with its leading bit. -/
theorem mag_cases (m : Nat) : m < 2 ^ 52 ∨ ∃ k s, m = k * 2 ^ 52 + s ∧ 2 ^ 52 ≤ s ∧ s < 2 ^ 53 := by
  by_cases h : m < 2 ^ 52
  · exact .inl h
  · exact .inr ⟨m / 2 ^ 52 - 1, m % 2 ^ 52 + 2 ^ 52, by omega, by omega, by omega⟩

theorem magUnits_pos {m : Nat} (h : 0 < m) : 0 < magUnits m := by
  rw [magUnits_eq]; split_ifs
  · exact h
  · exact Nat.mul_pos (by omega) (Nat.pow_pos (by decide))

theorem magUnits_lt_succ (m : Nat) : magUnits m < magUnits (m + 1) := by
  rcases mag_cases m with h | ⟨k, s, rfl, h1, h2⟩
  · rw [magUnits_sub (by omega), magUnits_sub (by omega)]; omega
  · rw [magUnits_normal k s h1 h2]
    by_cases h : s + 1 < 2 ^ 53
    · rw [Nat.add_assoc, magUnits_normal k (s + 1) (by omega) h]
      exact Nat.mul_lt_mul_of_pos_right (by omega) (Nat.pow_pos (by decide))
    · have e : k * 2 ^ 52 + s + 1 = (k + 1) * 2 ^ 52 + 2 ^ 52 := by omega
      rw [e, magUnits_normal (k + 1) (2 ^ 52) (by omega) (by decide), Nat.pow_succ]
      have : 0 < 2 ^ k := Nat.pow_pos (by decide)
      have hs : s + 1 = 2 * 2 ^ 52 := by omega
      calc s * 2 ^ k < (s + 1) * 2 ^ k := Nat.mul_lt_mul_of_pos_right (by omega) this
        _ = 2 ^ 52 * (2 ^ k * 2) := by rw [hs]; ring

theorem magUnits_strictMono : StrictMono magUnits := strictMono_nat_of_lt_succ magUnits_lt_succ

theorem roundShift_small {u : Nat} (h : u < 2 ^ 53) : roundShift u = 0 := by
  unfold roundShift
  by_cases h0 : u = 0
  · subst h0; simp
  · have := (Nat.log2_lt h0).2 h; omega

theorem roundShift_normal (k s : Nat) (h1 : 2 ^ 52 ≤ s) (h2 : s < 2 ^ 53) : roundShift (s * 2 ^ k) = k := by
  unfold roundShift
  have hp : 0 < 2 ^ k := Nat.pow_pos (by decide)
  have hne : s * 2 ^ k ≠ 0 := Nat.mul_ne_zero (by omega) (by omega)
  have a : 52 + k ≤ Nat.log2 (s * 2 ^ k) := by
    rw [Nat.le_log2 hne, Nat.pow_add]; exact Nat.mul_le_mul_right _ h1
  have b : Nat.log2 (s * 2 ^ k) < 53 + k := by
    rw [Nat.log2_lt hne, Nat.pow_add]; exact Nat.mul_lt_mul_of_pos_right h2 hp
  omega

theorem roundQuot_of_dvd (a d : Nat) (hd : 0 < d) : roundQuot (a * d) d = a := by
  unfold roundQuot
  rw [Nat.mul_mod_left, Nat.mul_div_cancel _ hd, if_neg]
  simp; omega

/-- Rounding a representable magnitude gives its word. -/
theorem roundMag_exact {m : Nat} (h : m ≤ infMag) (d : Nat) (hd : 0 < d) : roundMag (magUnits m * d) d = m := by
  unfold roundMag
  rw [Nat.mul_div_cancel _ hd]
  rcases mag_cases m with hs | ⟨k, s, rfl, h1, h2⟩
  · rw [magUnits_sub (by omega), roundShift_small (by omega)]
    simp only [Nat.zero_mul, Nat.zero_add, Nat.pow_zero, Nat.mul_one]
    rw [roundQuot_of_dvd _ _ hd]; exact Nat.min_eq_right h
  · rw [magUnits_normal k s h1 h2, roundShift_normal k s h1 h2,
      show s * 2 ^ k * d = s * (d * 2 ^ k) from by ring, roundQuot_of_dvd _ _ (Nat.mul_pos hd (Nat.pow_pos (by decide)))]
    exact Nat.min_eq_right h

theorem infMag_lt : infMag < 2 ^ 63 := by decide

theorem roundMag_le (n d : Nat) : roundMag n d ≤ infMag := by unfold roundMag; exact Nat.min_le_left _ _

@[simp] theorem fsign_fround (b : Bool) (n d : Nat) : fsign (fround b n d) = b := by unfold fround; simp

@[simp] theorem fmag_fround (b : Bool) (n d : Nat) : fmag (fround b n d) = roundMag n d := by
  unfold fround; rw [fmag_fpack]
  exact Nat.mod_eq_of_lt (Nat.lt_of_le_of_lt (roundMag_le n d) infMag_lt)

@[simp] theorem isNaN_fround (b : Bool) (n d : Nat) : isNaN (fround b n d) = false := by
  simp only [isNaN, fmag_fround, decide_eq_false_iff_not, Nat.not_lt]; exact roundMag_le n d

/-- Rounding the exact value of a finite binary64 gives it back. -/
theorem fround_exact {x : F64} (h : isFinite x = true) : fround (fsign x) (magUnits (fmag x)) 1 = x := by
  have hm : fmag x ≤ infMag := by simp only [isFinite, decide_eq_true_eq] at h; omega
  have := roundMag_exact hm 1 (by decide)
  rw [Nat.mul_one] at this
  exact f64_ext (by simp) (by simp [this])

/-! ## Results that are not finite -/

theorem isFinite_qnan (q : Site) : isFinite (qnan q) = false := by
  have h := isNaN_fnan (Config.nanBits q)
  simp only [qnan]
  simp only [isNaN, isFinite, decide_eq_true_eq, decide_eq_false_iff_not] at h ⊢
  omega

theorem isFinite_fpack_infMag (b : Bool) : isFinite (fpack b infMag) = false := by cases b <;> decide

/-- A sum with an operand that is not finite is not finite. -/
theorem isFinite_fadd (q : Site) {x y : F64} (h : isFinite x = false ∨ isFinite y = false) :
    isFinite (fadd q x y) = false := by
  unfold fadd
  have hx := class_cases x
  have hy := class_cases y
  split_ifs with h1 h2 h3 h4 h5
  all_goals first | exact isFinite_qnan q | skip
  all_goals simp_all

/-- The square of a number that is not finite is not finite. -/
theorem isFinite_fmul_self (q : Site) {x : F64} (h : isFinite x = false) : isFinite (fmul q x x) = false := by
  unfold fmul
  have hx := class_cases x
  split_ifs with h1 h2 h3
  · exact isFinite_qnan q
  · exact isFinite_qnan q
  · exact isFinite_fpack_infMag _
  · simp_all

/-- A quotient by a zero is not finite. -/
theorem isFinite_fdiv_zero (q : Site) (x : F64) {y : F64} (h : isZero y = true) : isFinite (fdiv q x y) = false := by
  have hy : fmag y = 0 := by simpa [isZero] using h
  have hi : isInf y = false := by simp [isInf, hy, infMag]
  unfold fdiv
  simp only [hi, h, Bool.false_eq_true, if_true, if_false]
  split_ifs
  all_goals first | exact isFinite_qnan q | exact isFinite_fpack_infMag _

/-! ## Square roots of natural numbers -/

theorem isqrt_spec (fuel : Nat) : ∀ n, n < 4 ^ fuel → isqrt fuel n * isqrt fuel n ≤ n ∧
    n < (isqrt fuel n + 1) * (isqrt fuel n + 1) := by
  induction fuel with
  | zero => intro n hn; have : n = 0 := by simpa using hn
            subst this; simp [isqrt]
  | succ f ih =>
    intro n hn
    have hn' : n / 4 < 4 ^ f := by rw [Nat.pow_succ] at hn; omega
    obtain ⟨h1, h2⟩ := ih (n / 4) hn'
    simp only [isqrt]
    generalize isqrt f (n / 4) = r at h1 h2 ⊢
    split_ifs with h
    · refine ⟨h, ?_⟩
      have : n < 4 * ((r + 1) * (r + 1)) := by omega
      nlinarith
    · refine ⟨?_, by omega⟩
      have : 4 * (r * r) ≤ n := by omega
      nlinarith

/-- `natSqrt n` is the whole part of the square root of `n`. -/
theorem natSqrt_spec (n : Nat) : natSqrt n * natSqrt n ≤ n ∧ n < (natSqrt n + 1) * (natSqrt n + 1) := by
  apply isqrt_spec
  by_cases h : n = 0
  · subst h; decide
  · have h1 : n < 2 ^ (Nat.log2 n + 1) := Nat.lt_log2_self
    calc n < 2 ^ (Nat.log2 n + 1) := h1
      _ ≤ 2 ^ (2 * (Nat.log2 n / 2 + 1)) := Nat.pow_le_pow_right (by decide) (by omega)
      _ = 4 ^ (Nat.log2 n / 2 + 1) := by rw [Nat.pow_mul]

end Sys2Proof.Machine
end

