-- ==== Sys2Proof/Laws/Ops.lean ====
section
/-! SUPPORT. What the shared operations, the commands and the step can do, each said once. -/

namespace Sys2Proof.Machine

open Host (Outcome)

/-! ## Shared operations -/

theorem takeEvent_nil {s : State} (h : s.port = []) : takeEvent s = none := by simp [takeEvent, h]

theorem takeEvent_cons {s : State} {e : PortEvent} {rest : List PortEvent} (h : s.port = e :: rest) :
    takeEvent s = some (e, { s with port := rest }) := by simp [takeEvent, h]

theorem respond_eq (c : RspCode) (d0 d1 : Word) (s : State) :
    respond c d0 d1 s = { s with response := some ⟨rspByte c, d0, d1⟩ } := rfl

theorem reject_eq (c : RspCode) (s : State) :
    reject c s = { s with stErr := true, stLastErr := rspByte c, response := some ⟨rspByte c, 0, 0⟩ } := rfl

theorem regOfAddr_regAddr (r : RegName) : regOfAddr (regAddr r) = some r := by cases r <;> decide

theorem regAddr_regOfAddr {a : RegAddr} {r : RegName} (h : regOfAddr a = some r) : regAddr r = a := by
  revert a r; decide +kernel

theorem rspByte_injective : Function.Injective rspByte := by
  intro a b h; revert h; cases a <;> cases b <;> decide

/-! ## Commands -/

theorem exec_nop (s : State) : exec .nop s = .next (respond .ok 0 0 s) := rfl

theorem exec_srst (s : State) : exec .srst s = .next (respond .ok 0 0 (softReset s)) := rfl

theorem exec_clrst (s : State) : exec .clrst s = .next (respond .ok 0 0 (clearSticky s)) := rfl

theorem exec_cfgw (a : RegAddr) (v : Word) (s : State) :
    (∃ c, cfgwReject a s = some c ∧ exec (.cfgw a v) s = .next (reject c s)) ∨
      (cfgwReject a s = none ∧ exec (.cfgw a v) s = .next (respond .ok 0 0 (writeAddr a v s))) := by
  show (∃ c, _ ∧ execCfgw a v s = _) ∨ (_ ∧ execCfgw a v s = _)
  unfold execCfgw
  cases cfgwReject a s <;> simp

/-- A register write that is not rejected names a register that is not read-only, and in RUN it is `COEF_SEL`. -/
theorem cfgwReject_none {a : RegAddr} {s : State} (h : cfgwReject a s = none) :
    ∃ r, regOfAddr a = some r ∧ regIsReadOnly r = false ∧ (s.mode = .run → r = .coefSel) := by
  unfold cfgwReject at h
  cases hr : regOfAddr a with
  | none => simp [hr] at h
  | some r =>
    simp only [hr] at h
    refine ⟨r, rfl, ?_, fun hm => ?_⟩
    · by_contra hc
      have hc' : regIsReadOnly r = true := by simpa using hc
      simp [hc'] at h
    · revert h; cases r <;> simp [regIsReadOnly, regIsConfig, hm]

theorem exec_rdreg (a : RegAddr) (s : State) :
    (regOfAddr a = none ∧ exec (.rdreg a) s = .next (reject .badReg s)) ∨
      ∃ r, regOfAddr a = some r ∧ exec (.rdreg a) s = .next (respond .ok (readReg r s) 0 s) := by
  show (_ ∧ execRdreg a s = _) ∨ ∃ r, _ ∧ execRdreg a s = _
  unfold execRdreg
  cases regOfAddr a <;> simp

theorem exec_start (s : State) :
    (∃ c, startReject s = some c ∧ exec .start s = .next (reject c s)) ∨
      (startReject s = none ∧
        exec .start s = .next (respond .ok 0 0 (beginSession (cfgCount s) (cfgTaps s) s))) := by
  show (∃ c, _ ∧ execStart s = _) ∨ (_ ∧ execStart s = _)
  unfold execStart
  cases startReject s <;> simp

/-- What START has checked when it does not reject. -/
theorem startReject_none {s : State} (h : startReject s = none) :
    s.mode = .idle ∧ 2 ≤ s.cfgSps.toNat ∧ rolloffLegal s = true ∧ 1 ≤ s.cfgWindow.toNat ∧ s.cfgWindow.toNat < 2 ^ 32 ∧
      cfgCount s ≤ Config.maxTaps ∧ rrcDegenerate (cfgEnergy s) (cfgTaps s) = false := by
  unfold startReject at h
  split_ifs at h with h1 h2 h3 h4 h5 h6
  refine ⟨?_, by omega, by simpa using h3, by omega, by omega, by omega, by simpa using h6⟩
  cases hm : s.mode <;> simp_all

theorem exec_proc_idle {s : State} (re im : F64) (h : s.mode = .idle) :
    exec (.proc re im) s = .next (reject .wrongMode s) := by
  show execProc re im s = _
  unfold execProc; rw [h]

theorem exec_proc_run {s : State} (re im : F64) (h : s.mode = .run) :
    exec (.proc re im) s = .next (respond .ok (narrowband ⟨re, im⟩ s).re (narrowband ⟨re, im⟩ s).im
      (stepState ⟨re, im⟩ s)) := by
  show execProc re im s = _
  unfold execProc; rw [h]
  simp only [demodStep_fst, demodStep_snd, sampleOf]

/-! ## The step -/

/-- What a step that goes on has done. -/
theorem step_cases {s t : State} (h : step s = .next t) :
    (s.port = [] ∧ t = s) ∨
      (∃ rest, s.port = .hardReset :: rest ∧ t = hardReset { s with port := rest }) ∨
      (∃ c rest e, s.port = .command c :: rest ∧ decode c = .error e ∧
        t = reject .illegalCmd { s with port := rest }) ∨
      ∃ c rest i, s.port = .command c :: rest ∧ decode c = .ok i ∧ exec i { s with port := rest } = .next t := by
  unfold step at h
  cases hp : s.port with
  | nil => rw [takeEvent_nil hp] at h; simp only [Outcome.next.injEq] at h; exact .inl ⟨rfl, h.symm⟩
  | cons e rest =>
    rw [takeEvent_cons hp] at h
    cases e with
    | hardReset => simp only [Outcome.next.injEq] at h; exact .inr (.inl ⟨rest, rfl, h.symm⟩)
    | command c =>
      simp only at h
      cases hd : decode c with
      | error e =>
        rw [hd] at h; simp only [Outcome.next.injEq] at h
        exact .inr (.inr (.inl ⟨c, rest, e, rfl, hd, h.symm⟩))
      | ok i => rw [hd] at h; exact .inr (.inr (.inr ⟨c, rest, i, rfl, hd, h⟩))

end Sys2Proof.Machine
end

