-- ==== Sys2Proof/Laws/PerInstr.lean ====
section
/-! SUPPORT. Facts about every instruction as syntax, one lemma per constructor. -/

namespace Sys2Proof.Laws

/-- The command that encodes an instruction is a legal one (30_encoding.md R86). -/
def EncodesLegally.Statement (i : Instr) : Prop := (encode i).wf = true

theorem cmdOp_cmdWord (op : BitVec 4) (reg : RegAddr) : Machine.cmdOp (Machine.cmdWord op reg) = op := by
  revert op reg; decide +kernel

theorem cmdReg_cmdWord (op : BitVec 4) (reg : RegAddr) : Machine.cmdReg (Machine.cmdWord op reg) = reg := by
  revert op reg; decide +kernel

theorem cmdRsvd_cmdWord (op : BitVec 4) (reg : RegAddr) : Machine.cmdRsvd (Machine.cmdWord op reg) = 0 := by
  revert op reg; decide +kernel

theorem EncodesLegally.nop : EncodesLegally.Statement .nop := by
  unfold EncodesLegally.Statement; decide

theorem EncodesLegally.srst : EncodesLegally.Statement .srst := by
  unfold EncodesLegally.Statement; decide

theorem EncodesLegally.cfgw (reg : RegAddr) (value : Word) : EncodesLegally.Statement (.cfgw reg value) := by
  simp [EncodesLegally.Statement, encode, Command.wf, Command.opAssigned, Command.rsvdClear, Command.regAllowed,
    cmdOp_cmdWord, cmdRsvd_cmdWord]

theorem EncodesLegally.rdreg (reg : RegAddr) : EncodesLegally.Statement (.rdreg reg) := by
  simp [EncodesLegally.Statement, encode, Command.wf, Command.opAssigned, Command.rsvdClear, Command.regAllowed,
    cmdOp_cmdWord, cmdRsvd_cmdWord]

theorem EncodesLegally.start : EncodesLegally.Statement .start := by
  unfold EncodesLegally.Statement; decide

theorem EncodesLegally.proc (re im : F64) : EncodesLegally.Statement (.proc re im) := by
  simp [EncodesLegally.Statement, encode, Command.wf, Command.opAssigned, Command.rsvdClear, Command.regAllowed,
    cmdOp_cmdWord, cmdRsvd_cmdWord, cmdReg_cmdWord]

theorem EncodesLegally.clrst : EncodesLegally.Statement .clrst := by
  unfold EncodesLegally.Statement; decide

end Sys2Proof.Laws
end

