-- ==== Sys2Proof/Laws/Rrc.lean ====
section
/-! SUPPORT. What the coefficient synthesizer does with a raw tap that is not finite, and the bounds of MAX_TAPS. -/

namespace Sys2Proof.Machine

theorem one_le_maxTaps : 1 ≤ Config.maxTaps := Nat.succ_le_succ (Nat.zero_le _)

theorem maxTaps_lt : Config.maxTaps < 2 ^ 32 := by
  have := Config.maxTapsPred.isLt
  unfold Config.maxTaps
  omega

theorem length_rrcRawTaps (q : Site) (sps d : Nat) (r : F64) : (rrcRawTaps q sps d r).length = rrcCount sps d := by
  simp [rrcRawTaps]

theorem length_rrcNorm (q : Site) (raw : List F64) (e : F64) : (rrcNorm q raw e).length = raw.length := by
  simp [rrcNorm]

theorem length_cfgTaps (s : State) : (cfgTaps s).length = cfgCount s := by
  simp [cfgTaps, cfgRawTaps, length_rrcNorm, length_rrcRawTaps, cfgCount]

/-- An energy that is not finite stays so. -/
theorem isFinite_rrcEnergyFrom (q : Site) (raw : List F64) : ∀ (k : Nat) (e : F64), isFinite e = false →
    isFinite (rrcEnergyFrom q k e raw) = false := by
  induction raw with
  | nil => exact fun _ _ h => h
  | cons v vs ih => exact fun k e h => ih _ _ (isFinite_fadd _ (.inl h))

/-- The energy of taps among which one is not finite is not finite. -/
theorem isFinite_rrcEnergyFrom_of_mem (q : Site) (raw : List F64) (h : ∃ v ∈ raw, isFinite v = false) :
    ∀ (k : Nat) (e : F64), isFinite (rrcEnergyFrom q k e raw) = false := by
  induction raw with
  | nil => simp at h
  | cons v vs ih =>
    intro k e
    rw [rrcEnergyFrom]
    obtain ⟨w, hw, hf⟩ := h
    rcases List.mem_cons.1 hw with rfl | hw
    · exact isFinite_rrcEnergyFrom _ _ _ _ (isFinite_fadd _ (.inr (isFinite_fmul_self _ hf)))
    · exact ih ⟨w, hw, hf⟩ _ _

/-- A raw tap whose denominator is a zero is not finite. -/
theorem isFinite_rrcRaw_of_den (q : Site) {t r : F64} (h0 : feq t 0 = false)
    (h1 : feq (fabs t) (rrcSingularTime (1 :: q) r) = false) (h2 : isZero (rrcDen (1 :: 3 :: q) t r) = true) :
    isFinite (rrcRaw q t r) = false := by
  rw [rrcRaw, h0, h1, if_neg Bool.false_ne_true, if_neg Bool.false_ne_true, rrcGeneral]
  exact isFinite_fdiv_zero _ _ h2

end Sys2Proof.Machine
end

