-- ==== Sys2Proof/Tests/Slice0.lean ====
section
/-! SUPPORT. Tests of one step or one operation each, with expected values from spec/95_test_vectors.md (its row is named in
the docstring) or written out from an encoding rule, and a witness for the hypotheses of each statement for the provers. -/

open Sys2Proof Sys2Proof.Machine

namespace Sys2Proof.Tests

-- The proofs run one after another: each waits for the kernel, and side by side they would take a thread each.
set_option Elab.async false

/-! ## Small states -/

/-- IDLE with the base configuration of 95_test_vectors.md section 3 and a window. -/
def idleBase (w : Word) : State :=
  { State.reset with
    cfgSps := 2, cfgRolloff := 0x3FF0000000000000, cfgWindow := w, cfgFreqThr := 0x3FE0000000000000,
    cfgPhaseThr := 0x3FE0000000000000 }

/-- The session that START begins from it. -/
def runBase (w : Word) : State := beginSession 1 [0x3FF0000000000000] (idleBase w)

/-- A state with one command waiting. -/
def issue (c : Command) (s : State) : State := { s with port := [.command c] }

/-- An outcome goes on in a given state. -/
def goesTo (o : Host.Outcome State Fault Refusal) (t : State) : Bool :=
  match o with
  | .next u => decide (u = t)
  | .fault _ => false
  | .refused _ => false

theorem eq_next_of_goesTo {o : Host.Outcome State Fault Refusal} {t : State} (h : goesTo o t = true) : o = .next t := by
  unfold goesTo at h
  split at h
  · rw [of_decide_eq_true h]
  · cases h
  · cases h

/-- An outcome goes on. -/
def goesOn (o : Host.Outcome State Fault Refusal) : Bool :=
  match o with
  | .next _ => true
  | .fault _ => false
  | .refused _ => false

theorem exists_next_of_goesOn {o : Host.Outcome State Fault Refusal} (h : goesOn o = true) : ∃ t, o = .next t := by
  unfold goesOn at h
  split at h
  · exact ⟨_, rfl⟩
  · cases h
  · cases h

/-- What an instruction answers. -/
def answer (i : Instr) (s : State) : Option Response := (after i s).response

/-! ## The static checks -/

theorem test_wf_reserved_opcode : (Command.mk 0x70000000 0 0).opAssigned = false := by decide
theorem test_wf_reserved_bits : (Command.mk 0x20800001 2 0).rsvdClear = false := by decide
theorem test_wf_stray_register : (Command.mk 0x40100000 0 0).regAllowed = false := by decide
theorem test_wf_command : (Command.mk 0x31700000 0 0).wf = true ∧ (Command.mk 0x70000000 0 0).wf = false := by decide
theorem test_wf_unmapped : (Instr.rdreg 0x02).regMapped = false ∧ (Instr.cfgw 0x20 5).regMapped = false := by decide
theorem test_wf_read_only : (Instr.cfgw 0x15 3).regWritable = false ∧ (Instr.cfgw 0x15 3).wf = false := by decide

/-! ## Decoding. The bits are those of 30_encoding.md R81: OP 31:28, REG 27:20, RSVD 19:0. -/

theorem test_decode_nop : decode ⟨0b0000_00000000_00000000000000000000, 0, 0⟩ = .ok .nop := by decide
theorem test_decode_srst : decode ⟨0b0001_00000000_00000000000000000000, 0, 0⟩ = .ok .srst := by decide
theorem test_decode_cfgw : decode ⟨0b0010_00001011_00000000000000000000, 7, 0⟩ = .ok (.cfgw 0x0B 7) := by decide
theorem test_decode_rdreg : decode ⟨0b0011_00010101_00000000000000000000, 0, 0⟩ = .ok (.rdreg 0x15) := by decide
theorem test_decode_start : decode ⟨0b0100_00000000_00000000000000000000, 0, 0⟩ = .ok .start := by decide
theorem test_decode_proc : decode ⟨0b0101_00000000_00000000000000000000, 3, 5⟩ = .ok (.proc 3 5) := by decide
theorem test_decode_clrst : decode ⟨0b0110_00000000_00000000000000000000, 0, 0⟩ = .ok .clrst := by decide
theorem test_decode_top_opcode : decode ⟨0xF0000000, 0, 0⟩ = .error .reservedOpcode := by decide
theorem test_decode_top_reserved_bit : decode ⟨0x50080000, 0, 0⟩ = .error .reservedBits := by decide
theorem test_decode_top_register_bit : decode ⟨0x58000000, 0, 0⟩ = .error .strayRegister := by decide

/-- The table's view: the second word's lowest bit is bit 32, and bits at or above `nbits` are 0 (log 3). -/
theorem test_decode_table_word :
    decodeTableWord 32 0x31500000 = some (.rdreg 0x15) ∧ decodeTableWord 32 0x70000000 = none ∧
    decodeTableWord 160 (0x50000000 + 3 * 2 ^ 32 + 5 * 2 ^ 96) = some (.proc 3 5) ∧
    decodeTableWord 32 (0x50000000 + 3 * 2 ^ 32) = some (.proc 0 0) := by decide

/-- A table word runs as the first instruction after reset: RDREG NTAPS answers 0. -/
theorem test_fetch_word :
    (stateOr State.reset (step (State.reset.withFetchWord 32 0x31500000))).response = some ⟨0, 0, 0⟩ ∧
    (stateOr State.reset (step (State.reset.withFetchWord 32 0x70000000))).response = some ⟨1, 0, 0⟩ := by decide +kernel

/-- A line of 95_test_vectors.md P3 assembles to its words; `0.1` is 0x3FB999999999999A (P4). -/
theorem test_assemble :
    asmProgram ["PROC -1.0, -0.0  ; comment", "RDCOEF 2", "", "CFGW FREQ_THR, 0.1"] =
      some [⟨0x50000000, 0xBFF0000000000000, 0x8000000000000000⟩, ⟨0x21600000, 2, 0⟩, ⟨0x31700000, 0, 0⟩,
        ⟨0x20C00000, 0x3FB999999999999A, 0⟩] := by decide +kernel

/-! ## Commands: rows of 95_test_vectors.md 2.10 and calls of its programs -/

/-- H1. -/
theorem test_nop : exec .nop (runBase 1) = .next (answeredWith 0 0 (runBase 1)) :=
  eq_next_of_goesTo (by decide +kernel)

/-- H2, H4. -/
theorem test_illegal :
    step (issue ⟨0x00100000, 0, 0⟩ (runBase 1)) = .next (rejectedWith 1 (runBase 1)) ∧
    step (issue ⟨0xF0000000, 0, 0⟩ (runBase 1)) = .next (rejectedWith 1 (runBase 1)) :=
  ⟨eq_next_of_goesTo (by decide +kernel), eq_next_of_goesTo (by decide +kernel)⟩

/-- H26. -/
theorem test_srst :
    (after .srst (runBase 1)).mode = .idle ∧ answer (.rdreg 0x00) (after .srst (runBase 1)) = some ⟨0, 0, 0⟩ ∧
    answer (.rdreg 0x08) (after .srst (runBase 1)) = some ⟨0, 2, 0⟩ ∧
    answer (.rdreg 0x15) (after .srst (runBase 1)) = some ⟨0, 0, 0⟩ := by decide +kernel

/-- H6 to H9. -/
theorem test_cfgw_rejections :
    answer (.cfgw 0x20 5) (idleBase 1) = some ⟨2, 0, 0⟩ ∧ answer (.cfgw 0x00 1) (idleBase 1) = some ⟨3, 0, 0⟩ ∧
    answer (.cfgw 0x15 3) (runBase 1) = some ⟨3, 0, 0⟩ ∧
    after (.cfgw 0x08 4) (runBase 1) = rejectedWith 4 (runBase 1) := by decide +kernel

/-- H10, and a configuration write in IDLE. -/
theorem test_cfgw_writes :
    after (.cfgw 0x16 3) (runBase 1) = answeredWith 0 0 { runBase 1 with coefSel := 3 } ∧
    (after (.cfgw 0x0C 0x7FF8000000000001) (idleBase 1)).cfgFreqThr = 0x7FF8000000000001 := by decide +kernel

/-- H5, H25, and the tap count and coefficient of H23. -/
theorem test_rdreg :
    answer (.rdreg 0x02) (runBase 1) = some ⟨2, 0, 0⟩ ∧
    answer (.rdreg 0x17) { runBase 1 with coefSel := 1 } = some ⟨0, 0, 0⟩ ∧
    answer (.rdreg 0x17) (runBase 1) = some ⟨0, 0x3FF0000000000000, 0⟩ ∧
    answer (.rdreg 0x15) (runBase 1) = some ⟨0, 1, 0⟩ := by decide +kernel

/-- STATUS of H23, of P1's end, of P5's end and of P4's step 13. -/
theorem test_rdreg_status :
    answer (.rdreg 0x00) (runBase 1) = some ⟨0, 0x1, 0⟩ ∧
    answer (.rdreg 0x00) { runBase 1 with lock := .tracking } = some ⟨0, 0x5, 0⟩ ∧
    answer (.rdreg 0x00) { runBase 1 with lock := .tracking, stNf := true } = some ⟨0, 0xD, 0⟩ ∧
    answer (.rdreg 0x00) { runBase 1 with lock := .acquiringPhase, stErr := true, stLastErr := 4 } =
      some ⟨0, 0x413, 0⟩ := by decide +kernel

/-- H23 (and S5): the base configuration starts. -/
theorem test_start : exec .start (idleBase 1) = .next (answeredWith 0 0 (runBase 1)) :=
  eq_next_of_goesTo (by decide +kernel)

/-- H11, H13 to H18. -/
theorem test_start_rejections :
    answer .start { runBase 1 with cfgSps := 0 } = some ⟨0x04, 0, 0⟩ ∧
    answer .start { idleBase 0 with cfgSps := 1 } = some ⟨0x10, 0, 0⟩ ∧
    answer .start { idleBase 1 with cfgRolloff := 0 } = some ⟨0x11, 0, 0⟩ ∧
    answer .start { idleBase 1 with cfgRolloff := 0x7FF8000000000000 } = some ⟨0x11, 0, 0⟩ ∧
    answer .start { idleBase 1 with cfgRolloff := 0x3FF0000000000001 } = some ⟨0x11, 0, 0⟩ ∧
    answer .start (idleBase 0) = some ⟨0x12, 0, 0⟩ ∧
    answer .start (idleBase 0x100000000) = some ⟨0x12, 0, 0⟩ := by decide +kernel

/-- P2, call 2: the state before it and after it. -/
theorem test_proc_quarter_turn :
    exec (.proc 0 0x3FF0000000000000)
      { runBase 1 with
        lock := .acquiringPhase, taps := [⟨0, 0x3FF0000000000000⟩], fad := ⟨1, halfPi, 0⟩, pad := ⟨1, halfPi, 0⟩,
        dl := ⟨[halfPi], 0⟩, sampleCount := 1, freeCount := 1 } =
    .next (answeredWith 0 0x3FF0000000000000
      { runBase 1 with
        lock := .acquiringFrequency, taps := [⟨0, 0x3FF0000000000000⟩], fad := ⟨1, 0, halfPi⟩,
        pad := ⟨1, halfPi, halfPi⟩, dl := ⟨[halfPi], 0⟩, phaseEstimate := halfPi, sampleCount := 2,
        freeCount := 2 }) :=
  eq_next_of_goesTo (by decide +kernel)

/-- P3, call 3: both windows of 2 close, and Tracking writes the scaled means. -/
theorem test_proc_tracking :
    exec (.proc 0x3FF0000000000000 0)
      { runBase 2 with
        lock := .tracking, taps := [⟨0xBFF0000000000000, 0x8000000000000000⟩], fad := ⟨2, 0xC01921FB54442D18, 0⟩,
        pad := ⟨2, 0xC02921FB54442D18, 0⟩, dl := ⟨[0xC01921FB54442D18], 0⟩, sampleCount := 2, freeCount := 2 } =
    .next (answeredWith 0x3FF0000000000000 0
      { runBase 2 with
        lock := .acquiringFrequency, taps := [⟨0x3FF0000000000000, 0⟩],
        fad := ⟨1, 0x401921FB54442D18, 0xC01921FB54442D18⟩, pad := ⟨1, 0, 0xC02921FB54442D18⟩, dl := ⟨[0], 0⟩,
        phaseEstimate := 0xBFF921FB54442D18, freqEstimate := 0xBFD41B2F769CF0E0, sampleCount := 3,
        freeCount := 3 }) :=
  eq_next_of_goesTo (by decide +kernel)

/-- H12: no sample in IDLE; and H29: the count wraps. -/
theorem test_proc_modes :
    after (.proc 0x3FF0000000000000 0) (idleBase 1) = rejectedWith 4 (idleBase 1) ∧
    (after (.proc 0x3FF0000000000000 0) { runBase 1 with sampleCount := 0xFFFFFFFFFFFFFFFF }).sampleCount = 0 := by
  decide +kernel

/-- H28. -/
theorem test_clrst :
    exec .clrst { runBase 1 with stNf := true, stErr := true, stLastErr := 4 } = .next (answeredWith 0 0 (runBase 1)) :=
  eq_next_of_goesTo (by decide +kernel)

/-! ## Operations: vectors of 95_test_vectors.md 2.1 to 2.9 -/

/-- W1, W2, W5, W6, W7 (40_phase_math.md R100). -/
theorem test_wrap :
    wrap [] 0x400C000000000000 = 0xC00643F6A8885A30 ∧ wrap [] 0xC00C000000000000 = 0x400643F6A8885A30 ∧
    wrap [] 0x412E848000000000 = 0xBFD6E254D0EBFC80 ∧ wrap [] 0x4012D97C7F3321D2 = 0xBFF921FB54442D18 := by
  decide +kernel

/-- X1, X2, X4, X6, X7. -/
theorem test_complex :
    cmul [] ⟨0, one⟩ ⟨0, one⟩ = ⟨fneg one, 0⟩ ∧ cmul [] ⟨one, 0⟩ ⟨fneg one, fneg 0⟩ = ⟨fneg one, fneg 0⟩ ∧
    cmul [] ⟨one, 0⟩ ⟨0, one⟩ = ⟨0, one⟩ ∧ cscale [] one ⟨fneg one, fneg 0⟩ = ⟨fneg one, fneg 0⟩ ∧
    cadd [] ⟨0, 0⟩ ⟨fneg 0, fneg 0⟩ = ⟨0, 0⟩ := by decide +kernel

/-- N2, its first two phases. -/
theorem test_nco_phase :
    ncoAdvance [] 0 0x400C000000000000 0 = 0xC00643F6A8885A30 ∧
    ncoAdvance [] 0xC00643F6A8885A30 0x400C000000000000 0 = 0x3FE6F0255DDE9740 := by decide +kernel

/-- S-raw1: the centre taps for `r = 0.5` and `r = 1.0`. -/
theorem test_rrc_centre :
    rrcCentre [] 0x3FE0000000000000 = 0x3FF22F9836E4E442 ∧ rrcCentre [] one = 0x3FF45F306DC9C883 := by decide +kernel

/-- The sample times of S1, and `t[1]` of S9. -/
theorem test_rrc_times :
    (List.range 5).map (rrcTime [] 2 1) = [fneg one, 0xBFE0000000000000, 0, 0x3FE0000000000000, one] ∧
    rrcTime [] 13 2 1 = 0xBFFEC4EC4EC4EC4F := by decide +kernel

/-- F2: the sum is in index order, newest sample first. -/
theorem test_fir_order :
    (firSum [] 3 [one, one, one] [⟨0xC341C37937E08000, 0⟩, ⟨0x4341C37937E08000, 0⟩, ⟨one, 0⟩]).re = one := by
  decide +kernel

/-- F3, and F1: the sum starts at `+0.0`. -/
theorem test_fir_variants :
    (firProcReal [] [0x3FE0000000000000, 0x3FD0000000000000] 0x4020000000000000 [0x4010000000000000, 0]).1 =
      0x4014000000000000 ∧
    firSum [] 1 [one] [⟨fneg one, fneg 0⟩] = ⟨fneg one, 0⟩ := by decide +kernel

/-- A1, and A3's `-0.0`. -/
theorem test_accum_dump :
    adOutputs [] 3 0 ⟨0, 0, 0⟩ ((List.range 7).map fun n => fofNat (n + 1)) = [0, 0, 0, 6, 6, 6, 15].map fofNat ∧
    adOutputs [] 1 0 ⟨0, 0, 0⟩ [fneg 0, 0] = [0, 0] := by decide +kernel

/-- L2, L3. -/
theorem test_delay_line :
    dlOutputs (dlCall 1) ⟨[0], 0⟩ [0x8000000000000000, 0x7FF8000000000000, 3] = [0, 0x8000000000000000, 0x7FF8000000000000] ∧
    dlOutputs (dlCall 3) ⟨[0, 0, 0], 0⟩ [1, 2, 3, 4, 5] = [0, 0, 0, 1, 2] ∧
    dlOutputs (dlCallAhead 3) ⟨[0, 0, 0, 0], 0⟩ [1, 2, 3, 4, 5] = [0, 0, 0, 1, 2] := by decide

/-- D6, D7, D12, D13. -/
theorem test_phase_detector :
    pdDetect [] ⟨fneg one, 0⟩ = fneg twoPi ∧ pdDetect [] ⟨fneg one, fneg 0⟩ = fneg 0 ∧
    pdDetect [] ⟨fneg one, one⟩ = 0xBFE921FB54442D18 ∧ pdDetect [] ⟨fneg one, fneg one⟩ = 0xBFE921FB54442D18 := by
  decide +kernel

/-- M2, M4, M8, M11, M13. -/
theorem test_lock_table :
    let h : F64 := 0x3FE0000000000000
    let n : F64 := 0x7FF8000000000000
    nextLock .acquiringFrequency h 0 h h = .acquiringPhase ∧ nextLock .acquiringFrequency n 0 h h = .acquiringFrequency ∧
    nextLock .acquiringPhase n 0 h h = .tracking ∧ nextLock .tracking 0 0xBFE8000000000000 h h = .acquiringPhase ∧
    nextLock .acquiringFrequency 0 0 n h = .acquiringFrequency := by decide +kernel

/-- M10's frequency estimate, `0.1 * -0.75`: -0.07500000000000001. -/
theorem test_track_gain :
    nextFreqEstimate [] .tracking 0xBFE8000000000000 0 = asmDecimal true 7500000000000001 (-17) := by decide +kernel

/-! ## Witnesses: states and operands that meet the hypotheses of a statement, for each of its clauses -/

theorem wit_StepRunsDecodedCommand :
    (issue ⟨0x20800000, 2, 0⟩ (idleBase 1)).port = .command ⟨0x20800000, 2, 0⟩ :: [] ∧
    decode ⟨0x20800000, 2, 0⟩ = .ok (.cfgw 0x08 2) := by decide

/-- The lowest and highest reserved opcodes, the lowest and highest bits of RSVD and REG, and a legal word. -/
theorem wit_IllegalWordsAreRejected :
    illegalWord 0x70000000 ∧ illegalWord 0xF0000000 ∧ illegalWord 0x30000001 ∧ illegalWord 0x20080000 ∧
    illegalWord 0x10100000 ∧ illegalWord 0x68000000 ∧ ¬illegalWord 0x3FF00000 ∧
    (issue ⟨0x70000000, 0, 0⟩ (runBase 1)).port = .command ⟨0x70000000, 0, 0⟩ :: [] := by
  unfold illegalWord; decide

theorem wit_OpcodeMapDecodes :
    (0x00000000 : CmdWord) &&& 0xFFFFFFFF = 0x00000000 ∧ (0x10000000 : CmdWord) &&& 0xFFFFFFFF = 0x10000000 ∧
    (0x20000000 : CmdWord) &&& 0xF00FFFFF = 0x20000000 ∧ (0x2FF00000 : CmdWord) &&& 0xF00FFFFF = 0x20000000 ∧
    (0x30000000 : CmdWord) &&& 0xF00FFFFF = 0x30000000 ∧ (0x3FF00000 : CmdWord) &&& 0xF00FFFFF = 0x30000000 ∧
    (0x40000000 : CmdWord) &&& 0xFFFFFFFF = 0x40000000 ∧ (0x50000000 : CmdWord) &&& 0xFFFFFFFF = 0x50000000 ∧
    (0x60000000 : CmdWord) &&& 0xFFFFFFFF = 0x60000000 ∧ 7 ≤ (0x70000000 : CmdWord).toNat / 2 ^ 28 ∧
    7 ≤ (0xFFFFFFFF : CmdWord).toNat / 2 ^ 28 := by decide

theorem wit_EncodeOfDecode :
    decode ⟨0x31500000, 7, 9⟩ = .ok (.rdreg 0x15) ∧ decode ⟨0x2FF00000, 7, 9⟩ = .ok (.cfgw 0xFF 7) ∧
    decode ⟨0x50000000, 7, 9⟩ = .ok (.proc 7 9) := by decide

theorem wit_EveryCommandIsAnswered :
    (issue ⟨0xF0000000, 0, 0⟩ (runBase 1)).port = .command ⟨0xF0000000, 0, 0⟩ :: [] := rfl

theorem wit_HardResetClearsEverything :
    { runBase 1 with port := [.hardReset, .hardReset] }.port = .hardReset :: [.hardReset] := rfl

theorem wit_NothingHappensWithoutCommand : (runBase 1).port = [] := rfl

theorem wit_NopCompletes : (issue ⟨0x00000000, 1, 2⟩ (runBase 1)).port = .command ⟨0x00000000, 1, 2⟩ :: [] := rfl

theorem wit_SrstCompletes : (issue ⟨0x10000000, 1, 2⟩ (runBase 1)).port = .command ⟨0x10000000, 1, 2⟩ :: [] := rfl

theorem wit_ClrstCompletes : (issue ⟨0x60000000, 1, 2⟩ (runBase 1)).port = .command ⟨0x60000000, 1, 2⟩ :: [] := rfl

theorem wit_CfgwCompletes : (idleBase 1).mode = .idle := rfl

/-- The ends of every range of unmapped and read-only addresses, and of the configuration registers in RUN. -/
theorem wit_CfgwRejections :
    (∀ a ∈ ([0x02, 0x07, 0x0E, 0x0F, 0x18, 0xFF] : List RegAddr),
      (2 ≤ a.toNat ∧ a.toNat ≤ 7) ∨ a.toNat = 0x0E ∨ a.toNat = 0x0F ∨ 0x18 ≤ a.toNat) ∧
    (∀ a ∈ ([0x00, 0x01, 0x10, 0x15, 0x17] : List RegAddr),
      a.toNat ≤ 1 ∨ (0x10 ≤ a.toNat ∧ a.toNat ≤ 0x15) ∨ a.toNat = 0x17) ∧
    (∀ a ∈ ([0x08, 0x0D] : List RegAddr), 0x08 ≤ a.toNat ∧ a.toNat ≤ 0x0D) ∧ (runBase 1).mode = .run := by decide

theorem wit_RdregCompletes :
    (runBase 1).coefSel.toNat < (runBase 1).ntaps ∧ (runBase 1).ntaps ≤ { runBase 1 with coefSel := 1 }.coefSel.toNat ∧
    State.reset.ntaps ≤ State.reset.coefSel.toNat ∧
    (∀ a ∈ ([0x02, 0x07, 0x0E, 0x0F, 0x18, 0xFF] : List RegAddr),
      (2 ≤ a.toNat ∧ a.toNat ≤ 7) ∨ a.toNat = 0x0E ∨ a.toNat = 0x0F ∨ 0x18 ≤ a.toNat) := by decide

theorem wit_StatusAndCapsFields :
    (runBase 1).lock = .acquiringFrequency ∧ { runBase 1 with lock := .acquiringPhase }.lock = .acquiringPhase ∧
    { runBase 1 with lock := .tracking }.lock = .tracking := by decide

/-- H22: the raw tap 1 of SPS 13, ROLLOFF 0.13, SPAN 2 divides by a zero, so the energy is not finite whatever SIN and COS
are. -/
def degenerateBase : State := { idleBase 1 with cfgSps := 13, cfgRolloff := 0x3FC0A3D70A3D70A4, cfgSpan := 2 }

theorem degenerate_energy : isFinite (cfgEnergy degenerateBase) = false := by
  apply isFinite_rrcEnergyFrom_of_mem
  refine ⟨rrcRaw [1, 1, 0, 0] (rrcTime [0, 1, 0, 0] 13 2 1) 0x3FC0A3D70A3D70A4,
    List.mem_map.2 ⟨1, List.mem_range.2 (by decide), rfl⟩, ?_⟩
  exact isFinite_rrcRaw_of_den _ (by decide +kernel) (by decide +kernel) (by decide +kernel)

/-- Each check at a boundary: SPS 0 and 1, ROLLOFF a zero, NaN and just above 1.0, WINDOW 0 and 2^32, a count of at least
2^32, and a degenerate set. -/
theorem wit_StartRejections :
    (runBase 1).mode = .run ∧
    (idleBase 1).mode = .idle ∧ ({ idleBase 1 with cfgSps := 0 }.cfgSps.toNat < 2) ∧
    ({ idleBase 1 with cfgSps := 1 }.cfgSps.toNat < 2) ∧ 2 ≤ (idleBase 1).cfgSps.toNat ∧
    (([0, 0x8000000000000000, 0x7FF8000000000000, 0x3FF0000000000001] : List F64).all fun r =>
      !(fgt r 0 && fle r 0x3FF0000000000000)) = true ∧
    fgt (idleBase 1).cfgRolloff 0 = true ∧ fle (idleBase 1).cfgRolloff 0x3FF0000000000000 = true ∧
    (idleBase 0).cfgWindow.toNat = 0 ∧ 2 ^ 32 ≤ (idleBase 0x100000000).cfgWindow.toNat ∧
    1 ≤ (idleBase 1).cfgWindow.toNat ∧ (idleBase 0xFFFFFFFF).cfgWindow.toNat < 2 ^ 32 := by decide +kernel

theorem wit_StartRejections_count :
    Config.maxTaps < 2 * { idleBase 1 with cfgSps := 0x80000000, cfgSpan := 1 }.cfgSps.toNat *
      { idleBase 1 with cfgSps := 0x80000000, cfgSpan := 1 }.cfgSpan.toNat + 1 :=
  Nat.lt_of_lt_of_le maxTaps_lt (by decide)

theorem wit_StartRejections_degenerate :
    degenerateBase.mode = .idle ∧ 2 ≤ degenerateBase.cfgSps.toNat ∧ fgt degenerateBase.cfgRolloff 0 = true ∧
    fle degenerateBase.cfgRolloff 0x3FF0000000000000 = true ∧ 1 ≤ degenerateBase.cfgWindow.toNat ∧
    degenerateBase.cfgWindow.toNat < 2 ^ 32 ∧ isFinite (cfgEnergy degenerateBase) = false := by
  refine ⟨?_, ?_, ?_, ?_, ?_, ?_, degenerate_energy⟩ <;> decide +kernel

/-- The smallest SPS, the largest roll-off and the largest window; one tap fits any MAX_TAPS. -/
theorem wit_StartCompletes :
    (idleBase 0xFFFFFFFF).mode = .idle ∧ 2 ≤ (idleBase 0xFFFFFFFF).cfgSps.toNat ∧
    fgt (idleBase 0xFFFFFFFF).cfgRolloff 0 = true ∧ fle (idleBase 0xFFFFFFFF).cfgRolloff 0x3FF0000000000000 = true ∧
    1 ≤ (idleBase 0xFFFFFFFF).cfgWindow.toNat ∧ (idleBase 0xFFFFFFFF).cfgWindow.toNat < 2 ^ 32 ∧
    2 * (idleBase 0xFFFFFFFF).cfgSps.toNat * (idleBase 0xFFFFFFFF).cfgSpan.toNat + 1 ≤ Config.maxTaps ∧
    isFinite (cfgEnergy (idleBase 0xFFFFFFFF)) = true ∧ feq (cfgEnergy (idleBase 0xFFFFFFFF)) 0 = false ∧
    ∀ c ∈ cfgTaps (idleBase 0xFFFFFFFF), isFinite c = true := by
  refine ⟨?_, ?_, ?_, ?_, ?_, ?_, le_of_eq_of_le ?_ one_le_maxTaps, ?_, ?_, List.all_eq_true.1 ?_⟩ <;> decide +kernel

theorem wit_ProcCompletes : (runBase 1).mode = .run := rfl

theorem wit_ProcRejectedInIdle : (idleBase 1).mode = .idle := rfl

theorem wit_RejectionIsPrecise :
    (issue ⟨0x30200000, 0, 0⟩ (runBase 1)).port = .command ⟨0x30200000, 0, 0⟩ :: [] ∧
    step (issue ⟨0x30200000, 0, 0⟩ (runBase 1)) = .next (rejectedWith 2 (runBase 1)) ∧
    (rejectedWith 2 (runBase 1)).response = some ⟨2, 0, 0⟩ ∧ (2 : BitVec 8) ≠ 0x00 :=
  ⟨rfl, eq_next_of_goesTo (by decide +kernel), rfl, by decide⟩

/-- A session with a PROC waiting meets the invariant. -/
theorem wit_StepKeepsInvariant :
    Inv (issue ⟨0x50000000, 0, 0⟩ (runBase 1)) ∧ ∃ t, step (issue ⟨0x50000000, 0, 0⟩ (runBase 1)) = .next t := by
  refine ⟨⟨⟨by decide, .ok, rfl⟩, fun h => absurd h (by decide), fun _ => ?_⟩, exists_next_of_goesOn (by decide +kernel)⟩
  exact ⟨by decide, by decide +kernel, by decide, by decide, ⟨by decide, one_le_maxTaps⟩, by decide,
    List.all_eq_true.1 (by decide), by decide, by decide, by decide, by decide⟩

/-- The clause of IDLE, in a state with a configuration and an error recorded. -/
theorem wit_StepKeepsInvariant_idle : Inv (rejectedWith 0x14 (idleBase 1)) :=
  ⟨⟨by decide, .cfgDegenerate, rfl⟩, fun _ => ⟨by decide, by decide, by decide, by decide⟩, fun h => absurd h (by decide)⟩

/-- The greatest wrapped phase, and a NaN. -/
theorem wit_StepKeepsPhaseWrapped :
    PhaseWrapped (issue ⟨0x50000000, 0, 0⟩ { runBase 1 with ncoPhase := piC }) ∧
    PhaseWrapped { runBase 1 with ncoPhase := 0x7FF8000000000000 } ∧
    ∃ t, step (issue ⟨0x50000000, 0, 0⟩ { runBase 1 with ncoPhase := piC }) = .next t :=
  ⟨.inr (by decide +kernel), .inl (by decide), exists_next_of_goesOn (by decide +kernel)⟩

/-- SRST, a START from a state that no run reaches, and a hard reset change the lock. -/
theorem wit_LockChangesOnlyAlongTransitions_resets :
    let s := issue ⟨0x10000000, 0, 0⟩ { runBase 1 with lock := .tracking }
    let u := issue ⟨0x40000000, 0, 0⟩ { idleBase 1 with lock := .tracking }
    let v := { runBase 1 with lock := .acquiringPhase, port := [.hardReset] }
    (stateOr s (step s)).lock ≠ s.lock ∧ (stateOr u (step u)).lock ≠ u.lock ∧ (stateOr v (step v)).lock ≠ v.lock := by
  decide +kernel

/-- M1 and M8 as whole steps: AcquiringFrequency to AcquiringPhase, and AcquiringPhase to Tracking. -/
theorem wit_LockChangesOnlyAlongTransitions :
    let s := issue ⟨0x50000000, 0x3FF0000000000000, 0⟩ (runBase 1)
    let u := issue ⟨0x50000000, 0x3FF0000000000000, 0⟩ { runBase 1 with lock := .acquiringPhase }
    (∃ t, step s = .next t) ∧ (stateOr s (step s)).lock = .acquiringPhase ∧ s.lock = .acquiringFrequency ∧
    (∃ t, step u = .next t) ∧ (stateOr u (step u)).lock = .tracking ∧ u.lock = .acquiringPhase := by
  refine ⟨exists_next_of_goesOn ?_, ?_, rfl, exists_next_of_goesOn ?_, ?_, rfl⟩ <;> decide +kernel

theorem wit_RunningSessionIsFixed :
    (issue ⟨0x20800000, 4, 0⟩ (runBase 1)).mode = .run ∧
    step (issue ⟨0x20800000, 4, 0⟩ (runBase 1)) = .next (rejectedWith 4 (runBase 1)) ∧
    (rejectedWith 4 (runBase 1)).mode = .run := ⟨rfl, eq_next_of_goesTo (by decide +kernel), rfl⟩

theorem wit_InterleavedCommandsDoNotMatter :
    (runBase 1).mode = .run ∧ (∀ i ∈ [Instr.proc 1 2, .rdreg 0x13, .cfgw 0x08 4], i ≠ .srst) ∧
    (∀ j ∈ [Instr.start, .proc 1 2], j ≠ .srst) ∧
    [Instr.proc 1 2, .rdreg 0x13, .cfgw 0x08 4].filter isProc = [Instr.start, .proc 1 2].filter isProc ∧
    datapath (runBase 1) = datapath { runBase 1 with stErr := true, stLastErr := 4, coefSel := 9 } := by decide

theorem wit_SessionBeginsFromConfiguration :
    let s := idleBase 1
    let t := { idleBase 1 with coefSel := 9, stErr := true, stLastErr := 4, response := some ⟨4, 0, 0⟩ }
    s.mode = .idle ∧ t.mode = .idle ∧ s.cfgSps = t.cfgSps ∧ s.cfgRolloff = t.cfgRolloff ∧ s.cfgSpan = t.cfgSpan ∧
    s.cfgWindow = t.cfgWindow ∧ s.cfgFreqThr = t.cfgFreqThr ∧ s.cfgPhaseThr = t.cfgPhaseThr ∧
    s.freeCount = t.freeCount ∧ (after .start s).mode = .run := by decide +kernel

/-- The smallest and the largest window, and thresholds of both zeros. -/
theorem wit_TrackingAtSecondSample :
    (runBase 2).mode = .run ∧ (runBase 2).lock = .acquiringFrequency ∧ (runBase 2).fad = ⟨0, 0, 0⟩ ∧
    (runBase 2).pad = ⟨0, 0, 0⟩ ∧ 2 ≤ (runBase 2).cfgWindow.toNat ∧ (runBase 0xFFFFFFFF).cfgWindow.toNat < 2 ^ 32 ∧
    fge (runBase 2).cfgFreqThr 0 = true ∧ fge (runBase 2).cfgPhaseThr 0 = true ∧ fge 0x8000000000000000 0 = true := by
  decide +kernel

theorem wit_NanPhaseNeverRecovers :
    { runBase 1 with ncoPhase := 0x7FF8000000000000 }.mode = .run ∧
    1 ≤ { runBase 1 with ncoPhase := 0x7FF8000000000000 }.ntaps ∧ isNaN 0x7FF8000000000000 = true := by decide

theorem fvalue_ne_zero {x : F64} (h : funits x ≠ 0) : fvalue x ≠ 0 := by
  have h2 : (unitScale : ℚ) ≠ 0 := by
    have : unitScale ≠ 0 := by decide +kernel
    exact_mod_cast this
  exact div_ne_zero (by exact_mod_cast h) h2

/-- The greatest finite value, and the smallest subnormal as a divisor. -/
theorem wit_ArithmeticRoundsToNearestEven :
    isFinite 0x7FEFFFFFFFFFFFFF = true ∧ isFinite 0x0000000000000001 = true ∧ fvalue 0x0000000000000001 ≠ 0 :=
  ⟨by decide, by decide, fvalue_ne_zero (by decide +kernel)⟩

theorem wit_SquareRootIsCorrectlyRounded :
    isFinite 0x8000000000000000 = true ∧ 0 ≤ fvalue 0x8000000000000000 ∧ isFinite 0x8000000000000001 = true ∧
    fvalue 0x8000000000000001 < 0 := by
  have hs : (0 : ℚ) < unitScale := by
    have : 0 < unitScale := by decide +kernel
    exact_mod_cast this
  refine ⟨by decide, ?_, by decide, ?_⟩
  · have h : funits 0x8000000000000000 = 0 := by decide +kernel
    rw [fvalue, h]
    exact le_of_eq (by norm_num)
  · have h : funits 0x8000000000000001 = -1 := by decide +kernel
    rw [fvalue, h]
    exact div_neg_of_neg_of_pos (by norm_num) hs

theorem wit_RemainderIsExact :
    isFinite 0x7FEFFFFFFFFFFFFF = true ∧ isFinite 0x0000000000000001 = true ∧ fvalue 0x0000000000000001 ≠ 0 ∧
    isFinite 0x7FF0000000000000 = false ∧ isFinite 0x7FF0000000000001 = false ∧ isNaN 0xFFFFFFFFFFFFFFFF = true ∧
    isZero 0x8000000000000000 = true :=
  ⟨by decide, by decide, fvalue_ne_zero (by decide +kernel), by decide, by decide, by decide, by decide⟩

theorem wit_ComparisonsFollowValues :
    isFinite 0x8000000000000000 = true ∧ isFinite 0x0000000000000000 = true ∧ isNaN 0x7FF0000000000001 = true ∧
    isNaN 0x7FF0000000000000 = false ∧ isNaN 0xFFF0000000000000 = false := by decide

theorem wit_NaturalsConvertRounded : 2 ^ 53 - 1 < 2 ^ 53 := by decide

/-- The greatest finite phase, and the ends of the range. -/
theorem wit_WrapStaysInRange :
    isFinite 0x7FEFFFFFFFFFFFFF = true ∧ isFinite piC = true ∧ flt (fneg piC) piC = true ∧ fle piC piC = true ∧
    flt (fneg piC) 0xC00921FB54442D17 = true ∧ fle 0xC00921FB54442D17 piC = true := by decide +kernel

theorem wit_WrapCornerCases : isFinite 0x7FF0000000000000 = false ∧ isFinite 0xFFF8000000000000 = false := by decide

theorem wit_SinAndCosProperties : isFinite 0x7FEFFFFFFFFFFFFF = true ∧ isFinite 0xFFF0000000000000 = false := by decide

theorem wit_Atan2Properties :
    isNaN 0x7FF0000000000000 = false ∧ fgt 0x0000000000000001 0 = true ∧ flt 0x8000000000000001 0 = true ∧
    isNaN 0x7FF8000000000000 = true := by decide +kernel

theorem wit_AddingZeroKeepsRate : isNaN 0x8000000000000000 = false ∧ isNaN 0x7FF0000000000000 = false := by decide

/-- The smallest grid, the longest one below 2^32 taps, the ends of its indices, and the greatest SPS of a span of 0. -/
theorem wit_SampleTimesAreSymmetric :
    0 < rrcCount 2 1 ∧ 2 * 2 * 1 < rrcCount 2 1 ∧ 2 ^ 64 - 1 < 2 ^ 64 ∧
    (2 : ℕ) ≤ 2 ∧ rrcCount 2 1 < 2 ^ 32 ∧ 0x7FFFFFFF < 2 ^ 64 ∧ rrcCount 0x7FFFFFFF 1 < 2 ^ 32 ∧ (1 : ℕ) ≤ 1 ∧ 1 ≤ 2 * 1 := by
  decide

/-- Each branch for `r = 1.0`: the centre, `t = -0.25`, and `t = 0.5`; and the ends of the tap indices. -/
theorem wit_RawTapsFollowBranches :
    feq 0x8000000000000000 0 = true ∧
    feq 0xBFD0000000000000 0 = false ∧ feq (fabs 0xBFD0000000000000) (fdiv [1, 1] one (fmul [0, 1] four one)) = true ∧
    feq 0x3FE0000000000000 0 = false ∧ feq (fabs 0x3FE0000000000000) (fdiv [1, 1] one (fmul [0, 1] four one)) = false ∧
    0 < 2 * 2 * 1 + 1 ∧ 4 < 2 * 2 * 1 + 1 := by decide +kernel

theorem wit_CoefficientsAreSymmetric :
    exec .start (idleBase 1) = .next (answeredWith 0 0 (runBase 1)) ∧ (answeredWith 0 0 (runBase 1)).mode = .run ∧
    (idleBase 1).mode = .idle ∧ 0 < (answeredWith 0 0 (runBase 1)).ntaps := ⟨test_start, rfl, rfl, by decide⟩

/-- The smallest and the greatest roll-off, and the greatest window. -/
theorem wit_SpanZeroGivesUnitTap :
    (idleBase 0xFFFFFFFF).mode = .idle ∧ 2 ≤ (idleBase 0xFFFFFFFF).cfgSps.toNat ∧
    fgt (idleBase 0xFFFFFFFF).cfgRolloff 0 = true ∧ fle (idleBase 0xFFFFFFFF).cfgRolloff 0x3FF0000000000000 = true ∧
    1 ≤ (idleBase 0xFFFFFFFF).cfgWindow.toNat ∧ (idleBase 0xFFFFFFFF).cfgWindow.toNat < 2 ^ 32 ∧
    (idleBase 0xFFFFFFFF).cfgSpan = 0 ∧ fgt 0x0000000000000001 0 = true ∧
    fle 0x0000000000000001 0x3FF0000000000000 = true := by decide +kernel

theorem wit_RootOfSquareIsIdentity :
    fsign 0x4008000000000000 = false ∧ 2 ^ 52 ≤ fmag (fmul [] 0x4008000000000000 0x4008000000000000) ∧
    isFinite (fmul [] 0x4008000000000000 0x4008000000000000) = true ∧
    2 ^ 52 ≤ fmag (fmul [] 0x2000000000000000 0x2000000000000000) ∧
    isFinite (fmul [] 0x5FE0000000000000 0x5FE0000000000000) = true := by decide +kernel

theorem wit_TapBufferHoldsNewestFirst : (List.replicate 5 C0).length = 5 := rfl

theorem wit_ImpulseResponseIsCoefficients :
    (∀ c ∈ ([0x8000000000000000, 0x7FEFFFFFFFFFFFFF] : List F64), isFinite c = true) ∧
    ([0x8000000000000000, 0x7FEFFFFFFFFFFFFF] : List F64) ≠ [] := ⟨List.all_eq_true.1 (by decide), by decide⟩

theorem wit_LoopFilterHasOneWindowLatency :
    1 ≤ 1 ∧ 1 < 2 ^ 32 ∧ ([one] : List F64).length = 1 ∧ ([two] : List F64).length = 1 := by decide

theorem wit_LoopFilterChangesOnlyAtDump :
    (AccDump.mk 1 0 0).count.toNat ≠ 2 ∧ (AccDump.mk 2 0 0).count.toNat = 2 := by decide

theorem wit_DelayLineDelaysInputs : 1 ≤ Config.delayCount := by decide

theorem wit_DelayLineRealizationsAgree : 1 ≤ Config.delayCount ∧ 1 ≤ 3 := by decide

/-- The smallest negative real part, with a zero and an infinite imaginary part. -/
theorem wit_LeftHalfPlaneErrorIsNotPositive :
    flt 0x8000000000000001 0 = true ∧ isNaN 0x8000000000000000 = false ∧ isNaN 0x7FF0000000000000 = false := by
  decide +kernel

/-- The branches at their boundaries: a real part of `-0.0`, and the smallest negative one with a positive and with a zero
imaginary part. -/
theorem wit_PhaseDetectorCornerValues :
    isNaN 0x7FF8000000000000 = true ∧ fge 0x8000000000000000 0 = true ∧ fge 0x8000000000000001 0 = false ∧
    fgt 0x0000000000000001 0 = true ∧ fgt 0x0000000000000000 0 = false := by decide +kernel

theorem wit_ThresholdPredicatesAreComplementary :
    isNaN 0x7FF0000000000000 = false ∧ isNaN 0x7FF8000000000000 = true ∧ flt 0x8000000000000001 0 = true := by
  decide +kernel

/-- Each class of operands: NaN, infinities of both signs, finite, both zeros, a zero sum, and results that are not NaN. -/
theorem wit_ArithmeticSpecialCases :
    isNaN 0x7FF8000000000000 = true ∧ isInf 0x7FF0000000000000 = true ∧ isInf 0xFFF0000000000000 = true ∧
    fsign 0x7FF0000000000000 ≠ fsign 0xFFF0000000000000 ∧ isFinite 0x8000000000000001 = true ∧
    isZero 0x8000000000000000 = true ∧ isZero 0x0000000000000001 = false ∧ fvalue 0 + fvalue 0 = 0 ∧
    isNaN (fmul [] 0x8000000000000001 0x8000000000000001) = false ∧ isNaN (fdiv [] one 0x8000000000000000) = false ∧
    isZero (frem [] (fneg twoPi) twoPi) = true := by
  refine ⟨?_, ?_, ?_, ?_, ?_, ?_, ?_, ?_, ?_, ?_, ?_⟩
  case refine_8 =>
    have h : funits 0 = 0 := by decide +kernel
    rw [fvalue, h]; norm_num
  all_goals decide +kernel

end Sys2Proof.Tests
end

section
/-! What `SIN`, `COS` and `ATAN2` are known to do, whatever their open values are (00_scope.md R8, R9). -/

namespace Sys2Proof.Machine

/-! ## Magnitudes and the comparisons with them -/

theorem fle_iff (x y : F64) : fle x y = true ↔ isNaN x = false ∧ isNaN y = false ∧ fkey x ≤ fkey y := by
  unfold fle; simp [and_assoc]

theorem flt_iff (x y : F64) : flt x y = true ↔ isNaN x = false ∧ isNaN y = false ∧ fkey x < fkey y := by
  unfold flt; simp [and_assoc]

theorem flt_zero_iff (x : F64) : flt x 0 = true ↔ isNaN x = false ∧ isZero x = false ∧ fsign x = true := by
  have hnan : isNaN 0 = false := by decide
  have hkey : fkey 0 = 0 := by decide
  rw [flt_iff, hnan, hkey]
  unfold fkey isZero
  cases fsign x <;> simp
  omega

/-- `neg` exchanges the two sides of zero. -/
theorem fgt_zero_eq (x : F64) : fgt x 0 = flt (fneg x) 0 := by
  have hnan : isNaN 0 = false := by decide
  have hkey : fkey 0 = 0 := by decide
  rw [Bool.eq_iff_iff, fgt, flt_iff, flt_iff, hnan, hkey]
  simp

theorem fgt_zero_iff (x : F64) : fgt x 0 = true ↔ isNaN x = false ∧ isZero x = false ∧ fsign x = false := by
  rw [fgt_zero_eq, flt_zero_iff]; simp

theorem isFinite_of_isZero {x : F64} (h : isZero x = true) : isFinite x = true := by
  simp only [isZero, isFinite, decide_eq_true_eq] at h ⊢; rw [h]; decide

theorem isNaN_of_fmag_le {x m : F64} (hm : isNaN m = false) (h : fmag x ≤ fmag m) : isNaN x = false := by
  simp only [isNaN, decide_eq_false_iff_not] at hm ⊢; omega

/-- A magnitude bound is a range: `x` lies in `[-m, m]` when its bits 62:0 are at most those of a positive `m`. -/
theorem fle_of_fmag_le {x m : F64} (hs : fsign m = false) (hm : isNaN m = false) (h : fmag x ≤ fmag m) :
    fle (fneg m) x = true ∧ fle x m = true := by
  have hx := isNaN_of_fmag_le hm h
  have hkey : -fkey m ≤ fkey x ∧ fkey x ≤ fkey m := by
    unfold fkey; rw [hs]; cases fsign x <;> simp <;> omega
  simp [fle_iff, hx, hm, hkey]

/-- The magnitude of an open value is the one drawn, so it keeps the bound of its type. -/
theorem fmag_ofOpenBits_lt {n : Nat} (hn : n ≤ 2 ^ 63) (b : Bool × Fin n) : fmag (ofOpenBits b) < n := by
  rw [ofOpenBits, fmag_fpack, Nat.mod_eq_of_lt (b.2.isLt.trans_le hn)]
  exact b.2.isLt

/-! ## SIN and COS -/

/-- `SIN` through `fabs` on both sides of zero. -/
theorem fsin_eq (x : F64) : fsin x = if fsign x then fneg (sinPos (fabs x)) else sinPos (fabs x) := by
  unfold fsin
  cases h : fsign x
  · rw [fabs_of_pos h]
  · rfl

theorem fcos_eq (x : F64) : fcos x = cosPos (fabs x) := by unfold fcos; rfl

theorem fsin_fneg (x : F64) : fsin (fneg x) = fneg (fsin x) := by
  cases h : fsign x <;> simp [fsin_eq, h]

theorem fcos_fneg (x : F64) : fcos (fneg x) = fcos x := by simp [fcos_eq]

@[simp] theorem fmag_fsin (x : F64) : fmag (fsin x) = fmag (sinPos (fabs x)) := by
  rw [fsin_eq]; split_ifs <;> simp

theorem isNaN_fsin (x : F64) : isNaN (fsin x) = isNaN (sinPos (fabs x)) := by simp [isNaN]

theorem sinPos_of_isZero {x : F64} (h : isZero x = true) : sinPos x = 0 := by simp [sinPos, h]

theorem cosPos_of_isZero {x : F64} (h : isZero x = true) : cosPos x = one := by simp [cosPos, h]

theorem isNaN_sinPos {x : F64} (h : isFinite x = false) : isNaN (sinPos x) = true := by
  have hz : isZero x = false := Bool.eq_false_iff.2 fun hz => by simp [isFinite_of_isZero hz] at h
  simp [sinPos, hz, h, isNaN_fnan]

theorem isNaN_cosPos {x : F64} (h : isFinite x = false) : isNaN (cosPos x) = true := by
  have hz : isZero x = false := Bool.eq_false_iff.2 fun hz => by simp [isFinite_of_isZero hz] at h
  simp [cosPos, hz, h, isNaN_fnan]

theorem fmag_sinPos_le {x : F64} (h : isFinite x = true) : fmag (sinPos x) ≤ fmag one := by
  unfold sinPos
  rw [if_pos h]
  split_ifs
  · decide
  · exact Nat.le_of_lt_succ (fmag_ofOpenBits_lt (by decide) _)

theorem fmag_cosPos_le {x : F64} (h : isFinite x = true) : fmag (cosPos x) ≤ fmag one := by
  unfold cosPos
  rw [if_pos h]
  split_ifs
  · exact le_rfl
  · exact Nat.le_of_lt_succ (fmag_ofOpenBits_lt (by decide) _)

/-- 00_scope.md R8 (a). -/
theorem fsin_fcos_of_isZero {x : F64} (h : isZero x = true) : fsin x = x ∧ fcos x = one := by
  have ha : isZero (fabs x) = true := by simpa using h
  have hm : fmag x = 0 := by simpa [isZero] using h
  constructor
  · rw [fsin_eq, sinPos_of_isZero ha]
    apply f64_ext
    · cases fsign x <;> decide
    · rw [hm]; cases fsign x <;> decide
  · rw [fcos_eq, cosPos_of_isZero ha]

/-- 00_scope.md R8 (c). -/
theorem fsin_fcos_range {x : F64} (h : isFinite x = true) :
    (fle (fneg one) (fsin x) = true ∧ fle (fsin x) one = true) ∧
      (fle (fneg one) (fcos x) = true ∧ fle (fcos x) one = true) := by
  have ha : isFinite (fabs x) = true := by simpa using h
  have hsin : fmag (fsin x) ≤ fmag one := by simpa using fmag_sinPos_le ha
  have hcos : fmag (fcos x) ≤ fmag one := by simpa [fcos_eq] using fmag_cosPos_le ha
  exact ⟨fle_of_fmag_le (by decide) (by decide) hsin, fle_of_fmag_le (by decide) (by decide) hcos⟩

/-- 00_scope.md R8 (d). -/
theorem isNaN_fsin_fcos {x : F64} (h : isFinite x = false) : isNaN (fsin x) = true ∧ isNaN (fcos x) = true := by
  have ha : isFinite (fabs x) = false := by simpa using h
  exact ⟨(isNaN_fsin x).trans (isNaN_sinPos ha), by rw [fcos_eq]; exact isNaN_cosPos ha⟩

/-- Settles O40: both functions are defined from their values at operands of sign bit 0, so that parity is the definition's
and the other properties are those of the positive side. -/
theorem sinAndCosProperties : Obligations.SinAndCosProperties := by
  unfold Obligations.SinAndCosProperties
  obtain ⟨hsin, hcos⟩ := fsin_fcos_of_isZero (x := 0x0000000000000000) (by decide)
  obtain ⟨hsin', hcos'⟩ := fsin_fcos_of_isZero (x := 0x8000000000000000) (by decide)
  exact ⟨⟨hcos, hcos', hsin, hsin'⟩, fun x => ⟨fsin_fneg x, fcos_fneg x, fsin_fcos_range, isNaN_fsin_fcos⟩⟩

/-! ## ATAN2 -/

/-- `ATAN2` through `fabs` of its first operand on both sides of zero. -/
theorem fatan2_eq (y x : F64) :
    fatan2 y x = if fsign y then fneg (atan2Pos (fabs y) x) else atan2Pos (fabs y) x := by
  unfold fatan2
  cases h : fsign y
  · rw [fabs_of_pos h]
  · rfl

theorem fatan2_fneg (y x : F64) : fatan2 (fneg y) x = fneg (fatan2 y x) := by
  cases h : fsign y <;> simp [fatan2_eq, h]

theorem fatan2_of_pos {y : F64} (h : fsign y = false) (x : F64) : fatan2 y x = atan2Pos y x := by
  simp [fatan2_eq, h, fabs_of_pos h]

@[simp] theorem fmag_fatan2 (y x : F64) : fmag (fatan2 y x) = fmag (atan2Pos (fabs y) x) := by
  rw [fatan2_eq]; split_ifs <;> simp

theorem isNaN_fatan2 (y x : F64) : isNaN (fatan2 y x) = isNaN (atan2Pos (fabs y) x) := by simp [isNaN]

theorem isNaN_atan2Pos {y x : F64} (h : isNaN x = true ∨ isNaN y = true) : isNaN (atan2Pos y x) = true := by
  have h' : (isNaN y || isNaN x) = true := by simpa [or_comm] using h
  rw [atan2Pos, if_pos h', isNaN_fnan]

theorem fmag_atan2Pos_le {y x : F64} (hx : isNaN x = false) (hy : isNaN y = false) :
    fmag (atan2Pos y x) ≤ fmag piC := by
  have hnan : ¬(isNaN y || isNaN x) = true := by simp [hx, hy]
  unfold atan2Pos
  rw [if_neg hnan]
  split_ifs
  · exact le_rfl
  · decide
  · decide
  · decide
  · decide
  · exact Nat.le_of_lt_succ (fmag_ofOpenBits_lt (by decide) _)

theorem atan2Pos_zero {x : F64} (hx : isNaN x = false) : atan2Pos 0 x = if fsign x then piC else 0 := by
  have hnan : ¬(isNaN 0 || isNaN x) = true := by rw [hx]; decide
  rw [atan2Pos, if_neg hnan, if_pos (by decide)]

theorem atan2Pos_of_isZero_right {y x : F64} (hy : isNaN y = false) (hy0 : isZero y = false) (hx : isZero x = true) :
    atan2Pos y x = halfPi := by
  have hm : fmag x = 0 := by simpa [isZero] using hx
  have hnan : isNaN x = false := by simp [isNaN, hm]
  simp [atan2Pos, hy, hy0, hx, hnan]

/-- The result is NaN for a NaN operand only, and in `[-PI, PI]` otherwise (00_scope.md R9). -/
theorem fatan2_range {x y : F64} (hx : isNaN x = false) (hy : isNaN y = false) :
    fle (fneg piC) (fatan2 y x) = true ∧ fle (fatan2 y x) piC = true := by
  have h : fmag (fatan2 y x) ≤ fmag piC := by simpa using fmag_atan2Pos_le hx (y := fabs y) (by simpa using hy)
  exact fle_of_fmag_le (by decide) (by decide) h

/-- 00_scope.md R9 (c). -/
theorem isNaN_fatan2_of_nan {x y : F64} (h : isNaN x = true ∨ isNaN y = true) : isNaN (fatan2 y x) = true := by
  rw [isNaN_fatan2]; exact isNaN_atan2Pos (by simpa using h)

theorem fatan2_zero {x : F64} (hx : isNaN x = false) : fatan2 0 x = if fsign x then piC else 0 := by
  rw [fatan2_of_pos (by decide), atan2Pos_zero hx]

/-- The value at `y = -0.0` is the negated value at `+0.0`. -/
theorem fatan2_negZero {x : F64} (hx : isNaN x = false) :
    fatan2 0x8000000000000000 x = fneg (if fsign x then piC else 0) := by
  have h : (0x8000000000000000 : F64) = fneg 0 := by decide
  rw [h, fatan2_fneg, fatan2_zero hx]

theorem fatan2_of_isZero_right {y x : F64} (hy : fgt y 0 = true) (hx : isZero x = true) : fatan2 y x = halfPi := by
  obtain ⟨hnan, hzero, hsign⟩ := (fgt_zero_iff y).1 hy
  rw [fatan2_of_pos hsign, atan2Pos_of_isZero_right hnan hzero hx]

theorem fatan2_neg_of_isZero_right {y x : F64} (hy : flt y 0 = true) (hx : isZero x = true) :
    fatan2 y x = fneg halfPi := by
  have hpos : fgt (fneg y) 0 = true := by rw [fgt_zero_eq, fneg_fneg, hy]
  rw [← fatan2_of_isZero_right hpos hx, fatan2_fneg, fneg_fneg]

theorem fatan2_one_neg_one : fatan2 one (fneg one) = piQuarter3 := by
  rw [fatan2_of_pos (by decide)]; decide

theorem fatan2_one_one : fatan2 one one = piQuarter := by
  rw [fatan2_of_pos (by decide)]; decide

/-- The operands `x` for which R9 (a) puts the origin's argument at zero: no NaN, and sign bit 0. -/
theorem pos_or_posZero {x : F64} (h : fgt x 0 = true ∨ x = 0x0000000000000000) : isNaN x = false ∧ fsign x = false := by
  rcases h with h | rfl
  · obtain ⟨hnan, -, hsign⟩ := (fgt_zero_iff x).1 h
    exact ⟨hnan, hsign⟩
  · decide

/-- The operands `x` for which R9 (a) puts it at PI: no NaN, and sign bit 1. -/
theorem neg_or_negZero {x : F64} (h : flt x 0 = true ∨ x = 0x8000000000000000) : isNaN x = false ∧ fsign x = true := by
  rcases h with h | rfl
  · obtain ⟨hnan, -, hsign⟩ := (flt_zero_iff x).1 h
    exact ⟨hnan, hsign⟩
  · decide

/-- Settles O41: ATAN2 is defined from its values at a first operand of sign bit 0, so that a case for a negative `y` is the
negated one for `-y`. -/
theorem atan2Properties : Obligations.Atan2Properties := by
  unfold Obligations.Atan2Properties
  intro x y
  refine ⟨fatan2_range, fun h => ?posX, fun h => ?negX, fun h => ?posY, fun h => ?negY, fatan2_one_neg_one, ?corner,
    fatan2_one_one, isNaN_fatan2_of_nan, fatan2_fneg y x⟩
  case posX =>
    obtain ⟨hnan, hsign⟩ := pos_or_posZero h
    simpa [hsign, fneg] using And.intro (fatan2_zero hnan) (fatan2_negZero hnan)
  case negX =>
    obtain ⟨hnan, hsign⟩ := neg_or_negZero h
    simpa [hsign] using And.intro (fatan2_zero hnan) (fatan2_negZero hnan)
  case posY => exact ⟨fatan2_of_isZero_right h (by decide), fatan2_of_isZero_right h (by decide)⟩
  case negY => exact ⟨fatan2_neg_of_isZero_right h (by decide), fatan2_neg_of_isZero_right h (by decide)⟩
  case corner => exact (fatan2_fneg one (fneg one)).trans (congrArg fneg fatan2_one_neg_one)

end Sys2Proof.Machine
end

section
/-! The fields of STATUS and CAPS, and what RDREG and CFGW do at a mapped address (10_state.md R43; 48_host_commands.md
R223, R224). -/

namespace Sys2Proof.Machine

/-! ## Responses and the register commands at a mapped address -/

theorem respond_ok_eq_answeredWith (d0 d1 : Word) (s : State) : respond .ok d0 d1 s = answeredWith d0 d1 s := rfl

theorem reject_eq_rejectedWith (c : RspCode) (s : State) : reject c s = rejectedWith (rspByte c) s := rfl

theorem exec_rdreg_of_mapped {a : RegAddr} {r : RegName} (h : regOfAddr a = some r) (s : State) :
    exec (.rdreg a) s = .next (answeredWith (readReg r s) 0 s) := by
  rcases exec_rdreg a s with ⟨hnone, -⟩ | ⟨r', hr', hexec⟩
  · simp [h] at hnone
  · obtain rfl : r = r' := Option.some.inj (h.symm.trans hr')
    rw [hexec, respond_ok_eq_answeredWith]

theorem cfgwReject_of_readOnly {a : RegAddr} {r : RegName} (h : regOfAddr a = some r) (hr : regIsReadOnly r = true)
    (s : State) : cfgwReject a s = some .readOnly := by
  simp [cfgwReject, h, hr]

theorem exec_cfgw_of_cfgwReject {a : RegAddr} {s : State} {c : RspCode} (h : cfgwReject a s = some c) (v : Word) :
    exec (.cfgw a v) s = .next (rejectedWith (rspByte c) s) := by
  rcases exec_cfgw a v s with ⟨c', hc', hexec⟩ | ⟨hnone, -⟩
  · obtain rfl : c = c' := Option.some.inj (h.symm.trans hc')
    rw [hexec, reject_eq_rejectedWith]
  · simp [h] at hnone

/-- A write to a read-only register is rejected with READ_ONLY in both modes. -/
theorem exec_cfgw_of_readOnly {a : RegAddr} {r : RegName} (h : regOfAddr a = some r) (hr : regIsReadOnly r = true)
    (v : Word) (s : State) : exec (.cfgw a v) s = .next (rejectedWith 0x03 s) :=
  exec_cfgw_of_cfgwReject (cfgwReject_of_readOnly h hr s) v

/-! ## The fields of STATUS -/

/-- STATUS from bit 5 on: the last error between reserved zeros. -/
theorem statusWord_above_flags {start : Nat} (h : 5 ≤ start) (len : Nat) (s : State) :
    (statusWord s).extractLsb' start len =
      ((0 : BitVec 48) ++ s.stLastErr ++ (0 : BitVec 3)).extractLsb' (start - 5) len := by
  unfold statusWord
  rw [BitVec.extractLsb'_append_eq_of_le (by omega), BitVec.extractLsb'_append_eq_of_le (by omega),
    BitVec.extractLsb'_append_eq_of_le (by omega), BitVec.extractLsb'_append_eq_of_le (by omega)]
  rfl

theorem statusWord_run (s : State) : (statusWord s).getLsbD 0 = decide (s.mode = .run) := by
  have hbit : (statusWord s).getLsbD 0 = (runBit s.mode).getLsbD 0 := by
    simp only [statusWord, BitVec.getLsbD_append, Nat.zero_lt_one, if_true]
  rw [hbit]
  cases s.mode <;> rfl

theorem statusWord_lock (s : State) : (statusWord s).extractLsb' 1 2 = lockBits s.lock := by
  unfold statusWord
  rw [BitVec.extractLsb'_append_eq_of_le le_rfl]
  exact BitVec.extractLsb'_append_eq_right

theorem statusWord_nf (s : State) : (statusWord s).getLsbD 3 = s.stNf := by
  simp only [statusWord, BitVec.getLsbD_append]
  simp

theorem statusWord_err (s : State) : (statusWord s).getLsbD 4 = s.stErr := by
  simp only [statusWord, BitVec.getLsbD_append]
  simp

theorem statusWord_reserved (s : State) : (statusWord s).extractLsb' 5 3 = 0 :=
  (statusWord_above_flags le_rfl 3 s).trans BitVec.extractLsb'_append_eq_right

theorem statusWord_lastErr (s : State) : (statusWord s).extractLsb' 8 8 = s.stLastErr := by
  rw [statusWord_above_flags (by decide), BitVec.extractLsb'_append_eq_of_le le_rfl]
  exact BitVec.extractLsb'_append_eq_right

theorem statusWord_reservedHigh (s : State) : (statusWord s).extractLsb' 16 48 = 0 := by
  rw [statusWord_above_flags (by decide), BitVec.extractLsb'_append_eq_of_le (by decide)]
  exact BitVec.extractLsb'_append_eq_left

/-! ## The fields of CAPS -/

/-- MAX_TAPS, open as it is, fits its field. -/
theorem capsWord_maxTaps : (capsWord.extractLsb' 0 32).toNat = Config.maxTaps := by
  have hfield : capsWord.extractLsb' 0 32 = BitVec.ofNat 32 Config.maxTaps := BitVec.extractLsb'_append_eq_right
  rw [hfield, BitVec.toNat_ofNat, Nat.mod_eq_of_lt maxTaps_lt]

theorem capsWord_delayCount : capsWord.extractLsb' 32 8 = BitVec.ofNat 8 Config.delayCount := by
  unfold capsWord
  rw [BitVec.extractLsb'_append_eq_of_le le_rfl]
  exact BitVec.extractLsb'_append_eq_right

theorem capsWord_reserved : capsWord.extractLsb' 40 24 = 0 := by
  unfold capsWord
  rw [BitVec.extractLsb'_append_eq_of_le (by decide)]
  exact BitVec.extractLsb'_append_eq_left

/-- Settles O18: STATUS and CAPS are concatenations of their fields, so that a field is read back by peeling off the parts
above and below it. -/
theorem statusAndCapsFields : Obligations.StatusAndCapsFields := by
  unfold Obligations.StatusAndCapsFields
  intro s
  have hstatus : regOfAddr 0x00 = some .status := regOfAddr_regAddr .status
  have hcaps : regOfAddr 0x01 = some .caps := regOfAddr_regAddr .caps
  have hlock (l : Lock) (h : s.lock = l) : (readReg .status s).extractLsb' 1 2 = lockBits l := h ▸ statusWord_lock s
  exact ⟨exec_rdreg_of_mapped hstatus s, exec_rdreg_of_mapped hcaps s,
    fun v => ⟨exec_cfgw_of_readOnly hstatus rfl v s, exec_cfgw_of_readOnly hcaps rfl v s⟩,
    statusWord_run s, hlock .acquiringFrequency, hlock .acquiringPhase, hlock .tracking, statusWord_nf s,
    statusWord_err s, statusWord_reserved s, statusWord_lastErr s, statusWord_reservedHigh s,
    capsWord_maxTaps, capsWord_delayCount, capsWord_reserved⟩

end Sys2Proof.Machine
end

section
/-! Which command words are legal, and the command that the decoder selects for each opcode (30_encoding.md R81, R82,
R85, R86). -/

namespace Sys2Proof.Machine

/-! ## A command word is its three fields -/

theorem toNat_cmdOp (w : CmdWord) : (cmdOp w).toNat = w.toNat / 2 ^ 28 := by
  rw [cmdOp, BitVec.extractLsb'_toNat, Nat.shiftRight_eq_div_pow]
  have := w.isLt
  omega

theorem toNat_cmdReg (w : CmdWord) : (cmdReg w).toNat = w.toNat / 2 ^ 20 % 2 ^ 8 := by
  rw [cmdReg, BitVec.extractLsb'_toNat, Nat.shiftRight_eq_div_pow]

theorem toNat_cmdRsvd (w : CmdWord) : (cmdRsvd w).toNat = w.toNat % 2 ^ 20 := by
  rw [cmdRsvd, BitVec.extractLsb'_toNat, Nat.shiftRight_zero]

theorem eq_of_fields_eq {v w : CmdWord} (hop : cmdOp v = cmdOp w) (hreg : cmdReg v = cmdReg w)
    (hrsvd : cmdRsvd v = cmdRsvd w) : v = w := by
  simp only [← BitVec.toNat_inj, toNat_cmdOp, toNat_cmdReg, toNat_cmdRsvd] at hop hreg hrsvd
  exact BitVec.eq_of_toNat_eq (by omega)

theorem cmdOp_and (w m : CmdWord) : cmdOp (w &&& m) = cmdOp w &&& cmdOp m := BitVec.extractLsb'_and

theorem cmdReg_and (w m : CmdWord) : cmdReg (w &&& m) = cmdReg w &&& cmdReg m := BitVec.extractLsb'_and

theorem cmdRsvd_and (w m : CmdWord) : cmdRsvd (w &&& m) = cmdRsvd w &&& cmdRsvd m := BitVec.extractLsb'_and

/-- A mask that keeps `OP` and `RSVD` compares both of them, and `REG` as far as it keeps it. -/
theorem and_eq_cmdWord_iff {w m : CmdWord} {op : BitVec 4} (hop : cmdOp m = BitVec.allOnes 4)
    (hrsvd : cmdRsvd m = BitVec.allOnes 20) :
    w &&& m = cmdWord op 0 ↔ cmdOp w = op ∧ cmdRsvd w = 0 ∧ cmdReg w &&& cmdReg m = 0 := by
  have hop' : cmdOp (w &&& m) = cmdOp w := by rw [cmdOp_and, hop, BitVec.and_allOnes]
  have hrsvd' : cmdRsvd (w &&& m) = cmdRsvd w := by rw [cmdRsvd_and, hrsvd, BitVec.and_allOnes]
  rw [← hop', ← hrsvd', ← cmdReg_and]
  constructor
  · intro h
    rw [h]
    exact ⟨Laws.cmdOp_cmdWord op 0, Laws.cmdRsvd_cmdWord op 0, Laws.cmdReg_cmdWord op 0⟩
  · rintro ⟨h1, h2, h3⟩
    exact eq_of_fields_eq (h1.trans (Laws.cmdOp_cmdWord op 0).symm) (h3.trans (Laws.cmdReg_cmdWord op 0).symm)
      (h2.trans (Laws.cmdRsvd_cmdWord op 0).symm)

/-! ## The rows of the opcode map, by opcode -/

/-- The opcodes that select a command (30_encoding.md R85). -/
def assignedOps : List (BitVec 4) := [0x0, 0x1, 0x2, 0x3, 0x4, 0x5, 0x6]

/-- The match and mask columns of an opcode: the mask leaves `REG` out for CFGW and RDREG (30_encoding.md R85). -/
def opcodeRow (op : BitVec 4) : CmdWord × CmdWord :=
  (cmdWord op 0, if op = 0x2 ∨ op = 0x3 then 0xF00FFFFF else 0xFFFFFFFF)

theorem opcodeRows_eq_map : opcodeRows = assignedOps.map opcodeRow := by decide

theorem mem_assignedOps_iff {op : BitVec 4} : op ∈ assignedOps ↔ op.toNat ≤ 6 := by revert op; decide

theorem and_opcodeRow_iff {w : CmdWord} {op : BitVec 4} :
    w &&& (opcodeRow op).2 = (opcodeRow op).1 ↔
      cmdOp w = op ∧ cmdRsvd w = 0 ∧ (op = 0x2 ∨ op = 0x3 ∨ cmdReg w = 0) := by
  dsimp only [opcodeRow]
  by_cases hreg : op = 0x2 ∨ op = 0x3
  · have hmask : cmdReg w &&& cmdReg 0xF00FFFFF = 0 := BitVec.and_zero
    rw [if_pos hreg, and_eq_cmdWord_iff (by decide) (by decide)]
    tauto
  · have hmask : cmdReg w &&& cmdReg 0xFFFFFFFF = cmdReg w := BitVec.and_allOnes
    rw [if_neg hreg, and_eq_cmdWord_iff (by decide) (by decide), hmask]
    tauto

/-! ## Illegal words -/

theorem illegalWord_iff {w : CmdWord} :
    illegalWord w ↔
      7 ≤ (cmdOp w).toNat ∨ cmdRsvd w ≠ 0 ∨ (cmdReg w ≠ 0 ∧ cmdOp w ≠ 0x2 ∧ cmdOp w ≠ 0x3) := by
  simp only [illegalWord, ne_eq, ← BitVec.toNat_inj, toNat_cmdOp, toNat_cmdReg, toNat_cmdRsvd]
  rfl

/-- The row of an assigned opcode matches exactly the legal words of that opcode. -/
theorem and_opcodeRow_iff_legal {w : CmdWord} {op : BitVec 4} (hop : op ∈ assignedOps) :
    w &&& (opcodeRow op).2 = (opcodeRow op).1 ↔ cmdOp w = op ∧ ¬illegalWord w := by
  have hle := mem_assignedOps_iff.1 hop
  rw [and_opcodeRow_iff, illegalWord_iff]
  constructor
  · rintro ⟨rfl, hrsvd, hreg⟩
    have hlt : ¬7 ≤ (cmdOp w).toNat := by omega
    tauto
  · rintro ⟨rfl, hlegal⟩
    tauto

theorem cmdOp_mem_assignedOps {w : CmdWord} (h : ¬illegalWord w) : cmdOp w ∈ assignedOps := by
  rw [mem_assignedOps_iff]
  by_contra hgt
  exact h (illegalWord_iff.2 (.inl (by omega)))

theorem no_row_of_illegalWord {w : CmdWord} (h : illegalWord w) : ∀ r ∈ opcodeRows, w &&& r.2 ≠ r.1 := by
  rw [opcodeRows_eq_map]
  intro r hr hmatch
  obtain ⟨op, hop, rfl⟩ := List.mem_map.1 hr
  exact ((and_opcodeRow_iff_legal hop).1 hmatch).2 h

/-- The rows that match a legal word are those of its opcode, which is listed once. -/
theorem one_row_of_legal {w : CmdWord} (h : ¬illegalWord w) :
    (opcodeRows.filter fun r => w &&& r.2 = r.1).length = 1 := by
  have hrow (op : BitVec 4) (hop : op ∈ assignedOps) :
      w &&& (opcodeRow op).2 = (opcodeRow op).1 ↔ op = cmdOp w := by
    rw [and_opcodeRow_iff_legal hop, and_iff_left h, eq_comm]
  calc (opcodeRows.filter fun r => w &&& r.2 = r.1).length
      = assignedOps.countP fun op => w &&& (opcodeRow op).2 = (opcodeRow op).1 := by
        rw [← List.countP_eq_length_filter, opcodeRows_eq_map, List.countP_map]; rfl
    _ = assignedOps.count (cmdOp w) := List.countP_congr fun op hop => by simpa using hrow op hop
    _ = 1 := List.count_eq_one_of_mem (by decide) (cmdOp_mem_assignedOps h)

/-! ## The decoder, opcode by opcode -/

theorem decodeNoReg_of_reg_zero {c : Command} (h : cmdReg c.cmd = 0) (i : Instr) : decodeNoReg c i = .ok i := if_pos h

theorem decodeNoReg_of_reg_ne_zero {c : Command} (h : cmdReg c.cmd ≠ 0) (i : Instr) :
    decodeNoReg c i = .error .strayRegister := if_neg h

theorem decode_of_rsvd_ne_zero {c : Command} (h : cmdRsvd c.cmd ≠ 0) : decode c = .error .reservedBits := if_pos h

section
variable {c : Command} (hrsvd : cmdRsvd c.cmd = 0)
include hrsvd

theorem decode_of_op_nop (h : cmdOp c.cmd = 0x0) : decode c = decodeNoReg c .nop := by simp [decode, hrsvd, h]

theorem decode_of_op_srst (h : cmdOp c.cmd = 0x1) : decode c = decodeNoReg c .srst := by simp [decode, hrsvd, h]

theorem decode_of_op_cfgw (h : cmdOp c.cmd = 0x2) : decode c = .ok (.cfgw (cmdReg c.cmd) c.data0) := by
  simp [decode, hrsvd, h]

theorem decode_of_op_rdreg (h : cmdOp c.cmd = 0x3) : decode c = .ok (.rdreg (cmdReg c.cmd)) := by
  simp [decode, hrsvd, h]

theorem decode_of_op_start (h : cmdOp c.cmd = 0x4) : decode c = decodeNoReg c .start := by simp [decode, hrsvd, h]

theorem decode_of_op_proc (h : cmdOp c.cmd = 0x5) : decode c = decodeNoReg c (.proc c.data0 c.data1) := by
  simp [decode, hrsvd, h]

theorem decode_of_op_clrst (h : cmdOp c.cmd = 0x6) : decode c = decodeNoReg c .clrst := by simp [decode, hrsvd, h]

theorem decode_of_op_reserved (h : 7 ≤ (cmdOp c.cmd).toNat) : decode c = .error .reservedOpcode := by
  have hop : cmdOp c.cmd ∉ assignedOps := by rw [mem_assignedOps_iff]; omega
  simp only [assignedOps, List.mem_cons, not_or] at hop
  obtain ⟨h0, h1, h2, h3, h4, h5, h6, -⟩ := hop
  rw [decode, if_neg (not_not.2 hrsvd), if_neg h0, if_neg h1, if_neg h2, if_neg h3, if_neg h4, if_neg h5, if_neg h6]

/-- Every assigned opcode but those of CFGW and RDREG has no register operand. -/
theorem exists_decode_eq_decodeNoReg (hop : cmdOp c.cmd ∈ assignedOps) (h2 : cmdOp c.cmd ≠ 0x2)
    (h3 : cmdOp c.cmd ≠ 0x3) : ∃ i, decode c = decodeNoReg c i := by
  simp only [assignedOps, List.mem_cons, List.not_mem_nil, or_false] at hop
  rcases hop with h | h | h | h | h | h | h
  · exact ⟨_, decode_of_op_nop hrsvd h⟩
  · exact ⟨_, decode_of_op_srst hrsvd h⟩
  · exact absurd h h2
  · exact absurd h h3
  · exact ⟨_, decode_of_op_start hrsvd h⟩
  · exact ⟨_, decode_of_op_proc hrsvd h⟩
  · exact ⟨_, decode_of_op_clrst hrsvd h⟩

end

/-- The decoder reports each of R86's three causes. -/
theorem exists_decode_error_of_illegalWord {c : Command} (h : illegalWord c.cmd) : ∃ e, decode c = .error e := by
  by_cases hrsvd : cmdRsvd c.cmd = 0
  · by_cases hop : 7 ≤ (cmdOp c.cmd).toNat
    · exact ⟨_, decode_of_op_reserved hrsvd hop⟩
    · obtain ⟨hreg, h2, h3⟩ : cmdReg c.cmd ≠ 0 ∧ cmdOp c.cmd ≠ 0x2 ∧ cmdOp c.cmd ≠ 0x3 := by
        simpa [hrsvd, hop] using illegalWord_iff.1 h
      obtain ⟨i, hi⟩ := exists_decode_eq_decodeNoReg hrsvd (mem_assignedOps_iff.2 (by omega)) h2 h3
      exact ⟨_, hi.trans (decodeNoReg_of_reg_ne_zero hreg i)⟩
  · exact ⟨_, decode_of_rsvd_ne_zero hrsvd⟩

/-! ## The step on an illegal command, and the obligations -/

theorem step_of_decode_error {s : State} {c : Command} {rest : List PortEvent} {e : DecodeError}
    (hport : s.port = .command c :: rest) (he : decode c = .error e) :
    step s = .next (reject .illegalCmd { s with port := rest }) := by
  simp only [step, takeEvent_cons hport, he]

/-- Settles O2: each row of the opcode map matches exactly the legal words of its opcode, and the decoder answers an error
for every illegal word. -/
theorem illegalWordsAreRejected : Obligations.IllegalWordsAreRejected := by
  unfold Obligations.IllegalWordsAreRejected
  refine ⟨fun w => ⟨no_row_of_illegalWord, one_row_of_legal⟩, fun s c rest hport hillegal => ?_⟩
  obtain ⟨e, he⟩ := exists_decode_error_of_illegalWord hillegal
  exact step_of_decode_error hport he

/-- A word that matches the row of an opcode without a register operand has `REG = 0`, so its command decodes. -/
theorem decode_of_row_noReg {c : Command} {op : BitVec 4} {i : Instr} (hne : op ≠ 0x2 ∧ op ≠ 0x3)
    (hdecode : cmdRsvd c.cmd = 0 → cmdOp c.cmd = op → decode c = decodeNoReg c i)
    (h : c.cmd &&& (opcodeRow op).2 = (opcodeRow op).1) : decode c = .ok i := by
  obtain ⟨hop, hrsvd, hreg⟩ := and_opcodeRow_iff.1 h
  rw [hdecode hrsvd hop, decodeNoReg_of_reg_zero (by tauto)]

/-- A word that matches the row of an opcode with a register operand has no condition on `REG`. -/
theorem decode_of_row_reg {c : Command} {op : BitVec 4} {i : Instr}
    (hdecode : cmdRsvd c.cmd = 0 → cmdOp c.cmd = op → decode c = .ok i)
    (h : c.cmd &&& (opcodeRow op).2 = (opcodeRow op).1) : decode c = .ok i := by
  obtain ⟨hop, hrsvd, -⟩ := and_opcodeRow_iff.1 h
  exact hdecode hrsvd hop

/-- Settles O3: a row fixes `OP` and `RSVD`, and `REG` where the command has no register operand, so that the decoder takes
the branch of its opcode; a reserved opcode makes the word illegal. -/
theorem opcodeMapDecodes : Obligations.OpcodeMapDecodes := by
  unfold Obligations.OpcodeMapDecodes
  intro c
  refine ⟨decode_of_row_noReg (op := 0x0) (by decide) decode_of_op_nop,
    decode_of_row_noReg (op := 0x1) (by decide) decode_of_op_srst, decode_of_row_reg (op := 0x2) decode_of_op_cfgw,
    decode_of_row_reg (op := 0x3) decode_of_op_rdreg, decode_of_row_noReg (op := 0x4) (by decide) decode_of_op_start,
    decode_of_row_noReg (op := 0x5) (by decide) decode_of_op_proc,
    decode_of_row_noReg (op := 0x6) (by decide) decode_of_op_clrst, fun hop i hi => ?_⟩
  obtain ⟨e, he⟩ := exists_decode_error_of_illegalWord (.inl hop)
  cases he.symm.trans hi

end Sys2Proof.Machine
end

section
/-! The exact remainder, and the phase wrapping built on it (00_scope.md R7; 40_phase_math.md R100 to R103). -/

namespace Sys2Proof.Machine

/-! ## Which numbers of units are magnitudes -/

/-- A significand of at most 53 bits at any scale is the magnitude of some word. -/
theorem mul_two_pow_mem_range_magUnits {s : Nat} (hs : s < 2 ^ 53) (k : Nat) : s * 2 ^ k ∈ Set.range magUnits := by
  induction k generalizing s with
  | zero => exact ⟨s, by rw [magUnits_sub hs, pow_zero, mul_one]⟩
  | succ k ih =>
    by_cases h : 2 ^ 52 ≤ s
    · exact ⟨_, magUnits_normal (k + 1) s h hs⟩
    · have hdouble : s * 2 ^ (k + 1) = 2 * s * 2 ^ k := by ring
      exact hdouble ▸ ih (by omega)

theorem exists_magUnits_eq_mul_two_pow (m : Nat) :
    ∃ k s, magUnits m = s * 2 ^ k ∧ s < 2 ^ 53 ∧ (k = 0 ∨ 2 ^ 52 ≤ s) := by
  rcases mag_cases m with h | ⟨k, s, rfl, h1, h2⟩
  · exact ⟨0, m, by rw [magUnits_sub (by omega), pow_zero, mul_one], by omega, .inl rfl⟩
  · exact ⟨k, s, magUnits_normal k s h1 h2, h2, .inr h1⟩

/-- Both candidates for the nearest remainder of two magnitudes are magnitudes, the upper one where it is the nearer. With
the divisor at the finer scale they are multiples of that scale below the divisor; with the dividend at the finer scale
they are the dividend itself and a difference no larger than it. -/
theorem remainder_mem_range_magUnits (mx : Nat) {my : Nat} (hy : 0 < my) :
    magUnits mx % magUnits my ∈ Set.range magUnits ∧
    (magUnits my ≤ 2 * (magUnits mx % magUnits my) →
      magUnits my - magUnits mx % magUnits my ∈ Set.range magUnits) := by
  have hpos := magUnits_pos hy
  obtain ⟨kx, sx, hx, hsx, -⟩ := exists_magUnits_eq_mul_two_pow mx
  obtain ⟨ky, sy, hy, hsy, hnormal⟩ := exists_magUnits_eq_mul_two_pow my
  rcases le_or_gt ky kx with hk | hk
  · obtain ⟨j, rfl⟩ := Nat.exists_eq_add_of_le' hk
    have hsy0 : 0 < sy := Nat.pos_of_mul_pos_right (hy ▸ hpos)
    have hmod : magUnits mx % magUnits my = sx * 2 ^ j % sy * 2 ^ ky := by
      rw [hx, hy, pow_add, ← mul_assoc, Nat.mul_mod_mul_right]
    have hlt := Nat.mod_lt (sx * 2 ^ j) hsy0
    rw [hmod, hy, ← Nat.sub_mul]
    exact ⟨mul_two_pow_mem_range_magUnits (by omega) ky, fun _ => mul_two_pow_mem_range_magUnits (by omega) ky⟩
  · obtain ⟨j, rfl⟩ := Nat.exists_eq_add_of_lt hk
    have hlt : magUnits mx < magUnits my := by
      have hsy52 : 2 ^ 52 ≤ sy := hnormal.resolve_left (by omega)
      calc magUnits mx = sx * 2 ^ kx := hx
        _ < 2 ^ 53 * 2 ^ kx := Nat.mul_lt_mul_of_pos_right hsx (by positivity)
        _ ≤ 2 ^ 52 * 2 ^ (kx + j + 1) := by
          rw [show 2 ^ 52 * 2 ^ (kx + j + 1) = 2 ^ 53 * 2 ^ kx * 2 ^ j by ring]
          exact Nat.le_mul_of_pos_right _ (by positivity)
        _ ≤ magUnits my := hy ▸ Nat.mul_le_mul_right _ hsy52
    rw [Nat.mod_eq_of_lt hlt]
    refine ⟨⟨mx, rfl⟩, fun hnear => ?_⟩
    have hdiff : magUnits my - magUnits mx = (sy * 2 ^ (j + 1) - sx) * 2 ^ kx := by
      rw [hx, hy, Nat.sub_mul, show kx + j + 1 = j + 1 + kx by omega, pow_add _ (j + 1), ← mul_assoc]
    have hle : (sy * 2 ^ (j + 1) - sx) * 2 ^ kx ≤ sx * 2 ^ kx := by omega
    have := Nat.le_of_mul_le_mul_right hle (by positivity)
    exact hdiff ▸ mul_two_pow_mem_range_magUnits (by omega) kx

/-- A magnitude of some word, at most that of a finite one, is not changed by rounding. -/
theorem fround_of_mem_range {u m : Nat} (hu : u ∈ Set.range magUnits) (hm : m < infMag) (hle : u ≤ magUnits m)
    (b : Bool) : isFinite (fround b u 1) = true ∧ magUnits (fmag (fround b u 1)) = u := by
  obtain ⟨n, rfl⟩ := hu
  have hn : n ≤ m := magUnits_strictMono.le_iff_le.1 hle
  have hmag : fmag (fround b (magUnits n) 1) = n := by
    rw [fmag_fround, ← mul_one (magUnits n), roundMag_exact (by omega) 1 one_pos]
  simp only [isFinite, hmag, decide_eq_true_eq, and_true]
  omega

theorem fround_zero (b : Bool) : fround b 0 1 = fpack b 0 := by
  simpa [magUnits_sub] using fround_exact (x := fpack b 0) (by simp [isFinite, infMag])

theorem not_nan_and_not_inf_of_isFinite {x : F64} (h : isFinite x = true) : isNaN x = false ∧ isInf x = false := by
  rcases class_cases x with ⟨-, -, hfin⟩ | ⟨-, -, hfin⟩ | ⟨hnan, hinf, -⟩
  · simp [h] at hfin
  · simp [h] at hfin
  · exact ⟨hnan, hinf⟩

theorem fmag_pos {x : F64} (h : isZero x = false) : 0 < fmag x := by
  simpa [isZero, Nat.pos_iff_ne_zero] using h

theorem natAbs_funits (x : F64) : (funits x).natAbs = magUnits (fmag x) := by
  unfold funits; split <;> simp

/-! ## The remainder -/

/-- The quotient is rounded down only for a remainder of at most half the divisor, and up only for one of at least half. -/
theorem roundQuot_cases (n d : Nat) :
    (roundQuot n d = n / d ∧ 2 * (n % d) ≤ d) ∨ (roundQuot n d ≠ n / d ∧ d ≤ 2 * (n % d)) := by
  unfold roundQuot
  split_ifs with h <;> simp only [Bool.or_eq_true, Bool.and_eq_true, decide_eq_true_eq, beq_iff_eq] at h
  · exact .inr ⟨by omega, by omega⟩
  · exact .inl ⟨rfl, by omega⟩

/-- A quotient of at most a half rounds to zero, at the tie too. -/
theorem roundQuot_of_le_half {n d : Nat} (hd : 0 < d) (h : 2 * n ≤ d) : roundQuot n d = n / d := by
  have hlt : n < d := by omega
  simp [roundQuot, Nat.mod_eq_of_lt hlt, Nat.div_eq_of_lt hlt, h]

section
variable {x y : F64} (hx : isFinite x = true) (hy : isFinite y = true) (hy0 : isZero y = false)
include hx hy hy0

theorem frem_eq (q : Site) :
    frem q x y =
      if roundQuot (magUnits (fmag x)) (magUnits (fmag y)) = magUnits (fmag x) / magUnits (fmag y) then
        fround (fsign x) (magUnits (fmag x) % magUnits (fmag y)) 1
      else fround (!fsign x) (magUnits (fmag y) - magUnits (fmag x) % magUnits (fmag y)) 1 := by
  obtain ⟨hxn, hxi⟩ := not_nan_and_not_inf_of_isFinite hx
  obtain ⟨hyn, hyi⟩ := not_nan_and_not_inf_of_isFinite hy
  simp [frem, hxn, hxi, hyn, hyi, hy0]

theorem frem_of_le_half (q : Site) (h : 2 * magUnits (fmag x) ≤ magUnits (fmag y)) : frem q x y = x := by
  have hpos : 0 < magUnits (fmag y) := magUnits_pos (fmag_pos hy0)
  rw [frem_eq hx hy hy0, if_pos (roundQuot_of_le_half hpos h), Nat.mod_eq_of_lt (by omega), fround_exact hx]

/-- Operands of one magnitude leave a zero with the sign of the dividend. -/
theorem frem_of_fmag_eq (q : Site) (h : fmag x = fmag y) : frem q x y = fpack (fsign x) 0 := by
  have hpos : 0 < magUnits (fmag y) := magUnits_pos (fmag_pos hy0)
  have hquot : roundQuot (magUnits (fmag y)) (magUnits (fmag y)) = magUnits (fmag y) / magUnits (fmag y) := by
    simpa [Nat.div_self hpos] using roundQuot_of_dvd 1 _ hpos
  rw [frem_eq hx hy hy0, h, if_pos hquot, Nat.mod_self, fround_zero]

/-- `REM` is exact: a finite number of at most half the divisor, which differs from the dividend by a multiple of it. -/
theorem frem_spec (q : Site) :
    isFinite (frem q x y) = true ∧ 2 * magUnits (fmag (frem q x y)) ≤ magUnits (fmag y) ∧
    funits y ∣ funits x - funits (frem q x y) := by
  have hinf : fmag y < infMag := by simpa [isFinite] using hy
  obtain ⟨hlow, hhigh⟩ := remainder_mem_range_magUnits (fmag x) (fmag_pos hy0)
  have hlt := Nat.mod_lt (magUnits (fmag x)) (magUnits_pos (fmag_pos hy0))
  have hdvd : (magUnits (fmag y) : ℤ) ∣ magUnits (fmag x) - (magUnits (fmag x) % magUnits (fmag y) : ℕ) := by
    push_cast
    exact Int.dvd_self_sub_emod
  rw [frem_eq hx hy hy0, ← Int.natAbs_dvd, natAbs_funits]
  rcases roundQuot_cases (magUnits (fmag x)) (magUnits (fmag y)) with ⟨hquot, hhalf⟩ | ⟨hquot, hhalf⟩
  · obtain ⟨hfin, hmag⟩ := fround_of_mem_range hlow hinf hlt.le (fsign x)
    rw [if_pos hquot]
    refine ⟨hfin, by omega, ?_⟩
    rw [funits, funits, fsign_fround, hmag]
    cases fsign x
    · exact hdvd
    · simpa [neg_add_eq_sub] using dvd_sub_comm.1 hdvd
  · obtain ⟨hfin, hmag⟩ := fround_of_mem_range (hhigh hhalf) hinf (Nat.sub_le _ _) (!fsign x)
    rw [if_neg hquot]
    refine ⟨hfin, by omega, ?_⟩
    have hdvd' := dvd_add hdvd (dvd_refl (magUnits (fmag y) : ℤ))
    rw [funits, funits, fsign_fround, hmag, Nat.cast_sub hlt.le]
    cases fsign x
    · simpa [sub_add_eq_add_sub, sub_sub_eq_add_sub] using hdvd'
    · simpa [sub_eq_add_neg, add_comm, add_left_comm, add_assoc] using (dvd_neg.2 hdvd')

end

theorem isNaN_frem_of_not_finite {x : F64} (h : isFinite x = false) (q : Site) (y : F64) :
    isNaN (frem q x y) = true := by
  rcases class_cases x with ⟨hnan, -, -⟩ | ⟨-, hinf, -⟩ | ⟨-, -, hfin⟩
  · simp [frem, hnan]
  · simp [frem, hinf]
  · simp [hfin] at h

theorem exists_fvalue_eq_of_funits_dvd {x y r : F64} (h : funits y ∣ funits x - funits r) :
    ∃ n : ℤ, fvalue r = fvalue x - n * fvalue y := by
  obtain ⟨n, hn⟩ := h
  have hr : (funits r : ℚ) = funits x - funits y * n := by
    rw [← Int.cast_mul, ← hn]; push_cast; ring
  exact ⟨n, by rw [fvalue, fvalue, fvalue, hr]; ring⟩

/-! ## Phase wrapping -/

theorem isFinite_twoPi : isFinite twoPi = true := by decide

theorem isZero_twoPi : isZero twoPi = false := by decide

theorem magUnits_fmag_twoPi : magUnits (fmag twoPi) = 2 * magUnits (fmag piC) := by decide +kernel

theorem funits_twoPi : funits twoPi = funits piC - funits (fneg piC) := by decide +kernel

theorem fadd_fneg_piC_twoPi (q : Site) : fadd q (fneg piC) twoPi = piC := by
  have hval : fadd [] (fneg piC) twoPi = piC := by decide +kernel
  rcases fadd_site q [] (fneg piC) twoPi with h | ⟨-, hnan⟩
  · exact h.trans hval
  · exact absurd hnan (by rw [hval]; decide)

theorem natAbs_fkey (x : F64) : (fkey x).natAbs = fmag x := by
  unfold fkey; split <;> simp

theorem fsign_eq_of_fkey_ne_zero {x : F64} (h : fkey x ≠ 0) : fsign x = decide (fkey x < 0) := by
  rw [fkey] at h ⊢
  cases hs : fsign x
  · simp
  · simpa [hs, Nat.pos_iff_ne_zero] using h

/-- Only the zeros are two words of one value. -/
theorem eq_of_fkey_eq {x y : F64} (hx : fkey x ≠ 0) (h : fkey x = fkey y) : x = y := by
  have hmag : fmag x = fmag y := by rw [← natAbs_fkey, h, natAbs_fkey]
  exact f64_ext (by rw [fsign_eq_of_fkey_ne_zero hx, fsign_eq_of_fkey_ne_zero (h ▸ hx), h]) hmag

theorem fkey_piC_pos : 0 < fkey piC := by decide

/-- In `[-PI, PI]` only `-PI` itself is at most `-PI`. -/
theorem fle_fneg_piC_iff {θ : F64} (hle : fmag θ ≤ fmag piC) : fle θ (fneg piC) = true ↔ θ = fneg piC := by
  have hθ : isNaN θ = false := isNaN_of_fmag_le (by decide) hle
  constructor
  · intro h
    obtain ⟨-, -, hkey⟩ := (fle_iff _ _).1 h
    have hpi := fkey_piC_pos
    rw [← natAbs_fkey, ← natAbs_fkey] at hle
    rw [fkey_fneg] at hkey
    exact eq_of_fkey_eq (by omega) (by rw [fkey_fneg]; omega)
  · rintro rfl
    exact (fle_iff _ _).2 ⟨hθ, hθ, le_rfl⟩

/-- The interval `(-PI, PI]` by magnitudes. -/
theorem in_wrap_range_iff {θ : F64} :
    flt (fneg piC) θ = true ∧ fle θ piC = true ↔ fmag θ ≤ fmag piC ∧ θ ≠ fneg piC := by
  constructor
  · rintro ⟨hlow, hhigh⟩
    obtain ⟨-, -, hlow⟩ := (flt_iff _ _).1 hlow
    obtain ⟨-, -, hhigh⟩ := (fle_iff _ _).1 hhigh
    refine ⟨?_, by rintro rfl; exact lt_irrefl _ hlow⟩
    rw [fkey_fneg] at hlow
    rw [← natAbs_fkey, ← natAbs_fkey]
    omega
  · rintro ⟨hle, hne⟩
    obtain ⟨hlow, hhigh⟩ := fle_of_fmag_le (by decide) (by decide) hle
    obtain ⟨hpi, hθ, -⟩ := (fle_iff _ _).1 hlow
    have hlt := mt (fle_fneg_piC_iff hle).1 hne
    simp only [fle_iff, hpi, hθ, true_and, not_le] at hlt
    exact ⟨(flt_iff _ _).2 ⟨hpi, hθ, hlt⟩, hhigh⟩

/-- The remainder by `TWO_PI` lies in `[-PI, PI]`. -/
theorem fmag_frem_twoPi_le {θ : F64} (hθ : isFinite θ = true) (q : Site) : fmag (frem q θ twoPi) ≤ fmag piC := by
  obtain ⟨-, hhalf, -⟩ := frem_spec hθ isFinite_twoPi isZero_twoPi q
  rw [magUnits_fmag_twoPi] at hhalf
  exact magUnits_strictMono.le_iff_le.1 (by omega)

/-- `WRAP` takes the remainder, but for a remainder of `-PI`, which becomes `PI`. -/
theorem wrap_of_isFinite {θ : F64} (hθ : isFinite θ = true) (q : Site) :
    wrap q θ = if frem (0 :: q) θ twoPi = fneg piC then piC else frem (0 :: q) θ twoPi := by
  simp only [wrap, fle_fneg_piC_iff (fmag_frem_twoPi_le hθ _)]
  split
  · next h => rw [h, fadd_fneg_piC_twoPi]
  · rfl

theorem wrap_of_fmag_le {θ : F64} (hle : fmag θ ≤ fmag piC) (q : Site) :
    wrap q θ = if θ = fneg piC then piC else θ := by
  have hpi : fmag piC < infMag := by decide
  have hθ : isFinite θ = true := by simp only [isFinite, decide_eq_true_eq]; omega
  have hhalf : 2 * magUnits (fmag θ) ≤ magUnits (fmag twoPi) := by
    rw [magUnits_fmag_twoPi]
    exact Nat.mul_le_mul_left 2 (magUnits_strictMono.monotone hle)
  rw [wrap_of_isFinite hθ, frem_of_le_half hθ isFinite_twoPi isZero_twoPi _ hhalf]

theorem wrap_eq_self {θ : F64} (h : flt (fneg piC) θ = true ∧ fle θ piC = true) (q : Site) : wrap q θ = θ := by
  obtain ⟨hle, hne⟩ := in_wrap_range_iff.1 h
  rw [wrap_of_fmag_le hle, if_neg hne]

theorem wrap_of_fmag_eq_twoPi {θ : F64} (h : fmag θ = fmag twoPi) (q : Site) : wrap q θ = fpack (fsign θ) 0 := by
  have hθ : isFinite θ = true := by simp only [isFinite, h]; decide
  have hne : fpack (fsign θ) 0 ≠ fneg piC := by cases fsign θ <;> decide
  rw [wrap_of_isFinite hθ, frem_of_fmag_eq hθ isFinite_twoPi isZero_twoPi _ h, if_neg hne]

theorem wrap_in_range {θ : F64} (hθ : isFinite θ = true) (q : Site) :
    flt (fneg piC) (wrap q θ) = true ∧ fle (wrap q θ) piC = true := by
  rw [in_wrap_range_iff, wrap_of_isFinite hθ]
  split
  · decide
  · next hne => exact ⟨fmag_frem_twoPi_le hθ _, hne⟩

theorem funits_twoPi_dvd_sub_wrap {θ : F64} (hθ : isFinite θ = true) (q : Site) :
    funits twoPi ∣ funits θ - funits (wrap q θ) := by
  obtain ⟨-, -, hdvd⟩ := frem_spec hθ isFinite_twoPi isZero_twoPi (0 :: q)
  rw [wrap_of_isFinite hθ]
  split
  · next h =>
    rw [h] at hdvd
    have hsub := dvd_sub hdvd (dvd_refl (funits twoPi))
    rwa [show funits θ - funits (fneg piC) - funits twoPi = funits θ - funits piC by rw [funits_twoPi]; ring] at hsub
  · exact hdvd

theorem isNaN_wrap_of_not_finite {θ : F64} (h : isFinite θ = false) (q : Site) : isNaN (wrap q θ) = true := by
  have hrem := isNaN_frem_of_not_finite h (0 :: q) twoPi
  have hle : ¬fle (frem (0 :: q) θ twoPi) (fneg piC) = true := by simp [fle_iff, hrem]
  rwa [wrap, if_neg hle]

/-- Settles O38: the remainder by `TWO_PI` is exact and lies in `[-PI, PI]`, `WRAP` sends the one excluded end to the other,
and it keeps what lies in the range. -/
theorem wrapStaysInRange : Obligations.WrapStaysInRange := by
  unfold Obligations.WrapStaysInRange
  intro q q' θ hθ
  exact ⟨wrap_in_range hθ q, wrap_eq_self (wrap_in_range hθ q) q',
    exists_fvalue_eq_of_funits_dvd (funits_twoPi_dvd_sub_wrap hθ q), fun hlow hhigh => wrap_eq_self ⟨hlow, hhigh⟩ q⟩

/-- Settles O39: four of the phases are at most `PI` in magnitude, two have the magnitude of `TWO_PI`, and a remainder of a
number that is not finite is NaN. -/
theorem wrapCornerCases : Obligations.WrapCornerCases := by
  unfold Obligations.WrapCornerCases
  intro q
  exact ⟨wrap_of_fmag_le (by decide) q, wrap_of_fmag_le (by decide) q, wrap_of_fmag_le (by decide) q,
    wrap_of_fmag_le (by decide) q, wrap_of_fmag_eq_twoPi rfl q, wrap_of_fmag_eq_twoPi (by decide) q,
    fun θ hθ => isNaN_wrap_of_not_finite hθ q⟩

/-! ## The NCO -/

theorem ncoAdvance_eq (q : Site) (phase rate offset : F64) :
    ncoAdvance q phase rate offset = wrap (2 :: q) (fadd (1 :: q) phase (fadd (0 :: q) rate offset)) := by
  rw [ncoAdvance]

theorem ncoGen_eq (q : Site) (offset : F64) (s : State) :
    ncoGen q offset s =
      (⟨fcos s.ncoPhase, fsin s.ncoPhase⟩,
        { s with ncoPhase := wrap (2 :: q) (fadd (1 :: q) s.ncoPhase (fadd (0 :: q) s.ncoRate offset)) }) := by
  rw [ncoGen, ncoOut, ncoAdvance_eq]

/-- Settles O57: the definitions are the formulas; the two NCO variants share one update. -/
theorem ncoAndComplexFormulas : Obligations.NcoAndComplexFormulas := by
  unfold Obligations.NcoAndComplexFormulas
  exact ⟨fun q v offset s => ⟨rfl, ncoGen_eq q offset s, rfl⟩, fun q c a b => ⟨rfl, rfl, rfl, rfl⟩⟩

end Sys2Proof.Machine
end

section
/-! The matched filter: its shift, and its sums by recursion in the number of terms (43_fir.md R151 to R153). -/

namespace Sys2Proof.Machine

/-! ## The sums, one term at a time -/

@[simp] theorem firSum_zero (q : Site) (coef : List F64) (taps : List Cplx) : firSum q 0 coef taps = C0 := rfl

/-- The term of the highest index is added last. -/
theorem firSum_succ (q : Site) (n : ℕ) (coef : List F64) (taps : List Cplx) :
    firSum q (n + 1) coef taps =
      cadd (1 :: n :: q) (firSum q n coef taps) (cscale (0 :: n :: q) (coef.getD n 0) (taps.getD n C0)) := by
  simp only [firSum, List.range_succ, List.foldl_append, List.foldl_cons, List.foldl_nil]

@[simp] theorem firSumReal_zero (q : Site) (coef taps : List F64) : firSumReal q 0 coef taps = 0 := rfl

theorem firSumReal_succ (q : Site) (n : ℕ) (coef taps : List F64) :
    firSumReal q (n + 1) coef taps =
      fadd (1 :: n :: q) (firSumReal q n coef taps) (fmul (0 :: n :: q) (coef.getD n 0) (taps.getD n 0)) := by
  simp only [firSumReal, List.range_succ, List.foldl_append, List.foldl_cons, List.foldl_nil]

/-! ## The calls -/

/-- The call writes the tap buffer and no other field. -/
theorem firProc_eq (q : Site) (x : Cplx) (s : State) :
    firProc q x s =
      (firSum q s.ntaps s.coef (firShift s.ntaps x s.taps), { s with taps := firShift s.ntaps x s.taps }) := by
  rw [firProc]

theorem firProcReal_eq (q : Site) (coef : List F64) (x : F64) (taps : List F64) :
    firProcReal q coef x taps =
      (firSumReal q coef.length coef (firShift coef.length x taps), firShift coef.length x taps) := by
  rw [firProcReal]

/-- Settles O58: `range (n + 1)` ends in `n`, so that a sum of one more term is the shorter sum with that term added last;
the parts of the term are those of `CADD` and `CSCALE`. -/
theorem matchedFilterSumsInIndexOrder : Obligations.MatchedFilterSumsInIndexOrder := by
  unfold Obligations.MatchedFilterSumsInIndexOrder
  refine ⟨fun q x s => ?call, fun q coef taps => ⟨?empty, fun n => ?term⟩,
    fun q coef taps x => ⟨?callReal, ?emptyReal, fun n => ?termReal⟩⟩
  case call => exact firProc_eq q x s
  case empty => exact firSum_zero q coef taps
  case term => rw [firSum_succ, cadd, cscale]
  case callReal => exact firProcReal_eq q coef x taps
  case emptyReal => exact firSumReal_zero q coef taps
  case termReal => exact firSumReal_succ q n coef taps

end Sys2Proof.Machine
end

section
/-! One call of an accumulate-and-dump block, in a window and at its end (44_accum_dump.md R160). -/

namespace Sys2Proof.Machine

section
variable {w : ℕ} {b : AccDump}

/-! ## The dump on entry -/

theorem adDump_of_count_ne (h : b.count.toNat ≠ w) : adDump w b = b := if_neg h

theorem adDump_of_count_eq (h : b.count.toNat = w) : adDump w b = ⟨0, 0, b.acc⟩ := if_pos h

/-! ## The call -/

theorem adProc_of_count_ne (q : Site) (x : F64) (h : b.count.toNat ≠ w) :
    adProc q w b x = (b.last, ⟨b.count + 1, fadd q b.acc x, b.last⟩) := by
  rw [adProc, adDump_of_count_ne h]

theorem adProc_of_count_eq (q : Site) (x : F64) (h : b.count.toNat = w) :
    adProc q w b x = (b.acc, ⟨1, fadd q 0 x, b.acc⟩) := by
  have first_counted : (0 : BitVec 32) + 1 = 1 := BitVec.zero_add 1
  rw [adProc, adDump_of_count_eq h, first_counted]

end

/-- Settles O51: the block dumps on entry exactly when its window is full, and then accumulates the same way. -/
theorem loopFilterChangesOnlyAtDump : Obligations.LoopFilterChangesOnlyAtDump := by
  unfold Obligations.LoopFilterChangesOnlyAtDump
  exact fun q w b x => ⟨adProc_of_count_ne q x, adProc_of_count_eq q x⟩

end Sys2Proof.Machine
end

section
/-! The delay line is a queue: the buffer read round from the index holds the values that wait, the oldest first
(45_delay_line.md R170, R171). -/

namespace Sys2Proof.Machine

/-! ## The queue of the waiting values -/

/-- The delay line has `k` slots and its index is one of them. -/
def DelayLine.HasSlots (k : ℕ) (d : DelayLine) : Prop := d.buf.length = k ∧ d.idx < k

/-- The values that wait in the delay line, the oldest first. -/
def DelayLine.waiting (d : DelayLine) : List F64 := d.buf.rotate d.idx

theorem waiting_of_idx_zero (buf : List F64) : DelayLine.waiting ⟨buf, 0⟩ = buf := buf.rotate_zero

theorem waiting_eq_cons {d : DelayLine} (h : d.idx < d.buf.length) :
    d.waiting = d.buf.getD d.idx 0 :: (d.buf.drop (d.idx + 1) ++ d.buf.take d.idx) := by
  rw [DelayLine.waiting, List.rotate_eq_drop_append_take h.le, List.drop_eq_getElem_cons h, List.cons_append,
    List.getD_eq_getElem _ _ h]

/-- Once the oldest slot is overwritten and the index is past it, that slot is the newest. -/
theorem waiting_of_set {d : DelayLine} (h : d.idx < d.buf.length) (x : F64) :
    DelayLine.waiting ⟨d.buf.set d.idx x, (d.idx + 1) % d.buf.length⟩ =
      d.buf.drop (d.idx + 1) ++ d.buf.take d.idx ++ [x] := by
  have unwrapped : (d.buf.set d.idx x).rotate ((d.idx + 1) % d.buf.length) = (d.buf.set d.idx x).rotate (d.idx + 1) := by
    rw [← List.rotate_mod (d.buf.set d.idx x) (d.idx + 1), List.length_set]
  have newer_kept : (d.buf.set d.idx x).drop (d.idx + 1) = d.buf.drop (d.idx + 1) :=
    List.drop_set_of_lt d.idx.lt_succ_self
  have newest_last : (d.buf.set d.idx x).take (d.idx + 1) = d.buf.take d.idx ++ [x] := by
    rw [List.take_succ_eq_append_getElem (by simpa using h), List.take_set_of_le le_rfl, List.getElem_set_self]
  rw [DelayLine.waiting, unwrapped, List.rotate_eq_drop_append_take (by simpa using h), newer_kept, newest_last,
    List.append_assoc]

/-! ## The calls -/

section
variable {k : ℕ} {d : DelayLine}

theorem dlCall_keeps_hasSlots (h : d.HasSlots k) (x : F64) : (dlCall k x d).2.HasSlots k := by
  obtain ⟨hlen, hidx⟩ := h
  exact ⟨List.length_set.trans hlen, Nat.mod_lt _ (Nat.zero_lt_of_lt hidx)⟩

/-- A call takes the oldest waiting value out and puts its input in as the newest. -/
theorem dlCall_waiting (h : d.HasSlots k) (x : F64) :
    (dlCall k x d).1 :: (dlCall k x d).2.waiting = d.waiting ++ [x] := by
  obtain ⟨rfl, hidx⟩ := h
  rw [dlCall, waiting_of_set hidx, waiting_eq_cons hidx, List.cons_append]

theorem dlOutputs_eq_take (h : d.HasSlots k) (xs : List F64) :
    dlOutputs (dlCall k) d xs = (d.waiting ++ xs).take xs.length := by
  induction xs generalizing d with
  | nil => rfl
  | cons x xs ih =>
    calc dlOutputs (dlCall k) d (x :: xs)
      _ = (dlCall k x d).1 :: ((dlCall k x d).2.waiting ++ xs).take xs.length :=
        congrArg _ (ih (dlCall_keeps_hasSlots h x))
      _ = (d.waiting ++ [x] ++ xs).take (xs.length + 1) := by
        rw [← dlCall_waiting h x, List.cons_append, List.take_succ_cons]
      _ = (d.waiting ++ x :: xs).take (x :: xs).length := by
        rw [List.append_assoc, List.singleton_append, List.length_cons]

end

/-- Settles O52: the outputs are the waiting values followed by the inputs, and at first `k` zeros wait. -/
theorem delayLineDelaysInputs : Obligations.DelayLineDelaysInputs := by
  unfold Obligations.DelayLineDelaysInputs
  intro k xs hk
  have hslots : DelayLine.HasSlots k ⟨List.replicate k 0, 0⟩ := ⟨List.length_replicate, hk⟩
  rw [dlOutputs_eq_take hslots, waiting_of_idx_zero]

end Sys2Proof.Machine
end

section
/-! The phase detector: its three branches, a NaN part, and the samples on the axes (46_phase_detector.md R180, R182). -/

namespace Sys2Proof.Machine

/-! ## The branches -/

section
variable (q : Site) {z : Cplx}

theorem pdDetect_of_re_nonneg (hre : fge z.re 0 = true) : pdDetect q z = fatan2 z.im z.re := by
  rw [pdDetect, if_pos hre, arg]

theorem pdDetect_of_im_pos (hre : fge z.re 0 = false) (him : fgt z.im 0 = true) :
    pdDetect q z = fsub (0 :: q) (fatan2 z.im z.re) piC := by
  rw [pdDetect, if_neg (Bool.eq_false_iff.1 hre), if_pos him, arg]

theorem pdDetect_of_im_not_pos (hre : fge z.re 0 = false) (him : fgt z.im 0 = false) :
    pdDetect q z = fneg (fadd (1 :: q) (fatan2 z.im z.re) piC) := by
  rw [pdDetect, if_neg (Bool.eq_false_iff.1 hre), if_neg (Bool.eq_false_iff.1 him), arg]

/-- `ATAN2` is NaN already, and each branch passes it on. -/
theorem isNaN_pdDetect (h : isNaN z.re = true ∨ isNaN z.im = true) : isNaN (pdDetect q z) = true := by
  have harg : isNaN (fatan2 z.im z.re) = true := isNaN_fatan2_of_nan h
  cases hre : fge z.re 0
  · cases him : fgt z.im 0
    · rw [pdDetect_of_im_not_pos q hre him, isNaN_fneg, fadd_nan_left _ _ harg]
    · rw [pdDetect_of_im_pos q hre him, fsub_nan_left _ _ harg]
  · rwa [pdDetect_of_re_nonneg q hre]

end

/-! ## The sums of the corners on the negative real axis -/

/-- A sum that is not NaN at one site is the same at every site. -/
theorem fadd_eq_of_not_nan {q' : Site} {x y v : F64} (h : fadd q' x y = v) (hv : isNaN v = false) (q : Site) :
    fadd q x y = v := by
  rcases fadd_site q q' x y with hsame | ⟨-, hnan⟩
  · exact hsame.trans h
  · rw [h, hv] at hnan; contradiction

theorem fadd_piC_piC (q : Site) : fadd q piC piC = twoPi :=
  fadd_eq_of_not_nan (q' := []) (by decide +kernel) (by decide) q

/-- An exact zero sum of opposite signs is `+0.0`. -/
theorem fadd_fneg_piC_piC (q : Site) : fadd q (fneg piC) piC = 0 :=
  fadd_eq_of_not_nan (q' := []) (by decide +kernel) (by decide) q

/-! ## The axes -/

section
variable {x : F64}

theorem isNaN_of_fge {y : F64} (h : fge x y = true) : isNaN x = false := by
  obtain ⟨-, hx, -⟩ := (fle_iff y x).1 h
  exact hx

/-- Either zero counts as a real part of at least 0. -/
theorem fge_zero_of_isZero (h : isZero x = true) : fge x 0 = true := by
  have hm : fmag x = 0 := by simpa [isZero] using h
  have hkey : fkey x = 0 := by simp [fkey, hm]
  have hnan : isNaN x = false := by simp [isNaN, hm]
  rw [fge, fle_iff, hkey]
  exact ⟨by decide, hnan, by decide⟩

theorem fge_zero_of_neg (h : flt x 0 = true) : fge x 0 = false := by
  obtain ⟨-, -, hlt⟩ := (flt_iff x 0).1 h
  rw [Bool.eq_false_iff, fge, Ne, fle_iff]
  rintro ⟨-, -, hle⟩
  omega

/-- Neither zero counts as an imaginary part above 0. -/
theorem fgt_zero_of_isZero (h : isZero x = true) : fgt x 0 = false := by
  rw [Bool.eq_false_iff, Ne, fgt_zero_iff]
  rintro ⟨-, hzero, -⟩
  rw [h] at hzero
  contradiction

end

section
variable (q : Site) {x y : F64}

theorem pdDetect_re_nonneg_posZero (hx : fge x 0 = true) : pdDetect q ⟨x, 0⟩ = if fsign x then piC else 0 :=
  (pdDetect_of_re_nonneg q hx).trans (fatan2_zero (isNaN_of_fge hx))

theorem pdDetect_re_nonneg_negZero (hx : fge x 0 = true) :
    pdDetect q ⟨x, 0x8000000000000000⟩ = fneg (if fsign x then piC else 0) :=
  (pdDetect_of_re_nonneg q hx).trans (fatan2_negZero (isNaN_of_fge hx))

theorem pdDetect_re_zero_im_pos (hx : isZero x = true) (hy : fgt y 0 = true) : pdDetect q ⟨x, y⟩ = halfPi :=
  (pdDetect_of_re_nonneg q (fge_zero_of_isZero hx)).trans (fatan2_of_isZero_right hy hx)

theorem pdDetect_re_zero_im_neg (hx : isZero x = true) (hy : flt y 0 = true) : pdDetect q ⟨x, y⟩ = fneg halfPi :=
  (pdDetect_of_re_nonneg q (fge_zero_of_isZero hx)).trans (fatan2_neg_of_isZero_right hy hx)

/-- On the negative real axis `ATAN2` is PI at `+0.0`, and the third branch doubles it. -/
theorem pdDetect_re_neg_posZero (hx : flt x 0 = true) : pdDetect q ⟨x, 0⟩ = fneg twoPi := by
  obtain ⟨hnan, -, hsign⟩ := (flt_zero_iff x).1 hx
  have harg : fatan2 0 x = piC := by rw [fatan2_zero hnan, if_pos hsign]
  have him : fgt 0 0 = false := fgt_zero_of_isZero (by decide)
  rw [pdDetect_of_im_not_pos q (fge_zero_of_neg hx) him, harg, fadd_piC_piC]

/-- At `-0.0` it is -PI, which the third branch cancels before it negates. -/
theorem pdDetect_re_neg_negZero (hx : flt x 0 = true) : pdDetect q ⟨x, 0x8000000000000000⟩ = fneg 0 := by
  obtain ⟨hnan, -, hsign⟩ := (flt_zero_iff x).1 hx
  have harg : fatan2 0x8000000000000000 x = fneg piC := by rw [fatan2_negZero hnan, if_pos hsign]
  have him : fgt 0x8000000000000000 0 = false := fgt_zero_of_isZero (by decide)
  rw [pdDetect_of_im_not_pos q (fge_zero_of_neg hx) him, harg, fadd_fneg_piC_piC]

end

/-! ## The rows of R182 -/

/-- Settles O55: the corners are the signed-zero cases of `ATAN2` (00_scope.md R9 (a)), taken through the first branch on
the axes with a real part of at least 0 and through the third on the negative real axis. -/
theorem phaseDetectorCornerValues : Obligations.PhaseDetectorCornerValues := by
  unfold Obligations.PhaseDetectorCornerValues
  intro q
  have posZero : isZero 0x0000000000000000 = true := by decide
  have negZero : isZero 0x8000000000000000 = true := by decide
  have one_nonneg : fge 0x3FF0000000000000 0 = true := by decide +kernel
  have one_pos : fgt 0x3FF0000000000000 0 = true := by decide +kernel
  have negOne_neg : flt 0xBFF0000000000000 0 = true := by decide +kernel
  exact ⟨fun z => ⟨pdDetect_of_re_nonneg q, pdDetect_of_im_pos q, pdDetect_of_im_not_pos q⟩,
    pdDetect_re_nonneg_posZero q one_nonneg,
    pdDetect_re_nonneg_posZero q (fge_zero_of_isZero posZero), pdDetect_re_nonneg_negZero q (fge_zero_of_isZero posZero),
    pdDetect_re_nonneg_posZero q (fge_zero_of_isZero negZero), pdDetect_re_nonneg_negZero q (fge_zero_of_isZero negZero),
    pdDetect_re_zero_im_pos q posZero one_pos, pdDetect_re_zero_im_pos q negZero one_pos,
    pdDetect_re_zero_im_neg q posZero negOne_neg,
    pdDetect_re_neg_posZero q negOne_neg, pdDetect_re_neg_negZero q negOne_neg, fun z => isNaN_pdDetect q⟩

end Sys2Proof.Machine
end

section
/-! The threshold predicates: a mean's magnitude on either side of a threshold (47_demod_fsm.md R196). -/

namespace Sys2Proof.Machine

/-! ## What each predicate decides -/

/-- A magnitude never sorts below zero, whatever the sign of the value. -/
@[simp] theorem fkey_fabs (x : F64) : fkey (fabs x) = fmag x := by simp [fkey]

section
variable {avg thr : F64}

theorem within_iff : within avg thr = true ↔ isNaN avg = false ∧ isNaN thr = false ∧ (fmag avg : Int) ≤ fkey thr := by
  rw [within, fle_iff, isNaN_fabs, fkey_fabs]

theorem exceeds_iff : exceeds avg thr = true ↔ isNaN avg = false ∧ isNaN thr = false ∧ fkey thr < fmag avg := by
  rw [exceeds, fgt, flt_iff, isNaN_fabs, fkey_fabs, and_left_comm]

/-! ## The pair of predicates -/

/-- Without a NaN the order is total, so that the two predicates are complements. -/
theorem within_iff_not_exceeds (ha : isNaN avg = false) (ht : isNaN thr = false) :
    within avg thr = true ↔ exceeds avg thr = false := by
  rw [← Bool.not_eq_true, within_iff, exceeds_iff]
  simp [ha, ht]

theorem within_and_exceeds_of_nan (h : isNaN avg = true ∨ isNaN thr = true) :
    within avg thr = false ∧ exceeds avg thr = false := by
  rw [← Bool.not_eq_true, ← Bool.not_eq_true, within_iff, exceeds_iff]
  rcases h with ha | ht
  · simp [ha]
  · simp [ht]

theorem exceeds_of_neg (ha : isNaN avg = false) (h : flt thr 0 = true) : exceeds avg thr = true := by
  obtain ⟨ht, -, hneg⟩ := (flt_iff thr 0).1 h
  have hzero : fkey 0 = 0 := by decide
  exact exceeds_iff.2 ⟨ha, ht, by omega⟩

theorem not_within_of_exceeds (h : exceeds avg thr = true) : within avg thr = false := by
  obtain ⟨ha, ht, -⟩ := exceeds_iff.1 h
  rw [Bool.eq_false_iff, Ne, within_iff_not_exceeds ha ht, h]
  decide

end

/-- Settles O56: both predicates compare the same two keys, the magnitude's and the threshold's, and a negative threshold's
key is below every magnitude's. -/
theorem thresholdPredicatesAreComplementary : Obligations.ThresholdPredicatesAreComplementary := by
  unfold Obligations.ThresholdPredicatesAreComplementary
  intro avg thr
  refine ⟨Iff.rfl, Iff.rfl, within_iff_not_exceeds, within_and_exceeds_of_nan, fun ha hneg => ?_⟩
  have hexceeds := exceeds_of_neg ha hneg
  exact ⟨not_within_of_exceeds hexceeds, hexceeds⟩

end Sys2Proof.Machine
end

section
/-! The commands without operands that always complete, NOP, SRST and CLRST: their meanings field by field, and the step on
their command words whatever the data words (48_host_commands.md R220, R221, R227; 30_encoding.md R82). -/

namespace Sys2Proof.Machine

/-! ## The step on the word of a command without a register operand -/

theorem step_of_decode_ok {s : State} {c : Command} {rest : List PortEvent} {i : Instr}
    (hport : s.port = .command c :: rest) (hi : decode c = .ok i) : step s = exec i { s with port := rest } := by
  simp only [step, takeEvent_cons hport, hi]

theorem decode_nop_word (d0 d1 : Word) : decode ⟨0x00000000, d0, d1⟩ = .ok .nop :=
  decode_of_row_noReg (op := 0x0) (by decide) decode_of_op_nop (by dsimp only; decide)

theorem decode_srst_word (d0 d1 : Word) : decode ⟨0x10000000, d0, d1⟩ = .ok .srst :=
  decode_of_row_noReg (op := 0x1) (by decide) decode_of_op_srst (by dsimp only; decide)

theorem decode_clrst_word (d0 d1 : Word) : decode ⟨0x60000000, d0, d1⟩ = .ok .clrst :=
  decode_of_row_noReg (op := 0x6) (by decide) decode_of_op_clrst (by dsimp only; decide)

/-! ## What the three meanings write -/

theorem exec_nop_eq_answeredWith (s : State) : exec .nop s = .next (answeredWith 0 0 s) := by
  rw [exec_nop, respond_ok_eq_answeredWith]

theorem clearSticky_eq (s : State) : clearSticky s = { s with stNf := false, stErr := false, stLastErr := 0x00 } := rfl

/-- The SRST column of 10_state.md R45, with the delay line's one slot (00_scope.md R3) written out. -/
theorem softReset_eq (s : State) : softReset s = { s with
    mode := .idle, lock := .acquiringFrequency, stNf := false, stErr := false, stLastErr := 0x00, ncoRate := 0,
    ncoPhase := 0, ntaps := 0, coef := [], taps := [], fad := ⟨0, 0, 0⟩, pad := ⟨0, 0, 0⟩, dl := ⟨[0], 0⟩,
    phaseEstimate := 0, freqEstimate := 0, sampleCount := 0 } := rfl

/-! ## The obligations -/

/-- Settles O12: NOP's meaning is the answer alone, and its word decodes to it whatever the data words. -/
theorem nopCompletes : Obligations.NopCompletes := by
  unfold Obligations.NopCompletes
  refine ⟨exec_nop_eq_answeredWith, fun s d0 d1 rest hport => ?_⟩
  rw [step_of_decode_ok hport (decode_nop_word d0 d1), exec_nop_eq_answeredWith]

/-- Settles O13: SRST answers from the soft-reset state, whose fields are R45's SRST column. -/
theorem srstCompletes : Obligations.SrstCompletes := by
  unfold Obligations.SrstCompletes
  refine ⟨fun s => ?_, fun s d0 d1 rest hport => step_of_decode_ok hport (decode_srst_word d0 d1)⟩
  rw [exec_srst, softReset_eq, respond_ok_eq_answeredWith, answeredWith]

/-- Settles O14: CLRST answers from the state with its three sticky fields cleared. -/
theorem clrstCompletes : Obligations.ClrstCompletes := by
  unfold Obligations.ClrstCompletes
  refine ⟨fun s => ?_, fun s d0 d1 rest hport => step_of_decode_ok hport (decode_clrst_word d0 d1)⟩
  rw [exec_clrst, clearSticky_eq, respond_ok_eq_answeredWith, answeredWith]

end Sys2Proof.Machine
end


section
/-! A command either completes with OK or is rejected in the state it was issued in, with nothing in between
(60_exceptions.md R264). -/

namespace Sys2Proof.Machine

/-! ## The two ends of a command -/

/-- Every check of a command stands before its first effect, so that a rejection starts from the state `s` itself. -/
theorem exec_answers_or_rejects (i : Instr) (s : State) :
    (∃ d0 d1 u, exec i s = .next (answeredWith d0 d1 u)) ∨ ∃ c, exec i s = .next (rejectedWith (rspByte c) s) := by
  cases i with
  | nop => exact .inl ⟨_, _, _, exec_nop s⟩
  | srst => exact .inl ⟨_, _, _, exec_srst s⟩
  | clrst => exact .inl ⟨_, _, _, exec_clrst s⟩
  | cfgw a v =>
    rcases exec_cfgw a v s with ⟨c, -, hrejected⟩ | ⟨-, hdone⟩
    · exact .inr ⟨c, hrejected⟩
    · exact .inl ⟨_, _, _, hdone⟩
  | rdreg a =>
    rcases exec_rdreg a s with ⟨-, hrejected⟩ | ⟨r, -, hdone⟩
    · exact .inr ⟨_, hrejected⟩
    · exact .inl ⟨_, _, _, hdone⟩
  | start =>
    rcases exec_start s with ⟨c, -, hrejected⟩ | ⟨-, hdone⟩
    · exact .inr ⟨c, hrejected⟩
    · exact .inl ⟨_, _, _, hdone⟩
  | proc re im =>
    cases hmode : s.mode with
    | idle => exact .inr ⟨_, exec_proc_idle re im hmode⟩
    | run => exact .inl ⟨_, _, _, exec_proc_run re im hmode⟩

/-- A step on a command ends as its meaning does, or rejects a word that does not decode (30_encoding.md R86). -/
theorem step_answers_or_rejects {s : State} {c : Command} {rest : List PortEvent} (hport : s.port = .command c :: rest) :
    (∃ d0 d1 u, step s = .next (answeredWith d0 d1 u)) ∨
      ∃ code, step s = .next (rejectedWith (rspByte code) { s with port := rest }) := by
  cases hdecode : decode c with
  | error e => exact .inr ⟨_, step_of_decode_error hport hdecode⟩
  | ok i =>
    rw [step_of_decode_ok hport hdecode]
    exact exec_answers_or_rejects i _

/-! ## The obligation -/

/-- Settles O23: a command that completes answers the code OK, so any other code is that of a rejection. -/
theorem rejectionIsPrecise : Obligations.RejectionIsPrecise := by
  unfold Obligations.RejectionIsPrecise
  intro s t c rest r hport hstep hresponse hcode
  rcases step_answers_or_rejects hport with ⟨d0, d1, u, hdone⟩ | ⟨code, hrejected⟩
  · obtain rfl : t = answeredWith d0 d1 u := Host.Outcome.next.inj (hstep.symm.trans hdone)
    obtain rfl : ⟨0x00, d0, d1⟩ = r := Option.some.inj hresponse
    exact absurd rfl hcode
  · obtain rfl : t = rejectedWith (rspByte code) { s with port := rest } :=
      Host.Outcome.next.inj (hstep.symm.trans hrejected)
    obtain rfl : ⟨rspByte code, 0, 0⟩ = r := Option.some.inj hresponse
    rfl

end Sys2Proof.Machine
end

section
/-! Encoding and decoding are inverse, and the words of the examples and of the pseudo-commands (30_encoding.md R81, R82,
R85 to R89). -/

namespace Sys2Proof.Machine

/-! ## Decoding a word built from its fields -/

section
variable {c : Command} {op : BitVec 4} {a : RegAddr} {i : Instr}

theorem fields_of_cmd_eq_cmdWord (hcmd : c.cmd = cmdWord op a) :
    cmdOp c.cmd = op ∧ cmdReg c.cmd = a ∧ cmdRsvd c.cmd = 0 := by
  rw [hcmd]
  exact ⟨Laws.cmdOp_cmdWord op a, Laws.cmdReg_cmdWord op a, Laws.cmdRsvd_cmdWord op a⟩

theorem decode_of_cmd_noReg (hcmd : c.cmd = cmdWord op 0)
    (hdecode : cmdRsvd c.cmd = 0 → cmdOp c.cmd = op → decode c = decodeNoReg c i) : decode c = .ok i := by
  obtain ⟨hop, hreg, hrsvd⟩ := fields_of_cmd_eq_cmdWord hcmd
  rw [hdecode hrsvd hop, decodeNoReg_of_reg_zero hreg]

theorem decode_of_cmd_cfgw (hcmd : c.cmd = cmdWord 0x2 a) : decode c = .ok (.cfgw a c.data0) := by
  obtain ⟨hop, hreg, hrsvd⟩ := fields_of_cmd_eq_cmdWord hcmd
  rw [decode_of_op_cfgw hrsvd hop, hreg]

theorem decode_of_cmd_rdreg (hcmd : c.cmd = cmdWord 0x3 a) : decode c = .ok (.rdreg a) := by
  obtain ⟨hop, hreg, hrsvd⟩ := fields_of_cmd_eq_cmdWord hcmd
  rw [decode_of_op_rdreg hrsvd hop, hreg]

end

/-- Settles O4: every encoding is a command word built from its opcode and register, and the decoder reads both back. -/
theorem decodeOfEncode : Obligations.DecodeOfEncode := by
  unfold Obligations.DecodeOfEncode
  intro i
  cases i with
  | nop => exact decode_of_cmd_noReg (op := 0x0) rfl decode_of_op_nop
  | srst => exact decode_of_cmd_noReg (op := 0x1) rfl decode_of_op_srst
  | cfgw a v => exact decode_of_cmd_cfgw rfl
  | rdreg a => exact decode_of_cmd_rdreg rfl
  | start => exact decode_of_cmd_noReg (op := 0x4) rfl decode_of_op_start
  | proc re im => exact decode_of_cmd_noReg (op := 0x5) rfl decode_of_op_proc
  | clrst => exact decode_of_cmd_noReg (op := 0x6) rfl decode_of_op_clrst

/-! ## Encoding what was decoded -/

theorem cmd_eq_cmdWord {w : CmdWord} (hrsvd : cmdRsvd w = 0) : w = cmdWord (cmdOp w) (cmdReg w) :=
  eq_of_fields_eq (Laws.cmdOp_cmdWord _ _).symm (Laws.cmdReg_cmdWord _ _).symm
    (hrsvd.trans (Laws.cmdRsvd_cmdWord _ _).symm)

theorem legal_of_decode_ok {c : Command} {i : Instr} (h : decode c = .ok i) : ¬illegalWord c.cmd := by
  intro hillegal
  obtain ⟨e, he⟩ := exists_decode_error_of_illegalWord hillegal
  cases he.symm.trans h

section
variable {c : Command} {op : BitVec 4} {i j : Instr} (hrsvd : cmdRsvd c.cmd = 0)
include hrsvd

/-- A command of an opcode without a register operand decodes only when its word is its opcode alone. -/
theorem eq_and_cmd_of_decode_noReg (hdecode : cmdRsvd c.cmd = 0 → cmdOp c.cmd = op → decode c = decodeNoReg c j)
    (hop : cmdOp c.cmd = op) (h : decode c = .ok i) : i = j ∧ c.cmd = cmdWord op 0 := by
  have hword := cmd_eq_cmdWord hrsvd
  rw [hdecode hrsvd hop] at h
  have hreg : cmdReg c.cmd = 0 := by
    by_contra hne
    rw [decodeNoReg_of_reg_ne_zero hne] at h
    cases h
  rw [decodeNoReg_of_reg_zero hreg] at h
  rw [hop, hreg] at hword
  exact ⟨(Except.ok.inj h).symm, hword⟩

theorem eq_and_cmd_of_decode_reg (hdecode : cmdRsvd c.cmd = 0 → cmdOp c.cmd = op → decode c = .ok j)
    (hop : cmdOp c.cmd = op) (h : decode c = .ok i) : i = j ∧ c.cmd = cmdWord op (cmdReg c.cmd) := by
  rw [hdecode hrsvd hop] at h
  exact ⟨(Except.ok.inj h).symm, hop ▸ cmd_eq_cmdWord hrsvd⟩

end

/-- Settles O5: a decoded word is legal, so it is its opcode and its register, and the decoder took the branch of that
opcode. -/
theorem encodeOfDecode : Obligations.EncodeOfDecode := by
  unfold Obligations.EncodeOfDecode
  intro c i hdecode
  have hlegal := legal_of_decode_ok hdecode
  have hrsvd : cmdRsvd c.cmd = 0 := by
    by_contra hne
    exact hlegal (illegalWord_iff.2 (.inr (.inl hne)))
  have hop := cmdOp_mem_assignedOps hlegal
  simp only [assignedOps, List.mem_cons, List.not_mem_nil, or_false] at hop
  rw [← toNat_cmdOp]
  rcases hop with hop | hop | hop | hop | hop | hop | hop
  · obtain ⟨rfl, hcmd⟩ := eq_and_cmd_of_decode_noReg hrsvd decode_of_op_nop hop hdecode
    rw [hop, hcmd]; rfl
  · obtain ⟨rfl, hcmd⟩ := eq_and_cmd_of_decode_noReg hrsvd decode_of_op_srst hop hdecode
    rw [hop, hcmd]; rfl
  · obtain ⟨rfl, hcmd⟩ := eq_and_cmd_of_decode_reg hrsvd decode_of_op_cfgw hop hdecode
    rw [hop, encode, ← hcmd]; rfl
  · obtain ⟨rfl, hcmd⟩ := eq_and_cmd_of_decode_reg hrsvd decode_of_op_rdreg hop hdecode
    rw [hop, encode, ← hcmd]; rfl
  · obtain ⟨rfl, hcmd⟩ := eq_and_cmd_of_decode_noReg hrsvd decode_of_op_start hop hdecode
    rw [hop, hcmd]; rfl
  · obtain ⟨rfl, hcmd⟩ := eq_and_cmd_of_decode_noReg hrsvd decode_of_op_proc hop hdecode
    rw [hop, hcmd]; rfl
  · obtain ⟨rfl, hcmd⟩ := eq_and_cmd_of_decode_noReg hrsvd decode_of_op_clrst hop hdecode
    rw [hop, hcmd]; rfl

/-! ## Fixed words -/

/-- Settles O6: each legal word is the encoding of its instruction, and each illegal one fails the check that its error
names. -/
theorem exampleWordsDecode : Obligations.ExampleWordsDecode := by
  unfold Obligations.ExampleWordsDecode
  refine ⟨decodeOfEncode (.cfgw 0x08 2), decodeOfEncode (.rdreg 0x00), decodeOfEncode (.rdreg 0x13),
    decodeOfEncode (.cfgw 0x16 3), decodeOfEncode .nop, decodeOfEncode .srst, decodeOfEncode .start,
    decodeOfEncode (.proc 0xBFF0000000000000 0x8000000000000000), decodeOfEncode .clrst, ?stray,
    decode_of_rsvd_ne_zero (by decide), decode_of_op_reserved (by decide) (by decide)⟩
  case stray =>
    rw [decode_of_op_nop (by decide) (by decide)]
    exact decodeNoReg_of_reg_ne_zero (by decide) .nop

/-- Settles O7: each expansion is a fixed list of instructions, whose encodings are the listed words. -/
theorem pseudoCommandsExpand : Obligations.PseudoCommandsExpand := by
  unfold Obligations.PseudoCommandsExpand
  exact ⟨rfl, fun sps alpha span window fthr pthr => rfl, fun i => rfl, rfl⟩

/-- Settles O1: the step on a command that decodes, read off the step's definition. -/
theorem stepRunsDecodedCommand : Obligations.StepRunsDecodedCommand := by
  unfold Obligations.StepRunsDecodedCommand
  exact fun s c rest i => step_of_decode_ok

end Sys2Proof.Machine
end

section
/-! What a command can do, said once, and what every step does with the port (30_encoding.md R80; 60_exceptions.md R260,
R263 to R265, R273; 70_reset_and_hazards.md R290). -/

namespace Sys2Proof.Machine

/-! ## The effects of a command -/

/-- The ways in which an instruction can take a state to the next one. -/
inductive CommandEffect (s : State) : Instr → State → Prop
  /-- A check failed (48_host_commands.md R224). -/
  | rejected (i : Instr) (c : RspCode) (hc : c ≠ .ok) : CommandEffect s i (reject c s)
  /-- NOP and RDREG only answer. -/
  | answered (i : Instr) (d0 : Word) (hi : isProc i = false) : CommandEffect s i (respond .ok d0 0 s)
  | cleared : CommandEffect s .clrst (respond .ok 0 0 (clearSticky s))
  | reset : CommandEffect s .srst (respond .ok 0 0 (softReset s))
  /-- CFGW; in RUN the register is `COEF_SEL`. -/
  | wrote (a : RegAddr) (v : Word) (r : RegName) (hrun : s.mode = .run → r = .coefSel) :
    CommandEffect s (.cfgw a v) (respond .ok 0 0 (writeReg r v s))
  /-- START on a configuration that passes every check. -/
  | began (hlegal : startReject s = none) :
    CommandEffect s .start (respond .ok 0 0 (beginSession (cfgCount s) (cfgTaps s) s))
  | processed (re im : F64) (hrun : s.mode = .run) :
    CommandEffect s (.proc re im)
      (respond .ok (narrowband ⟨re, im⟩ s).re (narrowband ⟨re, im⟩ s).im (stepState ⟨re, im⟩ s))

theorem cfgwReject_ne_ok {a : RegAddr} {s : State} {c : RspCode} (h : cfgwReject a s = some c) : c ≠ .ok := by
  rintro rfl
  unfold cfgwReject at h
  split at h
  · cases h
  · split_ifs at h <;> cases h

theorem startReject_ne_ok {s : State} {c : RspCode} (h : startReject s = some c) : c ≠ .ok := by
  rintro rfl
  unfold startReject at h
  split_ifs at h <;> cases h

theorem writeAddr_of_mapped {a : RegAddr} {r : RegName} (h : regOfAddr a = some r) (v : Word) (s : State) :
    writeAddr a v s = writeReg r v s := by
  simp only [writeAddr, h]

/-- Every command goes on, in one of these ways. -/
theorem exec_effect (i : Instr) (s : State) : ∃ t, exec i s = .next t ∧ CommandEffect s i t := by
  cases i with
  | nop => exact ⟨_, exec_nop s, .answered _ 0 rfl⟩
  | srst => exact ⟨_, exec_srst s, .reset⟩
  | clrst => exact ⟨_, exec_clrst s, .cleared⟩
  | cfgw a v =>
    rcases exec_cfgw a v s with ⟨c, hreject, hexec⟩ | ⟨hnone, hexec⟩
    · exact ⟨_, hexec, .rejected _ c (cfgwReject_ne_ok hreject)⟩
    · obtain ⟨r, hr, -, hrun⟩ := cfgwReject_none hnone
      exact ⟨_, hexec, writeAddr_of_mapped hr v s ▸ .wrote a v r hrun⟩
  | rdreg a =>
    rcases exec_rdreg a s with ⟨-, hexec⟩ | ⟨r, -, hexec⟩
    · exact ⟨_, hexec, .rejected _ .badReg (by decide)⟩
    · exact ⟨_, hexec, .answered _ _ rfl⟩
  | start =>
    rcases exec_start s with ⟨c, hreject, hexec⟩ | ⟨hnone, hexec⟩
    · exact ⟨_, hexec, .rejected _ c (startReject_ne_ok hreject)⟩
    · exact ⟨_, hexec, .began hnone⟩
  | proc re im =>
    cases hmode : s.mode with
    | idle => exact ⟨_, exec_proc_idle re im hmode, .rejected _ .wrongMode (by decide)⟩
    | run => exact ⟨_, exec_proc_run re im hmode, .processed re im hmode⟩

theorem effect_of_exec {i : Instr} {s t : State} (h : exec i s = .next t) : CommandEffect s i t := by
  obtain ⟨u, hexec, heffect⟩ := exec_effect i s
  obtain rfl : t = u := Host.Outcome.next.inj (h.symm.trans hexec)
  exact heffect

/-! ## The port -/

theorem CommandEffect.port_eq {i : Instr} {s t : State} (h : CommandEffect s i t) : t.port = s.port := by
  cases h with
  | rejected | answered | cleared | reset | began => rfl
  | wrote => simp
  | processed => rfl

theorem rspByte_mem_rspCodes (c : RspCode) : rspByte c ∈ rspCodes := by cases c <;> decide

theorem CommandEffect.exists_response {i : Instr} {s t : State} (h : CommandEffect s i t) :
    ∃ r : Response, t.response = some r ∧ r.rsp ∈ rspCodes := by
  cases h with
  | rejected c => exact ⟨_, rfl, rspByte_mem_rspCodes _⟩
  | answered | cleared | reset | wrote | began | processed => exact ⟨_, rfl, rspByte_mem_rspCodes .ok⟩

/-! ## The step -/

theorem step_of_hardReset {s : State} {rest : List PortEvent} (hport : s.port = .hardReset :: rest) :
    step s = .next (hardReset { s with port := rest }) := by
  simp only [step, takeEvent_cons hport]

theorem step_of_port_nil {s : State} (hport : s.port = []) : step s = .next s := by
  simp only [step, takeEvent_nil hport]

/-- Settles O8: a word that does not decode is rejected, and every effect of a command leaves the port and a response. -/
theorem everyCommandIsAnswered : Obligations.EveryCommandIsAnswered := by
  unfold Obligations.EveryCommandIsAnswered
  intro s c rest hport
  cases hdecode : decode c with
  | error e => exact ⟨_, _, step_of_decode_error hport hdecode, rfl, rfl, rspByte_mem_rspCodes .illegalCmd⟩
  | ok i =>
    obtain ⟨t, hexec, heffect⟩ := exec_effect i { s with port := rest }
    obtain ⟨r, hresponse, hcode⟩ := heffect.exists_response
    exact ⟨t, r, (step_of_decode_ok hport hdecode).trans hexec, heffect.port_eq, hresponse, hcode⟩

/-- Settles O9: nothing waits, a hard reset waits, or a command does, which is answered. -/
theorem stepAlwaysGoesOn : Obligations.StepAlwaysGoesOn := by
  unfold Obligations.StepAlwaysGoesOn
  intro s
  cases hport : s.port with
  | nil => exact ⟨s, step_of_port_nil hport⟩
  | cons e rest =>
    cases e with
    | hardReset => exact ⟨_, step_of_hardReset hport⟩
    | command c =>
      obtain ⟨t, -, hstep, -⟩ := everyCommandIsAnswered s c rest hport
      exact ⟨t, hstep⟩

/-- Settles O10: the step is `hardReset`, whose fields are those of the reset state but for the port and the counter. -/
theorem hardResetClearsEverything : Obligations.HardResetClearsEverything := by
  unfold Obligations.HardResetClearsEverything
  intro s rest hport
  rw [step_of_hardReset hport]
  rfl

/-- Settles O11: with an empty port the step takes no event. -/
theorem nothingHappensWithoutCommand : Obligations.NothingHappensWithoutCommand := by
  unfold Obligations.NothingHappensWithoutCommand
  exact fun s => step_of_port_nil

end Sys2Proof.Machine
end

section
/-! The register commands at every address: which addresses name which kind of register, and what CFGW and RDREG then do
(10_state.md R42; 48_host_commands.md R222 to R224). -/

namespace Sys2Proof.Machine

/-! ## The address map -/

/-- The unmapped addresses (20_memory.md R65). -/
theorem regOfAddr_eq_none {a : RegAddr}
    (h : (2 ≤ a.toNat ∧ a.toNat ≤ 7) ∨ a.toNat = 0x0E ∨ a.toNat = 0x0F ∨ 0x18 ≤ a.toNat) : regOfAddr a = none := by
  revert a; decide +kernel

theorem exists_readOnly_of_addr {a : RegAddr}
    (h : a.toNat ≤ 1 ∨ (0x10 ≤ a.toNat ∧ a.toNat ≤ 0x15) ∨ a.toNat = 0x17) :
    ∃ r, regOfAddr a = some r ∧ regIsReadOnly r = true := by
  have hsome : (regOfAddr a).any regIsReadOnly = true := by revert a; decide +kernel
  obtain ⟨hmapped, hr⟩ := (Option.any_eq_true_iff_get _ _).1 hsome
  exact ⟨_, (Option.some_get hmapped).symm, hr⟩

theorem exists_config_of_addr {a : RegAddr} (h : 0x08 ≤ a.toNat ∧ a.toNat ≤ 0x0D) :
    ∃ r, regOfAddr a = some r ∧ regIsConfig r = true := by
  have hsome : (regOfAddr a).any regIsConfig = true := by revert a; decide +kernel
  obtain ⟨hmapped, hr⟩ := (Option.any_eq_true_iff_get _ _).1 hsome
  exact ⟨_, (Option.some_get hmapped).symm, hr⟩

theorem regIsReadOnly_of_config {r : RegName} (h : regIsConfig r = true) : regIsReadOnly r = false := by
  revert h; cases r <;> decide

/-! ## CFGW -/

section
variable {a : RegAddr} {r : RegName} {s : State}

theorem cfgwReject_of_unmapped (h : regOfAddr a = none) : cfgwReject a s = some .badReg := by
  simp only [cfgwReject, h]

theorem cfgwReject_of_config_in_run (h : regOfAddr a = some r) (hr : regIsConfig r = true) (hmode : s.mode = .run) :
    cfgwReject a s = some .wrongMode := by
  simp [cfgwReject, h, hr, regIsReadOnly_of_config hr, hmode]

theorem cfgwReject_of_config_in_idle (h : regOfAddr a = some r) (hr : regIsConfig r = true) (hmode : s.mode = .idle) :
    cfgwReject a s = none := by
  simp [cfgwReject, h, regIsReadOnly_of_config hr, hmode]

theorem cfgwReject_of_coefSel (h : regOfAddr a = some .coefSel) : cfgwReject a s = none := by
  simp [cfgwReject, h, regIsReadOnly, regIsConfig]

theorem exec_cfgw_of_writable (h : regOfAddr a = some r) (hnone : cfgwReject a s = none) (v : Word) :
    exec (.cfgw a v) s = .next (answeredWith 0 0 (writeReg r v s)) := by
  rcases exec_cfgw a v s with ⟨c, hc, -⟩ | ⟨-, hexec⟩
  · cases hnone.symm.trans hc
  · rw [hexec, writeAddr_of_mapped h, respond_ok_eq_answeredWith]

end

/-- Settles O15: the addresses are those of configuration registers, writable in IDLE, and of `COEF_SEL`, always
writable. -/
theorem cfgwCompletes : Obligations.CfgwCompletes := by
  unfold Obligations.CfgwCompletes
  refine ⟨fun s v hmode => ?_, fun s v => exec_cfgw_of_writable (r := .coefSel) rfl (cfgwReject_of_coefSel rfl) v⟩
  have hwrite (a : RegAddr) (r : RegName) (h : regOfAddr a = some r) (hr : regIsConfig r = true) :=
    exec_cfgw_of_writable h (cfgwReject_of_config_in_idle h hr hmode) v
  exact ⟨hwrite 0x08 .sps rfl rfl, hwrite 0x09 .rolloff rfl rfl, hwrite 0x0A .span rfl rfl, hwrite 0x0B .window rfl rfl,
    hwrite 0x0C .freqThr rfl rfl, hwrite 0x0D .phaseThr rfl rfl⟩

/-- Settles O16: the three address ranges are the unmapped addresses, the read-only registers and the configuration
registers. -/
theorem cfgwRejections : Obligations.CfgwRejections := by
  unfold Obligations.CfgwRejections
  intro s a v
  refine ⟨fun ha => ?unmapped, fun ha => ?readOnly, fun ha hmode => ?config⟩
  case unmapped => exact exec_cfgw_of_cfgwReject (cfgwReject_of_unmapped (regOfAddr_eq_none ha)) v
  case readOnly =>
    obtain ⟨r, h, hr⟩ := exists_readOnly_of_addr ha
    exact exec_cfgw_of_readOnly h hr v s
  case config =>
    obtain ⟨r, h, hr⟩ := exists_config_of_addr ha
    exact exec_cfgw_of_cfgwReject (cfgwReject_of_config_in_run h hr hmode) v

/-! ## RDREG -/

theorem exec_rdreg_of_unmapped {a : RegAddr} (h : regOfAddr a = none) (s : State) :
    exec (.rdreg a) s = .next (rejectedWith 0x02 s) := by
  rcases exec_rdreg a s with ⟨-, hexec⟩ | ⟨r, hr, -⟩
  · exact hexec
  · cases h.symm.trans hr

/-- `COEF_DATA` reads the selected coefficient, and 0 past the last one. -/
theorem readReg_coefData (s : State) :
    readReg .coefData s = if s.coefSel.toNat < s.ntaps then s.coef.getD s.coefSel.toNat 0 else 0 := rfl

/-- Settles O17: an RDREG of a mapped address answers what `readReg` reads there, which is a field but for the two cases of
`COEF_DATA`. -/
theorem rdregCompletes : Obligations.RdregCompletes := by
  unfold Obligations.RdregCompletes
  intro s
  have hread (a : RegAddr) (r : RegName) (h : regOfAddr a = some r) := exec_rdreg_of_mapped h s
  refine ⟨hread 0x00 .status rfl, hread 0x01 .caps rfl, hread 0x08 .sps rfl, hread 0x09 .rolloff rfl,
    hread 0x0A .span rfl, hread 0x0B .window rfl, hread 0x0C .freqThr rfl, hread 0x0D .phaseThr rfl,
    hread 0x10 .ncoRate rfl, hread 0x11 .ncoPhase rfl, hread 0x12 .freqEst rfl, hread 0x13 .phaseEst rfl,
    hread 0x14 .sampleCount rfl, hread 0x15 .ntaps rfl, hread 0x16 .coefSel rfl, fun hlt => ?selected, fun hge => ?past,
    fun a ha => exec_rdreg_of_unmapped (regOfAddr_eq_none ha) s⟩
  case selected => rw [hread 0x17 .coefData rfl, readReg_coefData, if_pos hlt]
  case past => rw [hread 0x17 .coefData rfl, readReg_coefData, if_neg (Nat.not_lt.2 hge)]

end Sys2Proof.Machine
end

section
/-! START's checks in their order, its completion, and PROC in both modes (48_host_commands.md R224 to R226, R228;
60_exceptions.md R262). -/

namespace Sys2Proof.Machine

/-! ## What the checks say -/

theorem feq_iff (x y : F64) : feq x y = true ↔ isNaN x = false ∧ isNaN y = false ∧ fkey x = fkey y := by
  unfold feq; simp [and_assoc]

theorem isZero_iff_fkey (x : F64) : isZero x = true ↔ fkey x = 0 := by
  rw [← Int.natAbs_eq_zero, natAbs_fkey, isZero, decide_eq_true_eq]

theorem isNaN_of_isZero {x : F64} (h : isZero x = true) : isNaN x = false := by
  obtain ⟨hnan, -⟩ := not_nan_and_not_inf_of_isFinite (isFinite_of_isZero h)
  exact hnan

theorem feq_zero_eq (x : F64) : feq x 0 = isZero x := by
  have hkey : fkey 0 = 0 := by decide
  have hnan : isNaN 0 = false := by decide
  rw [Bool.eq_iff_iff, feq_iff, isZero_iff_fkey, hkey, hnan]
  refine ⟨fun ⟨_, _, h⟩ => h, fun h => ⟨isNaN_of_isZero ((isZero_iff_fkey x).2 h), rfl, h⟩⟩

theorem rolloffLegal_iff (s : State) :
    rolloffLegal s = true ↔ fgt s.cfgRolloff 0 = true ∧ fle s.cfgRolloff 0x3FF0000000000000 = true := by
  rw [rolloffLegal, Bool.and_eq_true]; rfl

theorem cfgCount_eq (s : State) : cfgCount s = 2 * s.cfgSps.toNat * s.cfgSpan.toNat + 1 := rfl

theorem rrcDegenerate_iff (e : F64) (c : List F64) :
    rrcDegenerate e c = true ↔ isFinite e = false ∨ feq e 0 = true ∨ ∃ v ∈ c, isFinite v = false := by
  rw [feq_zero_eq]; simp [rrcDegenerate, or_assoc]

theorem rrcDegenerate_eq_false_iff (e : F64) (c : List F64) :
    rrcDegenerate e c = false ↔ isFinite e = true ∧ feq e 0 = false ∧ ∀ v ∈ c, isFinite v = true := by
  rw [feq_zero_eq]; simp [rrcDegenerate, and_assoc]

/-! ## The checks in order -/

theorem exec_start_of_startReject {s : State} {c : RspCode} (h : startReject s = some c) :
    exec .start s = .next (rejectedWith (rspByte c) s) := by
  rcases exec_start s with ⟨c', hc', hexec⟩ | ⟨hnone, -⟩
  · obtain rfl : c = c' := Option.some.inj (h.symm.trans hc')
    exact hexec
  · cases h.symm.trans hnone

section
variable {s : State}

theorem startReject_of_run (hmode : s.mode = .run) : startReject s = some .wrongMode := if_pos hmode

variable (hmode : s.mode = .idle)
include hmode

theorem startReject_of_sps (hsps : s.cfgSps.toNat < 2) : startReject s = some .cfgSps := by
  simp [startReject, hmode, hsps]

variable (hsps : 2 ≤ s.cfgSps.toNat)
include hsps

theorem startReject_of_rolloff (hrolloff : rolloffLegal s = false) : startReject s = some .cfgRolloff := by
  simp [startReject, hmode, Nat.not_lt.2 hsps, hrolloff]

variable (hrolloff : rolloffLegal s = true)
include hrolloff

theorem startReject_of_window (hwindow : s.cfgWindow.toNat = 0 ∨ 2 ^ 32 ≤ s.cfgWindow.toNat) :
    startReject s = some .cfgWindow := by
  simp only [startReject, hmode, Nat.not_lt.2 hsps, hrolloff, hwindow]
  rfl

variable (hwindow : 1 ≤ s.cfgWindow.toNat ∧ s.cfgWindow.toNat < 2 ^ 32)
include hwindow

/-- The last two checks, on the taps that the configuration asks for. -/
theorem startReject_of_first_four :
    startReject s =
      if Config.maxTaps < cfgCount s then some .cfgNtaps
      else if rrcDegenerate (cfgEnergy s) (cfgTaps s) then some .cfgDegenerate else none := by
  have hw : ¬(s.cfgWindow.toNat = 0 ∨ 2 ^ 32 ≤ s.cfgWindow.toNat) := by omega
  simp only [startReject, hmode, Nat.not_lt.2 hsps, hrolloff, hw]
  rfl

end

/-- Settles O19: each check comes after the ones whose hypotheses its clause repeats. -/
theorem startRejections : Obligations.StartRejections := by
  unfold Obligations.StartRejections
  intro s
  refine ⟨fun hmode => ?run, fun hmode hsps => ?sps, fun hmode hsps hrolloff => ?rolloff,
    fun hmode hsps hlow hhigh hwindow => ?window, fun hmode hsps hlow hhigh hw1 hw2 hcount => ?count,
    fun hmode hsps hlow hhigh hw1 hw2 hdegenerate => ?degenerate⟩
  case run => exact exec_start_of_startReject (startReject_of_run hmode)
  case sps => exact exec_start_of_startReject (startReject_of_sps hmode hsps)
  case rolloff =>
    rw [← rolloffLegal_iff, Bool.not_eq_true] at hrolloff
    exact exec_start_of_startReject (startReject_of_rolloff hmode hsps hrolloff)
  case window =>
    exact exec_start_of_startReject
      (startReject_of_window hmode hsps ((rolloffLegal_iff s).2 ⟨hlow, hhigh⟩) hwindow)
  case count =>
    have hfirst := startReject_of_first_four hmode hsps ((rolloffLegal_iff s).2 ⟨hlow, hhigh⟩) ⟨hw1, hw2⟩
    rw [cfgCount_eq, if_pos hcount] at hfirst
    exact exec_start_of_startReject hfirst
  case degenerate =>
    have hfirst := startReject_of_first_four hmode hsps ((rolloffLegal_iff s).2 ⟨hlow, hhigh⟩) ⟨hw1, hw2⟩
    rw [if_pos ((rrcDegenerate_iff _ _).2 hdegenerate), cfgCount_eq] at hfirst
    split at hfirst
    · next hcount => rw [if_pos hcount]; exact exec_start_of_startReject hfirst
    · next hcount => rw [if_neg hcount]; exact exec_start_of_startReject hfirst

/-! ## START completes -/

theorem exec_start_of_startReject_none {s : State} (h : startReject s = none) :
    exec .start s = .next (respond .ok 0 0 (beginSession (cfgCount s) (cfgTaps s) s)) := by
  rcases exec_start s with ⟨c, hc, -⟩ | ⟨-, hexec⟩
  · cases h.symm.trans hc
  · exact hexec

/-- The After START column of 10_state.md R45, with the delay line's one slot (00_scope.md R3) written out. -/
theorem beginSession_eq (n : Nat) (c : List F64) (s : State) : beginSession n c s = { s with
    mode := .run, lock := .acquiringFrequency, stNf := false, ncoRate := 0, ncoPhase := 0, ntaps := n, coef := c,
    taps := List.replicate n ⟨0, 0⟩, fad := ⟨0, 0, 0⟩, pad := ⟨0, 0, 0⟩, dl := ⟨[0], 0⟩, phaseEstimate := 0,
    freqEstimate := 0, sampleCount := 0 } := rfl

/-- Settles O20: no check fails, so START begins the session, whose fields are R45's After START column. -/
theorem startCompletes : Obligations.StartCompletes := by
  unfold Obligations.StartCompletes
  intro s hmode hsps hlow hhigh hw1 hw2 hcount henergy hnonzero htaps
  have hnone : startReject s = none := by
    have hfits : ¬Config.maxTaps < cfgCount s := Nat.not_lt.2 hcount
    have hsound := (rrcDegenerate_eq_false_iff _ _).2 ⟨henergy, hnonzero, htaps⟩
    rw [startReject_of_first_four hmode hsps ((rolloffLegal_iff s).2 ⟨hlow, hhigh⟩) ⟨hw1, hw2⟩, if_neg hfits, hsound]
    rfl
  rw [exec_start_of_startReject_none hnone, beginSession_eq, cfgCount_eq]
  rfl

/-! ## PROC -/

/-- Settles O21: the eight steps compute the values written out in the terms of the claims. -/
theorem procCompletes : Obligations.ProcCompletes := by
  unfold Obligations.ProcCompletes
  intro s re im hmode
  rw [exec_proc_run re im hmode, respond_ok_eq_answeredWith]

/-- Settles O22: PROC checks the mode before anything else. -/
theorem procRejectedInIdle : Obligations.ProcRejectedInIdle := by
  unfold Obligations.ProcRejectedInIdle
  intro s re im hmode
  rw [exec_proc_idle re im hmode, reject_eq_rejectedWith, rspByte]

end Sys2Proof.Machine
end

section
/-! What every step keeps: the invariant of the state, the range of the NCO phase, the transitions of the lock state, and a
running session's configuration (10_state.md R22 to R39; 47_demod_fsm.md R204; 70_reset_and_hazards.md R294). -/

namespace Sys2Proof.Machine

/-! ## The parts of the invariant, field by field -/

theorem idleClean_iff (s : State) :
    IdleClean s ↔
      (s.lock = .acquiringFrequency ∧ s.stNf = false ∧ s.ncoRate = 0 ∧ s.ncoPhase = 0 ∧ s.fad = ⟨0, 0, 0⟩ ∧
        s.pad = ⟨0, 0, 0⟩ ∧ s.dl = ⟨List.replicate Config.delayCount 0, 0⟩ ∧ s.phaseEstimate = 0 ∧ s.freqEstimate = 0 ∧
        s.sampleCount = 0) ∧ s.ntaps = 0 ∧ s.coef = [] ∧ s.taps = [] := by
  rw [IdleClean, eq_comm, State.ext_iff]
  simp

/-- A session's legality does not depend on the fields that no datapath rule reads. -/
theorem runLegal_of_datapath_eq {s t : State} (h : RunLegal s) (hd : datapath t = datapath s) : RunLegal t := by
  have legal_datapath : RunLegal (datapath s) :=
    ⟨h.sps, h.rolloff, h.window, h.count, h.capacity, h.coefLength, h.coefFinite, h.tapsLength, h.fadCount, h.padCount,
      h.delay⟩
  rw [← hd] at legal_datapath
  obtain ⟨hsps, hrolloff, hwindow, hcount, hcapacity, hlen, hfinite, htaps, hfad, hpad, hdelay⟩ := legal_datapath
  exact ⟨hsps, hrolloff, hwindow, hcount, hcapacity, hlen, hfinite, htaps, hfad, hpad, hdelay⟩

theorem inv_of_port {s : State} (h : Inv s) (rest : List PortEvent) : Inv { s with port := rest } := by
  obtain ⟨herr, hidle, hrun⟩ := h
  refine ⟨herr, fun hmode => ?_, fun hmode => runLegal_of_datapath_eq (hrun hmode) rfl⟩
  have hclean := (idleClean_iff s).1 (hidle hmode)
  exact (idleClean_iff _).2 hclean

theorem inv_hardReset (s : State) : Inv (hardReset s) :=
  ⟨⟨⟨fun _ => rfl, fun _ => rfl⟩, .ok, rfl⟩, fun _ => ⟨rfl, rfl, rfl, rfl⟩, fun hmode => by cases hmode⟩

theorem phaseWrapped_of_zero {s : State} (h : s.ncoPhase = 0) : PhaseWrapped s := by
  have hrange : flt (fneg piC) 0 = true ∧ fle 0 piC = true := in_wrap_range_iff.2 (by decide)
  rw [PhaseWrapped, h]
  exact .inr hrange

theorem wrap_nan_or_in_range (q : Site) (θ : F64) :
    isNaN (wrap q θ) = true ∨ (flt (fneg piC) (wrap q θ) = true ∧ fle (wrap q θ) piC = true) := by
  cases hfin : isFinite θ
  · exact .inl (isNaN_wrap_of_not_finite hfin q)
  · exact .inr (wrap_in_range hfin q)

/-- Settles O24: the reset state is what a hard reset leaves. -/
theorem resetHasInvariant : Obligations.ResetHasInvariant := by
  unfold Obligations.ResetHasInvariant
  exact ⟨inv_hardReset State.reset, phaseWrapped_of_zero rfl⟩

/-! ## The sub-blocks keep their ranges -/

theorem adProc_count_le {q : Site} {w : ℕ} {b : AccDump} {x : F64} (hw : 1 ≤ w) (hlt : w < 2 ^ 32)
    (h : b.count.toNat ≤ w) : (adProc q w b x).2.count.toNat ≤ w := by
  by_cases hfull : b.count.toNat = w
  · rw [adProc_of_count_eq q x hfull]
    exact hw
  · have hnext : (b.count + 1).toNat = b.count.toNat + 1 := by
      have hone : (1 : BitVec 32).toNat = 1 := rfl
      rw [BitVec.toNat_add_of_lt (by omega), hone]
    rw [adProc_of_count_ne q x hfull]
    simp only [hnext]
    omega

/-- Two blocks with one window that count alike go on counting alike. -/
theorem adProc_count_congr {q q' : Site} {w : ℕ} {b b' : AccDump} {x x' : F64} (h : b.count = b'.count) :
    (adProc q w b x).2.count = (adProc q' w b' x').2.count := by
  by_cases hfull : b.count.toNat = w
  · rw [adProc_of_count_eq q x hfull, adProc_of_count_eq q' x' (h ▸ hfull)]
  · rw [adProc_of_count_ne q x hfull, adProc_of_count_ne q' x' (h ▸ hfull), h]

theorem length_tapsAfter (x : Cplx) {s : State} (h : s.taps.length = s.ntaps) : (tapsAfter x s).length = s.ntaps := by
  simp [tapsAfter, h]

theorem runLegal_stepState (x : Cplx) {s : State} (h : RunLegal s) : RunLegal (stepState x s) := by
  obtain ⟨hsps, hrolloff, hwindow, hcount, hcapacity, hlen, hfinite, htaps, hfad, hpad, hdelay⟩ := h
  obtain ⟨hw1, hw2⟩ := hwindow
  exact ⟨hsps, hrolloff, ⟨hw1, hw2⟩, hcount, hcapacity, hlen, hfinite, length_tapsAfter x htaps,
    adProc_count_le hw1 hw2 hfad, adProc_count_congr hpad, dlCall_keeps_hasSlots hdelay _⟩

theorem runLegal_beginSession {s : State} (h : startReject s = none) :
    RunLegal (beginSession (cfgCount s) (cfgTaps s) s) := by
  obtain ⟨-, hsps, hrolloff, hw1, hw2, hfits, hsound⟩ := startReject_none h
  obtain ⟨-, -, hfinite⟩ := (rrcDegenerate_eq_false_iff _ _).1 hsound
  exact ⟨hsps, hrolloff, ⟨hw1, hw2⟩, rfl, ⟨Nat.le_add_left 1 _, hfits⟩, length_cfgTaps s, hfinite,
    List.length_replicate, Nat.zero_le _, rfl, ⟨rfl, Nat.one_pos⟩⟩

/-! ## Every effect keeps the invariant -/

section
variable {s t : State} {i : Instr}

theorem CommandEffect.keeps_errorFields (h : CommandEffect s i t) (hs : ErrorFieldsAgree s) : ErrorFieldsAgree t := by
  cases h with
  | rejected i c hc =>
    have hcode : rspByte c ≠ 0 := fun h0 => hc (rspByte_injective h0)
    exact ⟨⟨nofun, fun h => absurd h hcode⟩, c, rfl⟩
  | answered | began | processed => exact hs
  | wrote => simpa [ErrorFieldsAgree] using hs
  | cleared | reset => exact ⟨⟨fun _ => rfl, fun _ => rfl⟩, .ok, rfl⟩

theorem CommandEffect.keeps_idleClean (h : CommandEffect s i t) (hs : s.mode = .idle → IdleClean s)
    (hmode : t.mode = .idle) : IdleClean t := by
  simp only [idleClean_iff] at hs ⊢
  cases h with
  | rejected | answered => exact hs hmode
  | cleared =>
    obtain ⟨⟨hlock, -, hdata⟩, hbuffers⟩ := hs hmode
    exact ⟨⟨hlock, rfl, hdata⟩, hbuffers⟩
  | reset => simp
  | wrote => simpa using hs (by simpa using hmode)
  | began => cases hmode
  | processed re im hrun => cases hrun.symm.trans hmode

/-- In RUN only SRST, START and PROC touch the datapath, and START is rejected. -/
theorem CommandEffect.datapath_eq (h : CommandEffect s i t) (hmode : s.mode = .run) (hsrst : i ≠ .srst)
    (hproc : isProc i = false) : datapath t = datapath s := by
  cases h with
  | rejected | answered | cleared => rfl
  | reset => exact absurd rfl hsrst
  | wrote a v r hrun => rw [hrun hmode]; rfl
  | began hlegal =>
    obtain ⟨hidle, -⟩ := startReject_none hlegal
    cases hidle.symm.trans hmode
  | processed => cases hproc

theorem CommandEffect.keeps_runLegal (h : CommandEffect s i t) (hs : s.mode = .run → RunLegal s)
    (hmode : t.mode = .run) : RunLegal t := by
  cases h with
  | rejected | answered | cleared => exact runLegal_of_datapath_eq (hs hmode) rfl
  | reset => cases hmode
  | wrote a v r hrun =>
    have hmode' : s.mode = .run := by simpa using hmode
    rw [hrun hmode']
    exact runLegal_of_datapath_eq (hs hmode') rfl
  | began hlegal => exact runLegal_of_datapath_eq (runLegal_beginSession hlegal) rfl
  | processed re im hrun => exact runLegal_of_datapath_eq (runLegal_stepState _ (hs hrun)) rfl

theorem CommandEffect.keeps_inv (h : CommandEffect s i t) (hs : Inv s) : Inv t := by
  obtain ⟨herr, hidle, hrun⟩ := hs
  exact ⟨h.keeps_errorFields herr, h.keeps_idleClean hidle, h.keeps_runLegal hrun⟩

theorem CommandEffect.keeps_phaseWrapped (h : CommandEffect s i t) (hs : PhaseWrapped s) : PhaseWrapped t := by
  cases h with
  | rejected | answered | cleared => exact hs
  | wrote => simpa [PhaseWrapped] using hs
  | reset | began => exact phaseWrapped_of_zero rfl
  | processed => exact wrap_nan_or_in_range _ _

end

/-! ## The step -/

/-- What holds of a state whatever waits on the port, holds after a hard reset, and is kept by every effect of a command, is
kept by every step. -/
theorem step_keeps {P : State → Prop} (hport : ∀ s rest, P s → P { s with port := rest })
    (hhard : ∀ s, P (hardReset s)) (heffect : ∀ {s t i}, CommandEffect s i t → P s → P t) {s t : State} (hs : P s)
    (h : step s = .next t) : P t := by
  rcases step_cases h with ⟨-, rfl⟩ | ⟨rest, -, rfl⟩ | ⟨c, rest, e, -, -, rfl⟩ | ⟨c, rest, i, -, -, hexec⟩
  · exact hs
  · exact hhard _
  · exact heffect (.rejected .nop .illegalCmd (by decide)) (hport s rest hs)
  · exact heffect (effect_of_exec hexec) (hport s rest hs)

/-- Settles O25: the invariant does not depend on the port, a hard reset establishes it, and every effect keeps it. -/
theorem stepKeepsInvariant : Obligations.StepKeepsInvariant := by
  unfold Obligations.StepKeepsInvariant
  exact fun s t => step_keeps (fun s rest hs => inv_of_port hs rest) inv_hardReset CommandEffect.keeps_inv

/-- Settles O26: only PROC computes a phase, and it wraps it. -/
theorem stepKeepsPhaseWrapped : Obligations.StepKeepsPhaseWrapped := by
  unfold Obligations.StepKeepsPhaseWrapped
  exact fun s t => step_keeps (fun _ _ hs => hs) (fun _ => phaseWrapped_of_zero rfl) CommandEffect.keeps_phaseWrapped

/-! ## The lock state -/

/-- The table of R204, by the transitions that it has. -/
theorem lockAfter_cases {x : Cplx} {s : State} (h : lockAfter x s ≠ s.lock) :
    (s.lock = .acquiringFrequency ∧ lockAfter x s = .acquiringPhase) ∨
      (s.lock = .acquiringPhase ∧ lockAfter x s = .tracking) ∨
      (s.lock = .tracking ∧ lockAfter x s = .acquiringPhase) ∨
      ((s.lock = .acquiringPhase ∨ s.lock = .tracking) ∧ lockAfter x s = .acquiringFrequency ∧
        fgt (fabs (avgFreqErr x s)) s.cfgFreqThr = true) := by
  cases hlock : s.lock with
  | acquiringFrequency =>
    simp only [lockAfter, hlock] at h ⊢
    split_ifs at h ⊢
    · simp
    · exact absurd rfl h
  | acquiringPhase =>
    simp only [lockAfter, hlock] at h ⊢
    split_ifs at h ⊢ with hexceeds
    · simp [hexceeds]
    · simp
    · exact absurd rfl h
  | tracking =>
    simp only [lockAfter, hlock] at h ⊢
    split_ifs at h ⊢ with hexceeds
    · simp [hexceeds]
    · simp
    · exact absurd rfl h

/-- Settles O27: an effect that changes the lock state is SRST's, START's or PROC's, and PROC's follows the table. -/
theorem lockChangesOnlyAlongTransitions : Obligations.LockChangesOnlyAlongTransitions := by
  unfold Obligations.LockChangesOnlyAlongTransitions
  intro s t hstep hlock
  rcases step_cases hstep with
    ⟨-, rfl⟩ | ⟨rest, hport, rfl⟩ | ⟨c, rest, e, -, -, rfl⟩ | ⟨c, rest, i, hport, hdecode, hexec⟩
  · exact absurd rfl hlock
  · exact .inl ⟨rfl, rest, hport⟩
  · exact absurd rfl hlock
  · refine .inr ⟨c, rest, hport, ?_⟩
    cases effect_of_exec hexec with
    | rejected | answered | cleared => exact absurd rfl hlock
    | wrote => exact absurd (by simp) hlock
    | reset => exact .inl ⟨hdecode, rfl⟩
    | began hlegal =>
      obtain ⟨hidle, -⟩ := startReject_none hlegal
      exact .inr (.inl ⟨hdecode, hidle, rfl, rfl⟩)
    | processed re im hrun => exact .inr (.inr ⟨re, im, hdecode, hrun, lockAfter_cases hlock⟩)

/-! ## A running session -/

/-- Settles O28: from RUN to RUN the datapath is kept, or it is a PROC's, which writes none of these fields. -/
theorem runningSessionIsFixed : Obligations.RunningSessionIsFixed := by
  unfold Obligations.RunningSessionIsFixed
  intro s t hmode hstep hmode'
  rcases step_cases hstep with ⟨-, rfl⟩ | ⟨rest, -, rfl⟩ | ⟨c, rest, e, -, -, rfl⟩ | ⟨c, rest, i, -, -, hexec⟩
  · simp
  · cases hmode'
  · simp
  · cases effect_of_exec hexec with
    | rejected | answered | cleared => simp
    | reset => cases hmode'
    | wrote a v r hrun => rw [hrun hmode]; simp
    | began hlegal =>
      obtain ⟨hidle, -⟩ := startReject_none hlegal
      cases hidle.symm.trans hmode
    | processed => exact ⟨rfl, rfl, rfl, rfl, rfl, rfl, rfl, rfl⟩

end Sys2Proof.Machine
end

section
/-! Sessions as runs of commands: what a session's results depend on, where it begins, and a NaN phase
(48_host_commands.md R229; 70_reset_and_hazards.md R292, R301). -/

namespace Sys2Proof.Machine

/-! ## The state after one command -/

theorem after_of_exec {i : Instr} {s t : State} (h : exec i s = .next t) : after i s = t := by
  rw [after, h, stateOr]

theorem effect_after (i : Instr) (s : State) : CommandEffect s i (after i s) := by
  obtain ⟨t, hexec, heffect⟩ := exec_effect i s
  exact after_of_exec hexec ▸ heffect

theorem after_proc {s : State} (re im : F64) (hmode : s.mode = .run) :
    after (.proc re im) s =
      respond .ok (narrowband ⟨re, im⟩ s).re (narrowband ⟨re, im⟩ s).im (stepState ⟨re, im⟩ s) :=
  after_of_exec (exec_proc_run re im hmode)

/-! ## What the PROCs depend on -/

theorem mode_eq_of_datapath_eq {s t : State} (h : datapath s = datapath t) : s.mode = t.mode := by
  have hmode (u : State) : u.mode = (datapath u).mode := rfl
  rw [hmode s, h, ← hmode t]

theorem narrowband_datapath (x : Cplx) (s : State) : narrowband x (datapath s) = narrowband x s := rfl

theorem datapath_stepState (x : Cplx) (s : State) : datapath (stepState x (datapath s)) = datapath (stepState x s) := rfl

/-- A PROC answers from the datapath, and leaves a datapath that depends on nothing else. -/
theorem after_proc_of_datapath_eq {s t : State} (re im : F64) (hmode : s.mode = .run) (h : datapath s = datapath t) :
    (after (.proc re im) s).response = (after (.proc re im) t).response ∧
      datapath (after (.proc re im) s) = datapath (after (.proc re im) t) := by
  have hout : narrowband ⟨re, im⟩ s = narrowband ⟨re, im⟩ t := by rw [← narrowband_datapath, h, narrowband_datapath]
  have hnext : datapath (stepState ⟨re, im⟩ s) = datapath (stepState ⟨re, im⟩ t) := by
    rw [← datapath_stepState, h, datapath_stepState]
  rw [after_proc re im hmode, after_proc re im (mode_eq_of_datapath_eq h ▸ hmode), hout]
  exact ⟨rfl, hnext⟩

theorem afterAll_cons (i : Instr) (is : List Instr) (s : State) : afterAll (i :: is) s = afterAll is (after i s) := rfl

theorem procResponses_cons_of_proc {i : Instr} (h : isProc i = true) (is : List Instr) (s : State) :
    procResponses (i :: is) s = (after i s).response :: procResponses is (after i s) := by
  rw [procResponses, if_pos h, List.singleton_append]

theorem procResponses_cons_of_not_proc {i : Instr} (h : isProc i = false) (is : List Instr) (s : State) :
    procResponses (i :: is) s = procResponses is (after i s) := by
  rw [procResponses, h]; rfl

/-- A list of commands without SRST does to a running session what its PROCs alone do. -/
theorem session_eq_procs_alone {is : List Instr} (hsrst : ∀ i ∈ is, i ≠ .srst) {s u : State} (hmode : s.mode = .run)
    (hd : datapath s = datapath u) :
    procResponses is s = procResponses (is.filter isProc) u ∧
      datapath (afterAll is s) = datapath (afterAll (is.filter isProc) u) := by
  induction is generalizing s u with
  | nil => exact ⟨rfl, hd⟩
  | cons i is ih =>
    obtain ⟨hi, his⟩ := List.forall_mem_cons.1 hsrst
    cases hproc : isProc i with
    | false =>
      have hkept := (effect_after i s).datapath_eq hmode hi hproc
      rw [List.filter_cons_of_neg (by simp [hproc]), procResponses_cons_of_not_proc hproc, afterAll_cons]
      exact ih his ((mode_eq_of_datapath_eq hkept).trans hmode) (hkept.trans hd)
    | true =>
      obtain ⟨re, im, rfl⟩ : ∃ re im, i = .proc re im := by
        cases i with
        | proc re im => exact ⟨re, im, rfl⟩
        | nop | srst | cfgw | rdreg | start | clrst => cases hproc
      have hmode' : (after (.proc re im) s).mode = .run := by rw [after_proc re im hmode]; exact hmode
      obtain ⟨hresponse, hd'⟩ := after_proc_of_datapath_eq re im hmode hd
      obtain ⟨hresponses, hend⟩ := ih his hmode' hd'
      rw [List.filter_cons_of_pos hproc, procResponses_cons_of_proc hproc, procResponses_cons_of_proc hproc,
        afterAll_cons, afterAll_cons, hresponse, hresponses]
      exact ⟨rfl, hend⟩

/-- Settles O29: both lists do what their PROCs alone do from the same datapath. -/
theorem interleavedCommandsDoNotMatter : Obligations.InterleavedCommandsDoNotMatter := by
  unfold Obligations.InterleavedCommandsDoNotMatter
  intro is js s t hmode his hjs hprocs hd
  obtain ⟨his1, his2⟩ := session_eq_procs_alone his hmode rfl
  obtain ⟨hjs1, hjs2⟩ := session_eq_procs_alone hjs (mode_eq_of_datapath_eq hd ▸ hmode) hd.symm
  rw [his1, his2, hjs1, hjs2, hprocs]
  exact ⟨rfl, rfl⟩

/-! ## Where a session begins -/

/-- Settles O30: the checks and the coefficients read the mode, the configuration and the counter only, and a session keeps
nothing else of the state it begins in. -/
theorem sessionBeginsFromConfiguration : Obligations.SessionBeginsFromConfiguration := by
  unfold Obligations.SessionBeginsFromConfiguration
  intro s t hs ht hsps hrolloff hspan hwindow hfreq hphase hfree
  have hcount : cfgCount s = cfgCount t := by rw [cfgCount, cfgCount, hsps, hspan]
  have hraw : cfgRawTaps s = cfgRawTaps t := by rw [cfgRawTaps, cfgRawTaps, hsps, hspan, hrolloff, hfree]
  have henergy : cfgEnergy s = cfgEnergy t := by rw [cfgEnergy, cfgEnergy, hraw, hfree]
  have htaps : cfgTaps s = cfgTaps t := by rw [cfgTaps, cfgTaps, hraw, henergy, hfree]
  have hreject : startReject s = startReject t := by
    unfold startReject rolloffLegal
    rw [hs.trans ht.symm, hsps, hrolloff, hwindow, hcount, henergy, htaps]
  cases hcheck : startReject s with
  | some c =>
    rw [after_of_exec (exec_start_of_startReject hcheck),
      after_of_exec (exec_start_of_startReject (hreject.symm.trans hcheck))]
    exact ⟨hs.trans ht.symm, fun hrun => by cases hs.symm.trans hrun⟩
  | none =>
    rw [after_of_exec (exec_start_of_startReject_none hcheck),
      after_of_exec (exec_start_of_startReject_none (hreject.symm.trans hcheck))]
    refine ⟨rfl, fun _ => ?_⟩
    simp [datapath, respond, beginSession_eq, hcount, htaps, hsps, hrolloff, hspan, hwindow, hfreq, hphase, hfree]

/-! ## A NaN phase -/

theorem isFinite_of_isNaN {x : F64} (h : isNaN x = true) : isFinite x = false := by
  rcases class_cases x with ⟨-, -, hfin⟩ | ⟨hnan, -⟩ | ⟨hnan, -⟩
  · exact hfin
  · cases h.symm.trans hnan
  · cases h.symm.trans hnan

section
variable {s : State} (hnan : isNaN s.ncoPhase = true)
include hnan

theorem isNaN_phaseAfter : isNaN (phaseAfter s) = true :=
  isNaN_wrap_of_not_finite (isFinite_of_isNaN (fadd_nan_left _ _ hnan)) _

theorem isNaN_wideband (x : Cplx) : isNaN (wideband x s).re = true ∧ isNaN (wideband x s).im = true := by
  obtain ⟨-, hcos⟩ := isNaN_fsin_fcos (isFinite_of_isNaN hnan)
  exact ⟨fsub_nan_left _ _ (fmul_nan_left _ _ hcos), fadd_nan_left _ _ (fmul_nan_left _ _ hcos)⟩

end

/-- A NaN in the first tap makes every sum of at least one term NaN. -/
theorem isNaN_firSum {n : ℕ} (hn : 1 ≤ n) (q : Site) (coef : List F64) {taps : List Cplx}
    (hre : isNaN (taps.getD 0 C0).re = true) (him : isNaN (taps.getD 0 C0).im = true) :
    isNaN (firSum q n coef taps).re = true ∧ isNaN (firSum q n coef taps).im = true := by
  induction n, hn using Nat.le_induction with
  | base =>
    rw [firSum_succ]
    exact ⟨fadd_nan_right _ _ (fmul_nan_right _ _ hre), fadd_nan_right _ _ (fmul_nan_right _ _ him)⟩
  | succ n hn ih =>
    rw [firSum_succ]
    obtain ⟨ihre, ihim⟩ := ih
    exact ⟨fadd_nan_left _ _ ihre, fadd_nan_left _ _ ihim⟩

theorem getD_tapsAfter_zero {s : State} (hn : 1 ≤ s.ntaps) (x : Cplx) : (tapsAfter x s).getD 0 C0 = wideband x s := by
  obtain ⟨n, hn⟩ := Nat.exists_eq_add_of_le' hn
  simp [tapsAfter, hn]

/-- Settles O32: the carrier of a NaN phase is NaN, so the newest tap is, and the sum with it; the wrapped phase is NaN. -/
theorem nanPhaseNeverRecovers : Obligations.NanPhaseNeverRecovers := by
  unfold Obligations.NanPhaseNeverRecovers
  intro s re im hmode hn hnan
  obtain ⟨hre, him⟩ := isNaN_wideband hnan ⟨re, im⟩
  obtain ⟨hout0, hout1⟩ : isNaN (narrowband ⟨re, im⟩ s).re = true ∧ isNaN (narrowband ⟨re, im⟩ s).im = true := by
    rw [← getD_tapsAfter_zero hn ⟨re, im⟩] at hre him
    exact isNaN_firSum hn _ _ hre him
  have hflag : stepFinite ⟨re, im⟩ s = false := by simp [stepFinite, isFinite_of_isNaN hout0]
  refine ⟨_, _, exec_proc_run re im hmode, rfl, isNaN_phaseAfter hnan, ?_, hout0, hout1⟩
  simp [stepState, hflag]

end Sys2Proof.Machine
end

section
/-! Runs of the sub-blocks: the tap buffer, the second delay-line realization, and the latency of a loop filter (43_fir.md
R150, R151; 45_delay_line.md R172; 44_accum_dump.md R160, R162). -/

namespace Sys2Proof.Machine

/-! ## The tap buffer -/

theorem foldl_firShift {α : Type} {n : ℕ} (xs : List α) {taps : List α} (h : taps.length = n) :
    xs.foldl (fun b x => firShift n x b) taps = (xs.reverse ++ taps).take n := by
  induction xs using List.reverseRecOn with
  | nil => simp [← h]
  | append_singleton xs x ih =>
    have hshift : (xs ++ [x]).foldl (fun b x => firShift n x b) taps = firShift n x ((xs.reverse ++ taps).take n) := by
      rw [List.foldl_append, ih, List.foldl_cons, List.foldl_nil]
    rw [hshift, firShift, List.reverse_append, List.reverse_singleton, List.singleton_append, List.cons_append]
    cases n with
    | zero => rfl
    | succ n => rw [List.take_succ_cons, List.take_succ_cons, List.take_take, Nat.min_eq_left n.le_succ]

/-- Settles O48: a shift puts the latest input first and cuts to the length, so the cuts of earlier shifts do not show. -/
theorem tapBufferHoldsNewestFirst : Obligations.TapBufferHoldsNewestFirst := by
  unfold Obligations.TapBufferHoldsNewestFirst
  exact fun n taps xs => foldl_firShift xs

/-! ## The delay line with one slot more -/

section
variable {k : ℕ} {d : DelayLine}

/-- With `k+1` slots the slot at the index holds a value that was already read; the `k` others wait, the oldest first. -/
theorem dlCallAhead_waiting (h : d.HasSlots (k + 1)) (x : F64) :
    (dlCallAhead k x d).1 :: (dlCallAhead k x d).2.waiting.tail = d.waiting.tail ++ [x] := by
  obtain ⟨hlen, hidx⟩ := h
  have hnext : (dlCallAhead k x d).2.waiting = d.waiting.tail ++ [x] := by
    rw [dlCallAhead, ← hlen, waiting_of_set (hlen ▸ hidx), waiting_eq_cons (hlen ▸ hidx), List.tail_cons]
  have hread : (d.idx + 1) % (k + 1) < (d.buf.set d.idx x).length := by
    rw [List.length_set, hlen]
    exact Nat.mod_lt _ k.succ_pos
  rw [← hnext, dlCallAhead, waiting_eq_cons hread, List.tail_cons]

theorem dlCallAhead_keeps_hasSlots (h : d.HasSlots (k + 1)) (x : F64) : (dlCallAhead k x d).2.HasSlots (k + 1) := by
  obtain ⟨hlen, -⟩ := h
  exact ⟨List.length_set.trans hlen, Nat.mod_lt _ k.succ_pos⟩

theorem dlOutputs_ahead_eq_take (h : d.HasSlots (k + 1)) (xs : List F64) :
    dlOutputs (dlCallAhead k) d xs = (d.waiting.tail ++ xs).take xs.length := by
  induction xs generalizing d with
  | nil => rfl
  | cons x xs ih =>
    rw [dlOutputs, ih (dlCallAhead_keeps_hasSlots h x), List.length_cons, ← List.take_succ_cons, ← List.cons_append,
      dlCallAhead_waiting h x, List.append_assoc, List.singleton_append]

end

/-- Settles O53: both realizations are queues of `k` waiting values, at first zeros. -/
theorem delayLineRealizationsAgree : Obligations.DelayLineRealizationsAgree := by
  unfold Obligations.DelayLineRealizationsAgree
  intro k xs hk
  have hslots : DelayLine.HasSlots (k + 1) ⟨List.replicate (k + 1) 0, 0⟩ := ⟨List.length_replicate, k.succ_pos⟩
  rw [delayLineDelaysInputs k xs hk, dlOutputs_ahead_eq_take hslots, waiting_of_idx_zero, List.tail_replicate,
    Nat.add_sub_cancel]

/-! ## A loop filter's window -/

/-- Calls that do not enter with a full window return the held value and add their inputs up. -/
theorem adOutputs_append_of_not_full {q : Site} {w : ℕ} (hw : w < 2 ^ 32) (xs ys : List F64) {i : ℕ} {b : AccDump}
    (h : b.count.toNat + xs.length ≤ w) :
    adOutputs q w i b (xs ++ ys) =
      List.replicate xs.length b.last ++
        adOutputs q w (i + xs.length) ⟨b.count + BitVec.ofNat 32 xs.length, adSum q i b.acc xs, b.last⟩ ys := by
  induction xs generalizing i b with
  | nil => simp [adSum]
  | cons x xs ih =>
    rw [List.length_cons] at h
    have hcall := adProc_of_count_ne (i :: q) x (show b.count.toNat ≠ w by omega)
    have hcount : (b.count + 1).toNat = b.count.toNat + 1 := by
      have hone : (1 : BitVec 32).toNat = 1 := rfl
      rw [BitVec.toNat_add_of_lt (by omega), hone]
    have hsum : b.count + 1 + BitVec.ofNat 32 xs.length = b.count + BitVec.ofNat 32 (xs.length + 1) := by
      rw [BitVec.add_assoc, Nat.add_comm xs.length 1, BitVec.ofNat_add]
      rfl
    rw [List.cons_append, adOutputs, hcall, ih (by rw [hcount]; omega), adSum, hsum, List.length_cons,
      List.replicate_succ, List.cons_append, Nat.add_assoc, Nat.add_comm 1]

/-- Settles O50: the first window's calls never enter with a full one; the next call does, and holds the sum for the rest of
its own window. -/
theorem loopFilterHasOneWindowLatency : Obligations.LoopFilterHasOneWindowLatency := by
  unfold Obligations.LoopFilterHasOneWindowLatency
  intro q w held xs ys hw hlt hxs hys
  obtain ⟨y, ys, rfl⟩ := List.exists_cons_of_length_pos (hys ▸ hw)
  have hfull : (0 + BitVec.ofNat 32 xs.length).toNat = w := by
    have hcount : 0 + BitVec.ofNat 32 xs.length = BitVec.ofNat 32 xs.length := BitVec.zero_add _
    rw [hcount, BitVec.toNat_ofNat, hxs, Nat.mod_eq_of_lt hlt]
  have hrest := adOutputs_append_of_not_full (q := q) (i := 0 + xs.length + 1)
    (b := ⟨1, fadd ((0 + xs.length) :: q) 0 y, adSum q 0 0 xs⟩) hlt ys []
    (by rw [← hys, List.length_cons, Nat.add_comm]; exact le_rfl)
  rw [List.append_nil] at hrest
  rw [adOutputs_append_of_not_full hlt xs (y :: ys) (by rw [hxs]; simp), adOutputs, adProc_of_count_eq _ _ hfull, hrest,
    hxs, ← hys, List.length_cons]
  simp [adOutputs, List.replicate_succ]

end Sys2Proof.Machine
end

section
/-! The formulas of the coefficient synthesizer: the branches of a raw tap, the energy and the normalization (42_rrc_synth.md
R131 to R136). -/

namespace Sys2Proof.Machine

/-! ## The branches of a raw tap -/

section
variable (q : Site) {t r : F64}

theorem rrcRaw_of_centre (h : feq t 0 = true) : rrcRaw q t r = rrcCentre (0 :: q) r := if_pos h

theorem rrcRaw_of_singular (h : feq t 0 = false) (hs : feq (fabs t) (rrcSingularTime (1 :: q) r) = true) :
    rrcRaw q t r = rrcSingular (2 :: q) r := by
  rw [rrcRaw, if_neg (Bool.eq_false_iff.1 h), if_pos hs]

theorem rrcRaw_of_general (h : feq t 0 = false) (hs : feq (fabs t) (rrcSingularTime (1 :: q) r) = false) :
    rrcRaw q t r = rrcGeneral (3 :: q) t r := by
  rw [rrcRaw, if_neg (Bool.eq_false_iff.1 h), if_neg (Bool.eq_false_iff.1 hs)]

end

theorem getElem?_rrcRawTaps (q : Site) (r : F64) {sps d k : ℕ} (h : k < rrcCount sps d) :
    (rrcRawTaps q sps d r)[k]? = some (rrcRaw (1 :: k :: q) (rrcTime (0 :: k :: q) sps d k) r) := by
  simp [rrcRawTaps, List.getElem?_range h]

/-- Settles O44: the conditional takes the first branch whose condition holds, and the branches are the formulas. -/
theorem rawTapsFollowBranches : Obligations.RawTapsFollowBranches := by
  unfold Obligations.RawTapsFollowBranches
  refine ⟨fun q t r h => rrcRaw_of_centre q h, fun q t r h hs a ha => ?singular, fun q t r h hs x y hx hy => ?general,
    fun q sps d r => ⟨length_rrcRawTaps q sps d r, fun k => getElem?_rrcRawTaps q r⟩⟩
  case singular => rw [rrcRaw_of_singular q h hs, rrcSingular, ha]
  case general => rw [rrcRaw_of_general q h hs, rrcGeneral, rrcNum, rrcDen, hx, hy]

/-! ## The energy and the normalized taps -/

theorem rrcEnergyFrom_append (q : Site) (raw : List F64) (v : F64) (k : ℕ) (e : F64) :
    rrcEnergyFrom q k e (raw ++ [v]) =
      fadd (1 :: (k + raw.length) :: q) (rrcEnergyFrom q k e raw) (fmul (0 :: (k + raw.length) :: q) v v) := by
  induction raw generalizing k e with
  | nil => rfl
  | cons u raw ih =>
    rw [List.cons_append, rrcEnergyFrom, ih, rrcEnergyFrom, List.length_cons, Nat.add_assoc, Nat.add_comm 1]

theorem getElem?_rrcNorm (q : Site) (raw : List F64) (e : F64) (k : ℕ) :
    (rrcNorm q raw e)[k]? = raw[k]?.map fun v => fdiv (1 :: k :: q) v (fsqrt (0 :: q) e) := by
  rw [rrcNorm, List.getElem?_map, List.getElem?_zipIdx, Option.map_map, Nat.zero_add]
  rfl

/-- Settles O59: the energy's recursion runs in index order, the normalization is a map, and START's three values are by
definition these functions of its registers. -/
theorem energyAndNormalization : Obligations.EnergyAndNormalization := by
  unfold Obligations.EnergyAndNormalization
  refine ⟨fun q raw v => ⟨rfl, ?energy⟩, fun q raw e => ⟨length_rrcNorm q raw e, getElem?_rrcNorm q raw e⟩,
    fun s => ⟨rfl, rfl, rfl⟩⟩
  case energy => rw [rrcEnergy, rrcEnergyFrom_append, Nat.zero_add, rrcEnergy]

end Sys2Proof.Machine
end

section
/-! Rounding to the nearest magnitude, ties to even, and the operations that round an exact result once (00_scope.md R6,
R7). -/

namespace Sys2Proof.Machine

/-! ## The nearest whole number -/

/-- `r` is a whole number nearest to `y`, the even one at a tie. -/
def NearestEven (y : ℝ) (r : ℕ) : Prop := |(r : ℝ) - y| ≤ 1 / 2 ∧ (|(r : ℝ) - y| = 1 / 2 → r % 2 = 0)

theorem abs_sub_quot {a c d : ℝ} (hd : 0 < d) : |c - a / d| = |c * d - a| / d := by
  rw [sub_div' hd.ne', abs_div, abs_of_pos hd]

theorem nearestEven_roundQuot (n : ℕ) {d : ℕ} (hd : 0 < d) : NearestEven ((n : ℝ) / d) (roundQuot n d) := by
  have hd' : (0 : ℝ) < d := Nat.cast_pos.2 hd
  have hn : (n : ℝ) = (n / d : ℕ) * d + (n % d : ℕ) := by exact_mod_cast (Nat.div_add_mod' n d).symm
  have hmod : n % d < d := Nat.mod_lt n hd
  rw [NearestEven, abs_sub_quot hd', div_le_iff₀ hd', div_eq_iff hd'.ne']
  unfold roundQuot
  split_ifs with hup
  · simp only [Bool.or_eq_true, Bool.and_eq_true, decide_eq_true_eq, beq_iff_eq] at hup
    have habs : |((n / d + 1 : ℕ) : ℝ) * d - n| = (d - n % d : ℕ) := by
      rw [Nat.cast_sub hmod.le, hn, Nat.cast_add, abs_of_nonneg] <;> push_cast <;>
        nlinarith [(Nat.cast_lt (α := ℝ)).2 hmod]
    rw [habs, div_mul_eq_mul_div, le_div_iff₀ two_pos, eq_div_iff two_ne_zero, one_mul]
    norm_cast
    omega
  · simp only [Bool.or_eq_true, Bool.and_eq_true, decide_eq_true_eq, beq_iff_eq] at hup
    have habs : |((n / d : ℕ) : ℝ) * d - n| = (n % d : ℕ) := by
      rw [hn, sub_add_cancel_left, abs_neg, Nat.abs_cast]
    rw [habs, div_mul_eq_mul_div, le_div_iff₀ two_pos, eq_div_iff two_ne_zero, one_mul]
    norm_cast
    omega

section
variable {y : ℝ} {r s : ℕ}

theorem NearestEven.eq_or_eq_succ (h : NearestEven y r) (hlo : (s : ℝ) ≤ y) (hhi : y < s + 1) :
    (r : ℝ) = s ∨ (r : ℝ) = s + 1 := by
  obtain ⟨hhalf, -⟩ := h
  obtain ⟨hlow, hhigh⟩ := abs_le.1 hhalf
  have hlt : (r : ℝ) < (s + 2 : ℕ) := by push_cast; linarith
  have hgt : (s : ℝ) < (r + 1 : ℕ) := by push_cast; linarith
  have hlt' := Nat.cast_lt.1 hlt
  have hgt' := Nat.cast_lt.1 hgt
  obtain rfl | rfl : r = s ∨ r = s + 1 := by omega
  · exact .inl rfl
  · exact .inr (Nat.cast_succ s)

/-- Nothing beyond the whole numbers around `y` is nearer to it than the nearest of them, or as near but at a tie. -/
theorem NearestEven.nearest {a : ℝ} (h : NearestEven y r) (hlo : (s : ℝ) ≤ y) (hhi : y < s + 1)
    (ha : a ≤ s ∨ (s : ℝ) + 1 ≤ a) :
    |(r : ℝ) - y| ≤ |a - y| ∧ (a ≠ r → |a - y| = |(r : ℝ) - y| → |(r : ℝ) - y| = 1 / 2) := by
  have hends := h.eq_or_eq_succ hlo hhi
  obtain ⟨hhalf, -⟩ := h
  rcases hends with hr | hr
  · have hdist : |(r : ℝ) - y| = y - s := by rw [hr, abs_sub_comm, abs_of_nonneg (by linarith)]
    rw [hdist] at hhalf ⊢
    rcases ha with ha | ha
    · rw [abs_sub_comm, abs_of_nonneg (by linarith)]
      exact ⟨by linarith, fun hne heq => absurd (by linarith) hne⟩
    · rw [abs_of_nonneg (by linarith)]
      exact ⟨by linarith, fun _ heq => by linarith⟩
  · have hdist : |(r : ℝ) - y| = s + 1 - y := by rw [hr, abs_of_nonneg (by linarith)]
    rw [hdist] at hhalf ⊢
    rcases ha with ha | ha
    · rw [abs_sub_comm, abs_of_nonneg (by linarith)]
      exact ⟨by linarith, fun _ heq => by linarith⟩
    · rw [abs_of_nonneg (by linarith)]
      exact ⟨by linarith, fun hne heq => absurd (by linarith) hne⟩

end

/-! ## The nearest magnitude -/

/-- `w` is the magnitude word nearest to `y` units, the even one at a tie. The exponent is not bounded. -/
def NearestMag (y : ℝ) (w : ℕ) : Prop :=
  ∀ m : ℕ, |(magUnits w : ℝ) - y| ≤ |(magUnits m : ℝ) - y| ∧
    (m ≠ w → |(magUnits m : ℝ) - y| = |(magUnits w : ℝ) - y| → w % 2 = 0)

/-- The words of one binade are in steps of one scale, the first word of the next binade included. -/
theorem magUnits_scaled {k r : ℕ} (hr : r ≤ 2 ^ 53) (hk : k = 0 ∨ 2 ^ 52 ≤ r) :
    magUnits (k * 2 ^ 52 + r) = r * 2 ^ k := by
  rcases hr.lt_or_eq with hlt | rfl
  · rcases hk with rfl | hr'
    · rw [Nat.zero_mul, Nat.zero_add, magUnits_sub hlt, pow_zero, mul_one]
    · exact magUnits_normal k r hr' hlt
  · rw [show k * 2 ^ 52 + 2 ^ 53 = (k + 1) * 2 ^ 52 + 2 ^ 52 by omega, magUnits_normal (k + 1) _ le_rfl (by decide),
      pow_succ]
    ring

/-- Rounding the quotient by the scale of its binade gives the nearest magnitude. -/
theorem nearestMag_of_nearestEven {y : ℝ} {k r s : ℕ} (hs : s < 2 ^ 53) (hk : k = 0 ∨ 2 ^ 52 ≤ s)
    (hlo : (s : ℝ) ≤ y / 2 ^ k) (hhi : y / 2 ^ k < s + 1) (h : NearestEven (y / 2 ^ k) r) :
    NearestMag y (k * 2 ^ 52 + r) := by
  have hpow : (0 : ℝ) < 2 ^ k := by positivity
  have hr : r = s ∨ r = s + 1 := by exact_mod_cast h.eq_or_eq_succ hlo hhi
  have hdist (a : ℝ) : |a * 2 ^ k - y| = |a - y / 2 ^ k| * 2 ^ k := by
    rw [abs_sub_quot hpow, div_mul_cancel₀ _ hpow.ne']
  have hw : (magUnits (k * 2 ^ 52 + r) : ℝ) = r * 2 ^ k := by
    rw [magUnits_scaled (by omega) (by omega)]; push_cast; rfl
  intro m
  have hm : (magUnits m : ℝ) = magUnits m / 2 ^ k * 2 ^ k := by rw [div_mul_cancel₀ _ hpow.ne']
  have hbeyond : (magUnits m : ℝ) / 2 ^ k ≤ s ∨ (s : ℝ) + 1 ≤ magUnits m / 2 ^ k := by
    rw [div_le_iff₀ hpow, le_div_iff₀ hpow]
    rcases Nat.lt_or_ge m (k * 2 ^ 52 + (s + 1)) with hlt | hge
    · have hle := magUnits_strictMono.monotone (show m ≤ k * 2 ^ 52 + s by omega)
      rw [magUnits_scaled (by omega) (by omega)] at hle
      exact .inl (by exact_mod_cast hle)
    · have hle := magUnits_strictMono.monotone hge
      rw [magUnits_scaled (by omega) (by omega)] at hle
      exact .inr (by exact_mod_cast hle)
  obtain ⟨hle, htie⟩ := h.nearest hlo hhi hbeyond
  rw [hw, hm, hdist, hdist]
  refine ⟨mul_le_mul_of_nonneg_right hle hpow.le, fun hne heq => ?_⟩
  have hne' : (magUnits m : ℝ) / 2 ^ k ≠ r := fun heq' =>
    hne (magUnits_strictMono.injective (by rw [heq', ← hw] at hm; exact_mod_cast hm))
  have heven := h.2 (htie hne' (mul_right_cancel₀ hpow.ne' heq))
  omega

/-! ## Rounding a quotient of natural numbers -/

/-- The word of `roundMag` before the exponent is bounded. -/
def roundWord (n d : ℕ) : ℕ := roundShift (n / d) * 2 ^ 52 + roundQuot n (d * 2 ^ roundShift (n / d))

theorem roundMag_eq (n d : ℕ) : roundMag n d = min infMag (roundWord n d) := by
  rw [roundMag, roundWord]

/-- The dropped bits leave a significand of 53 bits, or none are dropped. -/
theorem div_two_pow_roundShift (u : ℕ) :
    u / 2 ^ roundShift u < 2 ^ 53 ∧ (roundShift u = 0 ∨ 2 ^ 52 ≤ u / 2 ^ roundShift u) := by
  have hlt : u < 2 ^ (Nat.log2 u + 1) := Nat.lt_log2_self
  unfold roundShift
  rcases Nat.lt_or_ge (Nat.log2 u) 52 with h | h
  · rw [Nat.sub_eq_zero_of_le h.le]
    have hle : 2 ^ (Nat.log2 u + 1) ≤ 2 ^ 53 := Nat.pow_le_pow_right two_pos (by omega)
    exact ⟨by omega, .inl rfl⟩
  · obtain ⟨j, hj⟩ := Nat.exists_eq_add_of_le' h
    have hu : u ≠ 0 := by rintro rfl; simp at h
    have hge : 2 ^ Nat.log2 u ≤ u := (Nat.le_log2 hu).1 le_rfl
    rw [hj] at hlt hge ⊢
    have hj53 : 53 + j = j + 52 + 1 := by omega
    rw [Nat.add_sub_cancel, Nat.div_lt_iff_lt_mul (Nat.two_pow_pos j), Nat.le_div_iff_mul_le (Nat.two_pow_pos j),
      ← pow_add, ← pow_add, hj53, Nat.add_comm 52 j]
    exact ⟨hlt, .inr hge⟩

/-- A quotient lies between its whole part and the next whole number. -/
theorem cast_div_bounds (n : ℕ) {d : ℕ} (hd : 0 < d) :
    ((n / d : ℕ) : ℝ) ≤ n / d ∧ (n : ℝ) / d < (n / d : ℕ) + 1 := by
  have hd' : (0 : ℝ) < d := Nat.cast_pos.2 hd
  have hlt : n < (n / d + 1) * d := Nat.lt_mul_of_div_lt (Nat.lt_succ_self _) hd
  exact ⟨Nat.cast_div_le, by rw [div_lt_iff₀ hd']; exact_mod_cast hlt⟩

theorem nearestMag_roundWord (n : ℕ) {d : ℕ} (hd : 0 < d) : NearestMag ((n : ℝ) / d) (roundWord n d) := by
  obtain ⟨hlt, hk⟩ := div_two_pow_roundShift (n / d)
  have hpos : 0 < d * 2 ^ roundShift (n / d) := by positivity
  have hscaled : (n : ℝ) / d / 2 ^ roundShift (n / d) = n / (d * 2 ^ roundShift (n / d) : ℕ) := by
    rw [div_div]; push_cast; rfl
  rw [Nat.div_div_eq_div_mul] at hlt hk
  obtain ⟨hlo, hhi⟩ := cast_div_bounds n hpos
  have hround := nearestEven_roundQuot n hpos
  rw [← hscaled] at hlo hhi hround
  exact nearestMag_of_nearestEven hlt hk hlo hhi hround

/-! ## Overflow -/

theorem odd_infMag_pred : (infMag - 1) % 2 = 1 := by decide

/-- Below the middle of two neighbouring magnitudes, the nearest one is at most the lower. -/
theorem NearestMag.le_of_lt {y : ℝ} {w m : ℕ} (h : NearestMag y w) (hy : 2 * y < magUnits m + magUnits (m + 1)) :
    w ≤ m := by
  by_contra hlt
  have hword : (magUnits (m + 1) : ℝ) ≤ magUnits w := Nat.cast_le.2 (magUnits_strictMono.monotone (by omega))
  have hgap : (magUnits m : ℝ) < magUnits (m + 1) := Nat.cast_lt.2 (magUnits_lt_succ m)
  obtain ⟨hle, -⟩ := h m
  have hnear : |(magUnits m : ℝ) - y| < magUnits (m + 1) - y := by
    rw [abs_lt]; constructor <;> linarith
  have hfar := le_abs_self ((magUnits w : ℝ) - y)
  linarith

/-- A magnitude reaches infinity from halfway between the greatest finite one and the next. -/
theorem NearestMag.lt_infMag_iff {y : ℝ} {w : ℕ} (h : NearestMag y w) :
    w < infMag ↔ 2 * y < magUnits infMag + magUnits (infMag - 1) := by
  have hgap : (magUnits (infMag - 1) : ℝ) < magUnits infMag :=
    Nat.cast_lt.2 (magUnits_strictMono (by decide))
  obtain ⟨hinf, htie⟩ := h infMag
  constructor
  · intro hw
    by_contra hge
    have hword : (magUnits w : ℝ) ≤ magUnits (infMag - 1) :=
      Nat.cast_le.2 (magUnits_strictMono.monotone (by omega))
    have hdist : |(magUnits w : ℝ) - y| = y - magUnits w := by rw [abs_sub_comm, abs_of_nonneg (by linarith)]
    have hle : |(magUnits infMag : ℝ) - y| ≤ y - magUnits (infMag - 1) := by
      rw [abs_le]; constructor <;> linarith
    have hlast : (magUnits w : ℝ) = magUnits (infMag - 1) := by linarith
    have hw' : w = infMag - 1 := magUnits_strictMono.injective (Nat.cast_injective hlast)
    have heven := htie hw.ne' (by linarith)
    rw [hw', odd_infMag_pred] at heven
    cases heven
  · intro hy
    have hsucc : infMag - 1 + 1 = infMag := by decide
    have hle := h.le_of_lt (m := infMag - 1) (by rw [hsucc]; linarith)
    omega

theorem unitScale_eq : unitScale = 2 ^ 1074 := by decide +kernel

theorem unitScale_pos : 0 < unitScale := by decide +kernel

/-- The bound of 00_scope.md R6, in units. -/
theorem overflow_bound_units :
    2 * ((2 ^ 1024 - 2 ^ 970) * (unitScale : ℝ)) = magUnits infMag + magUnits (infMag - 1) := by
  have hinf : magUnits infMag = 2 ^ 52 * 2 ^ 2046 := magUnits_normal 2046 (2 ^ 52) le_rfl (by decide)
  have hmax : magUnits (infMag - 1) = (2 ^ 53 - 1) * 2 ^ 2045 :=
    magUnits_normal 2045 (2 ^ 53 - 1) (by decide) (by decide)
  have h1024 : (2 : ℝ) ^ 1024 = 2 ^ 54 * 2 ^ 970 := by rw [← pow_add]
  have h2046 : (2 : ℝ) ^ 2046 = 2 ^ 2 * (2 ^ 970 * 2 ^ 1074) := by rw [← pow_add, ← pow_add]
  have h2045 : (2 : ℝ) ^ 2045 = 2 * (2 ^ 970 * 2 ^ 1074) := by rw [← pow_add, ← pow_succ']
  rw [hinf, hmax, unitScale_eq]
  simp only [Nat.cast_mul, Nat.cast_pow, Nat.cast_ofNat]
  rw [h1024, h2046, h2045]
  generalize (2 : ℝ) ^ 970 = a
  generalize (2 : ℝ) ^ 1074 = b
  ring

end Sys2Proof.Machine
end

section
/-! The operations on finite operands round their exact result once (00_scope.md R6, R7). -/

namespace Sys2Proof.Machine

/-! ## Values by sign and magnitude -/

/-- The number of magnitude `a` with a sign bit. -/
def signed (b : Bool) (a : ℝ) : ℝ := if b then -a else a

@[simp] theorem signed_false (a : ℝ) : signed false a = a := rfl

@[simp] theorem signed_true (a : ℝ) : signed true a = -a := rfl

@[simp] theorem abs_signed (b : Bool) (a : ℝ) : |signed b a| = |a| := by cases b <;> simp

theorem unitScale_cast_pos : (0 : ℝ) < unitScale := Nat.cast_pos.2 unitScale_pos

theorem fvalue_eq_signed (x : F64) : (fvalue x : ℝ) = signed (fsign x) (magUnits (fmag x) / unitScale) := by
  rw [fvalue, funits]
  cases fsign x <;> simp [neg_div]

theorem abs_fvalue (x : F64) : |(fvalue x : ℝ)| = magUnits (fmag x) / unitScale := by
  rw [fvalue_eq_signed, abs_signed, abs_of_nonneg (by positivity)]

theorem magUnits_zero : magUnits 0 = 0 := magUnits_sub (by decide)

theorem magUnits_eq_zero_iff {m : ℕ} : magUnits m = 0 ↔ m = 0 := by
  rw [← magUnits_strictMono.injective.eq_iff (a := m) (b := 0), magUnits_zero]

/-! ## The nearest finite word -/

theorem abs_lt_overflow_iff {a : ℝ} (ha : 0 ≤ a) {w : ℕ} (h : NearestMag (a * unitScale) w) (b : Bool) :
    |signed b a| < 2 ^ 1024 - 2 ^ 970 ↔ w < infMag := by
  rw [abs_signed, abs_of_nonneg ha, h.lt_infMag_iff, ← overflow_bound_units, mul_lt_mul_iff_right₀ two_pos,
    mul_lt_mul_iff_left₀ unitScale_cast_pos]

theorem NearestMag.eq_zero {w : ℕ} (h : NearestMag 0 w) : w = 0 := by
  obtain ⟨hle, -⟩ := h 0
  rw [magUnits_zero, Nat.cast_zero, sub_zero, sub_zero, abs_zero, Nat.abs_cast] at hle
  have hzero : magUnits w = 0 := by exact_mod_cast le_antisymm hle (Nat.cast_nonneg _)
  exact magUnits_eq_zero_iff.1 hzero

section
variable {a : ℝ} (ha : 0 ≤ a)

theorem dist_units (m : ℕ) : |(magUnits m : ℝ) / unitScale - a| = |(magUnits m : ℝ) - a * unitScale| / unitScale := by
  have hU := unitScale_cast_pos
  rw [div_sub' hU.ne', abs_div, abs_of_pos hU, mul_comm]

theorem fmag_fpack_of_lt {w : ℕ} (hw : w < infMag) (b : Bool) : fmag (fpack b w) = w := by
  rw [fmag_fpack, Nat.mod_eq_of_lt (hw.trans infMag_lt)]

/-- Words of one sign are as far apart as their magnitudes. -/
theorem dist_fpack {w : ℕ} (hw : w < infMag) (b : Bool) :
    |(fvalue (fpack b w) : ℝ) - signed b a| = |(magUnits w : ℝ) - a * unitScale| / unitScale := by
  rw [fvalue_eq_signed, fsign_fpack, fmag_fpack_of_lt hw, ← dist_units]
  cases b
  · simp
  · rw [signed_true, signed_true, ← neg_sub', abs_neg]

include ha

/-- Words of any sign are at least as far apart. -/
theorem dist_units_le (z : F64) (b : Bool) :
    |(magUnits (fmag z) : ℝ) - a * unitScale| / unitScale ≤ |(fvalue z : ℝ) - signed b a| := by
  have hle := abs_abs_sub_abs_le (fvalue z : ℝ) (signed b a)
  rwa [abs_fvalue, abs_signed, abs_of_nonneg ha, dist_units] at hle

/-- A magnitude and its opposite are not equally near to a number that is not zero. -/
theorem fvalue_eq_of_fmag_eq {w : ℕ} (hw : w < infMag) (h : NearestMag (a * unitScale) w) {b : Bool} {z : F64}
    (hz : fmag z = w) (heq : |(fvalue z : ℝ) - signed b a| = |(fvalue (fpack b w) : ℝ) - signed b a|) :
    fvalue z = fvalue (fpack b w) := by
  have hmag : |(fvalue z : ℝ)| = |(fvalue (fpack b w) : ℝ)| := by
    rw [abs_fvalue, abs_fvalue, hz, fmag_fpack_of_lt hw]
  rcases abs_eq_abs.1 hmag with hsame | hopposite
  · exact_mod_cast hsame
  rcases abs_eq_abs.1 heq with hsame | hsum
  · exact_mod_cast sub_left_injective hsame
  have hzero : signed b a = 0 := by linarith
  have ha0 : a = 0 := by rw [← abs_of_nonneg ha, ← abs_signed b a, hzero, abs_zero]
  rw [ha0, zero_mul] at h
  obtain rfl := h.eq_zero
  rw [abs_fvalue, hz, magUnits_zero, Nat.cast_zero, zero_div] at hmag
  have hr : (fvalue (fpack b 0) : ℝ) = 0 := abs_eq_zero.1 hmag.symm
  rw [hr, neg_zero] at hopposite
  exact_mod_cast hopposite.trans hr.symm

end

theorem roundsTo_of_nearestMag {a : ℝ} (ha : 0 ≤ a) {w : ℕ} (h : NearestMag (a * unitScale) w) (b : Bool) :
    RoundsTo (signed b a) (fpack b (min infMag w)) := by
  have hU := unitScale_cast_pos
  have hbound := abs_lt_overflow_iff ha h b
  rw [RoundsTo]
  split_ifs with hlt
  · have hw := hbound.1 hlt
    rw [Nat.min_eq_right hw.le]
    refine ⟨by simpa [isFinite, fmag_fpack_of_lt hw] using hw, fun z hz => ?nearest, fun z hz hne heq => ?tie⟩
    case nearest =>
      obtain ⟨hle, -⟩ := h (fmag z)
      rw [dist_fpack hw]
      exact (div_le_div_of_nonneg_right hle hU.le).trans (dist_units_le ha z b)
    case tie =>
      rw [fmag_fpack_of_lt hw]
      obtain ⟨hle, htie⟩ := h (fmag z)
      refine htie (fun hmag => hne (fvalue_eq_of_fmag_eq ha hw h hmag heq)) (le_antisymm ?_ hle)
      have hge := (dist_units_le ha z b).trans_eq (heq.trans (dist_fpack hw b))
      exact (div_le_div_iff_of_pos_right hU).1 hge
  · have hw : infMag ≤ w := Nat.not_lt.1 (mt hbound.2 hlt)
    have hpos : 0 < a := by
      refine ha.lt_of_ne fun hzero => ?_
      rw [← hzero, zero_mul] at h
      rw [h.eq_zero] at hw
      exact absurd hw (by decide)
    rw [Nat.min_eq_left hw]
    refine ⟨by cases b <;> decide, ?_⟩
    rw [fsign_fpack]
    cases b <;> simp [ha, hpos]

/-- `fround` rounds the number it is given, whatever its sign. -/
theorem roundsTo_fround (b : Bool) (n : ℕ) {d : ℕ} (hd : 0 < d) {v : ℝ} (hv : v = signed b (n / d / unitScale)) :
    RoundsTo v (fround b n d) := by
  have hU := unitScale_cast_pos
  have hround := nearestMag_roundWord n hd
  rw [← div_mul_cancel₀ ((n : ℝ) / d) hU.ne'] at hround
  rw [hv, fround, roundMag_eq]
  exact roundsTo_of_nearestMag (by positivity) hround b

/-! ## The four operations -/

section
variable {x y : F64} (hx : isFinite x = true) (hy : isFinite y = true)
include hx hy

theorem fadd_of_isFinite (q : Site) :
    fadd q x y =
      if funits x + funits y = 0 then fround (fsign x && fsign y) 0 1
      else fround (decide (funits x + funits y < 0)) (funits x + funits y).natAbs 1 := by
  obtain ⟨hxn, hxi⟩ := not_nan_and_not_inf_of_isFinite hx
  obtain ⟨hyn, hyi⟩ := not_nan_and_not_inf_of_isFinite hy
  rw [fround_zero]
  simp [fadd, hxn, hxi, hyn, hyi]

theorem fmul_of_isFinite (q : Site) :
    fmul q x y = fround (fsign x != fsign y) (magUnits (fmag x) * magUnits (fmag y)) unitScale := by
  obtain ⟨hxn, hxi⟩ := not_nan_and_not_inf_of_isFinite hx
  obtain ⟨hyn, hyi⟩ := not_nan_and_not_inf_of_isFinite hy
  simp [fmul, hxn, hxi, hyn, hyi]

theorem fdiv_of_isFinite (hy0 : isZero y = false) (q : Site) :
    fdiv q x y = fround (fsign x != fsign y) (magUnits (fmag x) * unitScale) (magUnits (fmag y)) := by
  obtain ⟨hxn, hxi⟩ := not_nan_and_not_inf_of_isFinite hx
  obtain ⟨hyn, hyi⟩ := not_nan_and_not_inf_of_isFinite hy
  simp [fdiv, hxn, hxi, hyn, hyi, hy0]

end

theorem cast_eq_signed (n : ℤ) : (n : ℝ) = signed (decide (n < 0)) (n.natAbs : ℕ) := by
  rcases lt_or_ge n 0 with h | h
  · rw [decide_eq_true h, signed_true, Nat.cast_natAbs, abs_of_neg h]; simp
  · rw [decide_eq_false h.not_gt, signed_false, Nat.cast_natAbs, abs_of_nonneg h]

theorem signed_div (b : Bool) (a c : ℝ) : signed b a / c = signed b (a / c) := by cases b <;> simp [neg_div]

theorem signed_mul_signed (b c : Bool) (u v : ℝ) : signed b u * signed c v = signed (b != c) (u * v) := by
  cases b <;> cases c <;> simp

theorem signed_div_signed (b c : Bool) (u v : ℝ) : signed b u / signed c v = signed (b != c) (u / v) := by
  cases b <;> cases c <;> simp [neg_div, div_neg]

theorem signed_zero (b : Bool) : signed b 0 = 0 := by cases b <;> simp

@[simp] theorem fvalue_fneg (x : F64) : fvalue (fneg x) = -fvalue x := by
  rw [fvalue, fvalue, funits, funits, fsign_fneg, fmag_fneg]
  cases fsign x <;> simp [neg_div]

theorem fvalue_eq_zero_iff {x : F64} : fvalue x = 0 ↔ isZero x = true := by
  have hU := unitScale_cast_pos
  rw [← Rat.cast_eq_zero (α := ℝ), ← abs_eq_zero, abs_fvalue, div_eq_zero_iff, or_iff_left hU.ne', Nat.cast_eq_zero,
    magUnits_eq_zero_iff, isZero, decide_eq_true_eq]

section
variable {x y : F64} (hx : isFinite x = true) (hy : isFinite y = true) (q : Site)
include hx hy

theorem roundsTo_fadd : RoundsTo ((fvalue x + fvalue y : ℚ) : ℝ) (fadd q x y) := by
  have hsum : ((fvalue x + fvalue y : ℚ) : ℝ) = (funits x + funits y : ℤ) / unitScale := by
    rw [fvalue, fvalue, ← add_div]; push_cast; rfl
  rw [fadd_of_isFinite hx hy, hsum]
  split_ifs with hzero
  · exact roundsTo_fround _ 0 one_pos (by rw [hzero]; simp [signed_zero])
  · exact roundsTo_fround _ _ one_pos (by rw [cast_eq_signed, signed_div, Nat.cast_one, div_one])

theorem roundsTo_fsub : RoundsTo ((fvalue x - fvalue y : ℚ) : ℝ) (fsub q x y) := by
  have hround := roundsTo_fadd hx (y := fneg y) (by simpa using hy) q
  rwa [fvalue_fneg, ← sub_eq_add_neg, ← show fsub q x y = fadd q x (fneg y) by rw [fsub]] at hround

theorem roundsTo_fmul : RoundsTo ((fvalue x * fvalue y : ℚ) : ℝ) (fmul q x y) := by
  have hU := unitScale_cast_pos
  rw [fmul_of_isFinite hx hy]
  refine roundsTo_fround _ _ unitScale_pos ?_
  rw [Rat.cast_mul, fvalue_eq_signed, fvalue_eq_signed, signed_mul_signed, div_mul_div_comm, div_div]
  push_cast
  rfl

theorem roundsTo_fdiv (hy0 : isZero y = false) : RoundsTo ((fvalue x / fvalue y : ℚ) : ℝ) (fdiv q x y) := by
  have hU := unitScale_cast_pos
  rw [fdiv_of_isFinite hx hy hy0]
  refine roundsTo_fround _ _ (magUnits_pos (fmag_pos hy0)) ?_
  rw [Rat.cast_div, fvalue_eq_signed, fvalue_eq_signed, signed_div_signed, div_div_div_cancel_right₀ hU.ne',
    Nat.cast_mul, mul_div_right_comm, mul_div_cancel_right₀ _ hU.ne']

end

/-- Settles O33: the exact result is a fraction of units, and each operation rounds that fraction once. -/
theorem arithmeticRoundsToNearestEven : Obligations.ArithmeticRoundsToNearestEven := by
  unfold Obligations.ArithmeticRoundsToNearestEven
  intro q x y hx hy
  refine ⟨roundsTo_fadd hx hy q, roundsTo_fsub hx hy q, roundsTo_fmul hx hy q, fun hne => roundsTo_fdiv hx hy q ?_⟩
  rwa [Ne, fvalue_eq_zero_iff, Bool.not_eq_true] at hne

/-! ## Conversion of natural numbers -/

theorem roundsTo_fofNat (n : ℕ) : RoundsTo (n : ℝ) (fofNat n) := by
  rw [fofNat]
  refine roundsTo_fround false _ one_pos ?_
  rw [signed_false, Nat.cast_one, div_one, Nat.cast_mul, mul_div_cancel_right₀ _ unitScale_cast_pos.ne']

/-- A whole number below 2^53 is a magnitude, which rounding keeps. -/
theorem fround_whole {n : ℕ} (hn : n < 2 ^ 53) (b : Bool) :
    isFinite (fround b (n * unitScale) 1) = true ∧ magUnits (fmag (fround b (n * unitScale) 1)) = n * unitScale := by
  rw [unitScale_eq]
  refine fround_of_mem_range (m := 1074 * 2 ^ 52 + 2 ^ 53) (mul_two_pow_mem_range_magUnits hn 1074) (by decide) ?_ b
  rw [magUnits_scaled le_rfl (.inr (by decide))]
  exact Nat.mul_le_mul_right _ hn.le

theorem fvalue_fofNat {n : ℕ} (hn : n < 2 ^ 53) : fvalue (fofNat n) = n := by
  obtain ⟨-, hmag⟩ := fround_whole hn false
  have hU : (unitScale : ℚ) ≠ 0 := Nat.cast_ne_zero.2 unitScale_pos.ne'
  rw [fofNat, fvalue, funits, fsign_fround, hmag, if_neg Bool.false_ne_true]
  push_cast
  exact mul_div_cancel_right₀ _ hU

/-- Settles O37: a natural number is a whole number of units, rounded once; below 2^53 it is a magnitude. -/
theorem naturalsConvertRounded : Obligations.NaturalsConvertRounded := by
  unfold Obligations.NaturalsConvertRounded
  exact ⟨roundsTo_fofNat, fun n => fvalue_fofNat⟩

/-! ## The square root -/

/-- A tie of a scaled quotient lies at a whole number, so it does not matter where between two whole numbers `y` is. -/
theorem nearestEven_of_between {y : ℝ} {r c j : ℕ} (hlo : (r : ℝ) < y) (hhi : y < r + 1)
    (h : NearestEven ((2 * r + 1 : ℕ) / (2 * 2 ^ (j + 1) : ℕ)) c) : NearestEven (y / 2 ^ (j + 1)) c := by
  have hscale : ((2 * 2 ^ (j + 1) : ℕ) : ℝ) = 4 * (2 ^ j : ℕ) := by push_cast; ring
  have hscale' : (2 : ℝ) ^ (j + 1) = 2 * (2 ^ j : ℕ) := by push_cast; ring
  have hpos : (0 : ℝ) < (2 ^ j : ℕ) := Nat.cast_pos.2 (Nat.two_pow_pos j)
  obtain ⟨hhalf, -⟩ := h
  rw [hscale, abs_sub_quot (by linarith), div_le_iff₀ (by linarith), abs_le] at hhalf
  obtain ⟨hlow, hhigh⟩ := hhalf
  have hlow' : 2 * r + 1 ≤ 4 * (c * 2 ^ j) + 2 * 2 ^ j := by
    have hcast : ((2 * r + 1 : ℕ) : ℝ) ≤ (4 * (c * 2 ^ j) + 2 * 2 ^ j : ℕ) := by push_cast at hlow ⊢; linarith
    exact_mod_cast hcast
  have hhigh' : 4 * (c * 2 ^ j) ≤ 2 * r + 1 + 2 * 2 ^ j := by
    have hcast : ((4 * (c * 2 ^ j) : ℕ) : ℝ) ≤ (2 * r + 1 + 2 * 2 ^ j : ℕ) := by push_cast at hhigh ⊢; linarith
    exact_mod_cast hcast
  have hlow'' : ((r + 1 : ℕ) : ℝ) ≤ (2 * (c * 2 ^ j) + 2 ^ j : ℕ) := Nat.cast_le.2 (by omega)
  have hhigh'' : ((2 * (c * 2 ^ j) : ℕ) : ℝ) ≤ (r + 2 ^ j : ℕ) := Nat.cast_le.2 (by omega)
  have hlt : |(c : ℝ) - y / 2 ^ (j + 1)| < 1 / 2 := by
    rw [hscale', abs_sub_quot (by linarith), div_lt_iff₀ (by linarith), abs_lt]
    push_cast at hlow'' hhigh'' ⊢
    constructor <;> linarith
  exact ⟨hlt.le, fun heq => absurd heq hlt.ne⟩

/-- The half between two whole numbers stands for every number between them, when at least one bit is dropped. -/
theorem nearestMag_of_between {y : ℝ} {r : ℕ} (hlo : (r : ℝ) < y) (hhi : y < r + 1) (hbig : 2 ^ 53 ≤ r) :
    NearestMag y (roundWord (2 * r + 1) 2) := by
  have hwhole : (2 * r + 1) / 2 = r := by omega
  obtain ⟨hlt, hk⟩ := div_two_pow_roundShift r
  have hround := nearestEven_roundQuot (2 * r + 1) (d := 2 * 2 ^ roundShift r) (by positivity)
  rw [roundWord, hwhole]
  obtain ⟨j, hj⟩ : ∃ j, roundShift r = j + 1 := by
    refine Nat.exists_eq_succ_of_ne_zero fun hzero => ?_
    rw [hzero, pow_zero, Nat.div_one] at hlt
    omega
  rw [hj] at hlt hk hround ⊢
  have hpos : (0 : ℝ) < 2 ^ (j + 1) := by positivity
  have hfloor : r / 2 ^ (j + 1) * 2 ^ (j + 1) ≤ r := Nat.div_mul_le_self _ _
  have hceil : r + 1 ≤ (r / 2 ^ (j + 1) + 1) * 2 ^ (j + 1) :=
    Nat.lt_mul_of_div_lt (Nat.lt_succ_self _) (Nat.two_pow_pos _)
  refine nearestMag_of_nearestEven hlt hk ?_ ?_ (nearestEven_of_between hlo hhi hround)
  · rw [le_div_iff₀ hpos]
    exact le_trans (by exact_mod_cast hfloor) hlo.le
  · rw [div_lt_iff₀ hpos]
    exact lt_of_lt_of_le hhi (by exact_mod_cast hceil)

theorem nearestMag_sqrt {m : ℕ} (hm : unitScale ≤ m) :
    NearestMag (√m) (roundWord (2 * natSqrt m + if natSqrt m * natSqrt m = m then 0 else 1) 2) := by
  obtain ⟨hlo, hhi⟩ := natSqrt_spec m
  have hlo' : (natSqrt m : ℝ) ≤ √m := Real.le_sqrt_of_sq_le (by rw [sq]; exact_mod_cast hlo)
  have hhi' : √m < natSqrt m + 1 := by
    rw [Real.sqrt_lt' (by positivity), sq]
    exact_mod_cast hhi
  split_ifs with hsquare
  · have hcast : (m : ℝ) = natSqrt m * natSqrt m := by exact_mod_cast hsquare.symm
    have hroot : √m = (2 * natSqrt m + 0 : ℕ) / (2 : ℕ) := by
      rw [hcast, Real.sqrt_mul_self (Nat.cast_nonneg _)]
      push_cast
      ring
    rw [hroot]
    exact nearestMag_roundWord _ two_pos
  · have hne : (natSqrt m : ℝ) ≠ √m := fun heq => hsquare (by
      have hsq : (natSqrt m : ℝ) * natSqrt m = m := by rw [heq, Real.mul_self_sqrt (Nat.cast_nonneg m)]
      exact_mod_cast hsq)
    refine nearestMag_of_between (lt_of_le_of_ne hlo' hne) hhi' ?_
    by_contra hsmall
    have hsq : (natSqrt m + 1) * (natSqrt m + 1) ≤ 2 ^ 53 * 2 ^ 53 := Nat.mul_le_mul (by omega) (by omega)
    have hscale : 2 ^ 53 * 2 ^ 53 ≤ unitScale := by decide +kernel
    omega

theorem fsqrt_of_pos {x : F64} {m : ℕ} (hm : m = magUnits (fmag x) * unitScale) (hx : isFinite x = true)
    (hx0 : isZero x = false) (hs : fsign x = false) (q : Site) :
    fsqrt q x = fround false (2 * natSqrt m + if natSqrt m * natSqrt m = m then 0 else 1) 2 := by
  obtain ⟨hxn, hxi⟩ := not_nan_and_not_inf_of_isFinite hx
  simp [fsqrt, hxn, hxi, hx0, hs, hm]

theorem roundsTo_fsqrt {x : F64} (hx : isFinite x = true) (hx0 : isZero x = false) (hs : fsign x = false) (q : Site) :
    RoundsTo (√(fvalue x : ℝ)) (fsqrt q x) := by
  have hU := unitScale_cast_pos
  have hm : unitScale ≤ magUnits (fmag x) * unitScale := Nat.le_mul_of_pos_left _ (magUnits_pos (fmag_pos hx0))
  have hroot : √(fvalue x : ℝ) * unitScale = √(magUnits (fmag x) * unitScale : ℕ) := by
    rw [fvalue_eq_signed, hs, signed_false, ← Real.sqrt_sq hU.le, ← Real.sqrt_mul (by positivity), Real.sqrt_sq hU.le]
    congr 1
    push_cast
    field_simp
  have hround := nearestMag_sqrt hm
  rw [← hroot] at hround
  rw [fsqrt_of_pos rfl hx hx0 hs, fround, roundMag_eq]
  exact roundsTo_of_nearestMag (Real.sqrt_nonneg _) hround false

/-- A zero is its own rounding. -/
theorem roundsTo_zero {x : F64} (h : isZero x = true) : RoundsTo 0 x := by
  have hmag : magUnits (fmag x) = 0 := magUnits_eq_zero_iff.2 (by simpa [isZero] using h)
  have hround := roundsTo_fround (fsign x) 0 one_pos (v := 0) (by simp [signed_zero])
  rwa [← hmag, fround_exact (isFinite_of_isZero h)] at hround

theorem fvalue_neg_iff {x : F64} : fvalue x < 0 ↔ isZero x = false ∧ fsign x = true := by
  have hU := unitScale_cast_pos
  cases hz : isZero x with
  | true => simp [fvalue_eq_zero_iff.2 hz]
  | false =>
    have hmag : (0 : ℝ) < magUnits (fmag x) := Nat.cast_pos.2 (magUnits_pos (fmag_pos hz))
    have hpos : (0 : ℝ) < magUnits (fmag x) / unitScale := by positivity
    rw [← Rat.cast_lt_zero (K := ℝ), fvalue_eq_signed]
    cases fsign x
    · simp [hpos.le]
    · simp [hpos]

theorem isNaN_fsqrt_of_neg {x : F64} (h0 : isZero x = false) (hs : fsign x = true) (q : Site) :
    isNaN (fsqrt q x) = true := by
  cases hnan : isNaN x with
  | true => exact fsqrt_nan q hnan
  | false => simp [fsqrt, hnan, h0, hs]

theorem fsqrt_of_isZero {x : F64} (h : isZero x = true) (q : Site) : fsqrt q x = x := by
  simp [fsqrt, isNaN_of_isZero h, h]

/-- Settles O34: the root of a positive number lies between two whole numbers of units, far above the last significant bit;
the root of a zero is the zero. -/
theorem squareRootIsCorrectlyRounded : Obligations.SquareRootIsCorrectlyRounded := by
  unfold Obligations.SquareRootIsCorrectlyRounded
  intro q x hx
  refine ⟨fun hnonneg => ?_, fun hneg => ?_⟩
  · cases hz : isZero x with
    | true =>
      rw [fvalue_eq_zero_iff.2 hz, Rat.cast_zero, Real.sqrt_zero, fsqrt_of_isZero hz]
      exact roundsTo_zero hz
    | false =>
      have hs : fsign x = false := by
        by_contra hs
        exact hnonneg.not_gt (fvalue_neg_iff.2 ⟨hz, by simpa using hs⟩)
      exact roundsTo_fsqrt hx hz hs q
  · obtain ⟨hz, hs⟩ := fvalue_neg_iff.1 hneg
    exact isNaN_fsqrt_of_neg hz hs q

end Sys2Proof.Machine
end

section
/-! The comparisons by value, and the exact remainder (00_scope.md R7). -/

namespace Sys2Proof.Machine

/-! ## Comparisons -/

/-- The keys are ordered as the numbers of units are. -/
theorem funits_lt_iff (x y : F64) : funits x < funits y ↔ fkey x < fkey y := by
  have hlt : magUnits (fmag x) < magUnits (fmag y) ↔ fmag x < fmag y := magUnits_strictMono.lt_iff_lt
  have hgt : magUnits (fmag y) < magUnits (fmag x) ↔ fmag y < fmag x := magUnits_strictMono.lt_iff_lt
  have hx0 : magUnits (fmag x) = 0 ↔ fmag x = 0 := magUnits_eq_zero_iff
  have hy0 : magUnits (fmag y) = 0 ↔ fmag y = 0 := magUnits_eq_zero_iff
  rw [funits, funits, fkey, fkey]
  split_ifs <;> omega

theorem fvalue_lt_iff (x y : F64) : fvalue x < fvalue y ↔ fkey x < fkey y := by
  have hU : (0 : ℚ) < unitScale := Nat.cast_pos.2 unitScale_pos
  rw [fvalue, fvalue, div_lt_div_iff_of_pos_right hU, Int.cast_lt, funits_lt_iff]

theorem fvalue_le_iff (x y : F64) : fvalue x ≤ fvalue y ↔ fkey x ≤ fkey y := by
  rw [← not_lt, fvalue_lt_iff, not_lt]

theorem fvalue_eq_iff (x y : F64) : fvalue x = fvalue y ↔ fkey x = fkey y := by
  rw [le_antisymm_iff, fvalue_le_iff, fvalue_le_iff, ← le_antisymm_iff]

theorem fkey_range {x : F64} (h : isNaN x = false) : -(infMag : ℤ) ≤ fkey x ∧ fkey x ≤ infMag := by
  have hle : fmag x ≤ infMag := by simpa [isNaN] using h
  have habs := natAbs_fkey x
  omega

theorem eq_iff_fkey_eq {x c : F64} (hc : fkey c ≠ 0) : x = c ↔ fkey x = fkey c :=
  ⟨fun h => h ▸ rfl, fun h => eq_of_fkey_eq (h ▸ hc) h⟩

/-- An infinity is the extreme of its side. -/
theorem compare_posInf {x : F64} (h : isNaN x = false) :
    (flt x 0x7FF0000000000000 = true ↔ x ≠ 0x7FF0000000000000) ∧ fle x 0x7FF0000000000000 = true ∧
    flt 0x7FF0000000000000 x = false ∧ (fle 0x7FF0000000000000 x = true ↔ x = 0x7FF0000000000000) ∧
    (feq x 0x7FF0000000000000 = true ↔ x = 0x7FF0000000000000) := by
  have hkey : fkey 0x7FF0000000000000 = infMag := by decide
  have hnan : isNaN 0x7FF0000000000000 = false := by decide
  obtain ⟨-, hle⟩ := fkey_range h
  rw [← Bool.not_eq_true, Ne, eq_iff_fkey_eq (by decide), flt_iff, fle_iff, flt_iff, fle_iff, feq_iff, hkey]
  simp only [h, hnan, true_and]
  exact ⟨by omega, hle, by omega, by omega, trivial⟩

theorem compare_negInf {x : F64} (h : isNaN x = false) :
    (flt 0xFFF0000000000000 x = true ↔ x ≠ 0xFFF0000000000000) ∧ fle 0xFFF0000000000000 x = true ∧
    flt x 0xFFF0000000000000 = false ∧ (fle x 0xFFF0000000000000 = true ↔ x = 0xFFF0000000000000) ∧
    (feq x 0xFFF0000000000000 = true ↔ x = 0xFFF0000000000000) := by
  have hkey : fkey 0xFFF0000000000000 = -infMag := by decide
  have hnan : isNaN 0xFFF0000000000000 = false := by decide
  obtain ⟨hge, -⟩ := fkey_range h
  rw [← Bool.not_eq_true, Ne, eq_iff_fkey_eq (by decide), flt_iff, fle_iff, flt_iff, fle_iff, feq_iff, hkey]
  simp only [h, hnan, true_and]
  exact ⟨by omega, hge, by omega, by omega, trivial⟩

section
variable {x y : F64}

theorem compare_finite (hx : isFinite x = true) (hy : isFinite y = true) :
    (flt x y = true ↔ fvalue x < fvalue y) ∧ (fle x y = true ↔ fvalue x ≤ fvalue y) ∧
    (feq x y = true ↔ fvalue x = fvalue y) := by
  obtain ⟨hxn, -⟩ := not_nan_and_not_inf_of_isFinite hx
  obtain ⟨hyn, -⟩ := not_nan_and_not_inf_of_isFinite hy
  simp only [flt_iff, fle_iff, feq_iff, fvalue_lt_iff, fvalue_le_iff, fvalue_eq_iff, hxn, hyn, true_and, and_self]

theorem compare_nan (h : isNaN x = true ∨ isNaN y = true) : flt x y = false ∧ fle x y = false ∧ feq x y = false := by
  simp only [← Bool.not_eq_true, flt_iff, fle_iff, feq_iff]
  rcases h with h | h <;> simp [h]

theorem feq_comm (x y : F64) : feq x y = feq y x := by
  rw [Bool.eq_iff_iff, feq_iff, feq_iff]
  tauto

end

/-- Settles O36: all five comparisons compare the keys, whose order is that of the values and ends at the infinities. -/
theorem comparisonsFollowValues : Obligations.ComparisonsFollowValues := by
  unfold Obligations.ComparisonsFollowValues
  intro x y
  refine ⟨fun hx hy => ?finite, fun h => ?infinite, ⟨rfl, rfl, feq_comm x y⟩, fun h => ?nan⟩
  case finite =>
    obtain ⟨hlt, hle, heq⟩ := compare_finite hx hy
    obtain ⟨hgt, hge, -⟩ := compare_finite hy hx
    exact ⟨hlt, hle, hgt, hge, heq⟩
  case infinite =>
    obtain ⟨h1, h2, h3, h4, h5⟩ := compare_posInf h
    exact ⟨h1, h2, h3, h4, h5, compare_negInf h⟩
  case nan =>
    obtain ⟨hlt, hle, heq⟩ := compare_nan h
    obtain ⟨hgt, hge, -⟩ := compare_nan h.symm
    exact ⟨hlt, hle, hgt, hge, heq⟩

/-! ## The remainder -/

/-- The nearest whole number among the integers. -/
theorem NearestEven.nearest_int {y : ℝ} {r : ℕ} (h : NearestEven y r) (m : ℤ) :
    |y - r| ≤ |y - m| ∧ (m ≠ r → |y - r| = |y - m| → r % 2 = 0) := by
  obtain ⟨hhalf, heven⟩ := h
  rw [abs_sub_comm] at hhalf heven
  by_cases hm : m = r
  · subst hm
    exact ⟨le_rfl, fun hne => absurd rfl hne⟩
  · have hone : (1 : ℝ) ≤ |(m : ℝ) - r| := by exact_mod_cast Int.one_le_abs (sub_ne_zero.2 hm)
    have htriangle := abs_sub_le (m : ℝ) y r
    rw [abs_sub_comm (m : ℝ) y] at htriangle
    exact ⟨by linarith, fun _ heq => heven (by linarith)⟩

/-- The rounded quotient is the whole part, or one more when the remainder is at least half the divisor. -/
theorem roundQuot_eq_or (n d : ℕ) :
    (roundQuot n d = n / d ∧ 2 * (n % d) ≤ d) ∨ (roundQuot n d = n / d + 1 ∧ d ≤ 2 * (n % d)) := by
  rcases roundQuot_cases n d with h | ⟨hne, hhalf⟩
  · exact .inl h
  · refine .inr ⟨?_, hhalf⟩
    unfold roundQuot at hne ⊢
    split_ifs at hne ⊢ <;> simp_all

section
variable {x y : F64} (hx : isFinite x = true) (hy : isFinite y = true) (hy0 : isZero y = false)
include hx hy hy0

/-- `REM` leaves the dividend less the rounded quotient's multiple of the divisor, with the dividend's sign. -/
theorem funits_frem (q : Site) :
    (funits (frem q x y) : ℝ) =
      signed (fsign x) ((magUnits (fmag x) : ℝ) -
        roundQuot (magUnits (fmag x)) (magUnits (fmag y)) * magUnits (fmag y)) := by
  have hinf : fmag y < infMag := by simpa [isFinite] using hy
  obtain ⟨hlow, hhigh⟩ := remainder_mem_range_magUnits (fmag x) (fmag_pos hy0)
  have hlt := Nat.mod_lt (magUnits (fmag x)) (magUnits_pos (fmag_pos hy0))
  have hdiv : (magUnits (fmag x) : ℝ) =
      (magUnits (fmag x) / magUnits (fmag y) : ℕ) * magUnits (fmag y) + (magUnits (fmag x) % magUnits (fmag y) : ℕ) := by
    exact_mod_cast (Nat.div_add_mod' _ _).symm
  have hunits (r : F64) : (funits r : ℝ) = signed (fsign r) (magUnits (fmag r)) := by
    rw [funits]; cases fsign r <;> simp
  rw [hunits, frem_eq hx hy hy0]
  rcases roundQuot_eq_or (magUnits (fmag x)) (magUnits (fmag y)) with ⟨hquot, hhalf⟩ | ⟨hquot, hhalf⟩
  · obtain ⟨-, hmag⟩ := fround_of_mem_range hlow hinf hlt.le (fsign x)
    rw [if_pos hquot, fsign_fround, hmag, hquot]
    congr 1
    linarith
  · obtain ⟨-, hmag⟩ := fround_of_mem_range (hhigh hhalf) hinf (Nat.sub_le _ _) (!fsign x)
    rw [if_neg (by omega), fsign_fround, hmag, hquot, Nat.cast_sub hlt.le]
    push_cast
    cases fsign x
    · simp only [Bool.not_false, signed_true, signed_false]; linarith
    · simp only [Bool.not_true, signed_true, signed_false]; linarith

end

theorem signed_sub (b : Bool) (u v : ℝ) : signed b u - signed b v = signed b (u - v) := by
  cases b
  · rfl
  · simp only [signed_true]; ring

theorem signed_signed (b : Bool) (u : ℝ) : signed b (signed b u) = u := by cases b <;> simp

/-- The whole number `r` with a sign. -/
def signedInt (b : Bool) (r : ℤ) : ℤ := if b then -r else r

theorem cast_signedInt (b : Bool) (r : ℤ) : (signedInt b r : ℝ) = signed b r := by
  cases b <;> simp [signedInt]

theorem even_signedInt {b : Bool} {r : ℤ} (h : Even r) : Even (signedInt b r) := by
  cases b
  · exact h
  · exact h.neg

theorem signedInt_signedInt (b : Bool) (r : ℤ) : signedInt b (signedInt b r) = r := by
  cases b
  · rfl
  · exact neg_neg r

/-- The quotient of two values lies from an integer as far as the magnitudes' quotient from that integer, signed. -/
theorem abs_quot_sub (x y : F64) (m : ℤ) :
    |(fvalue x / fvalue y : ℝ) - m| =
      |(magUnits (fmag x) : ℝ) / magUnits (fmag y) - signedInt (fsign x != fsign y) m| := by
  have hsigned (b : Bool) (u v : ℝ) : |signed b u - v| = |u - signed b v| := by
    rw [← abs_signed b (u - _), ← signed_sub, signed_signed]
  rw [cast_signedInt, ← hsigned, fvalue_eq_signed, fvalue_eq_signed, signed_div_signed,
    div_div_div_cancel_right₀ unitScale_cast_pos.ne']

/-- The whole number `n` of `REM`'s rule: the rounded quotient of the magnitudes, with the sign of the quotient. -/
def remQuot (x y : F64) : ℤ :=
  signedInt (fsign x != fsign y) (roundQuot (magUnits (fmag x)) (magUnits (fmag y)))

section
variable {x y : F64} (hx : isFinite x = true) (hy : isFinite y = true) (hy0 : isZero y = false)
include hy0

theorem remQuot_nearest (m : ℤ) :
    |(fvalue x / fvalue y : ℝ) - remQuot x y| ≤ |(fvalue x / fvalue y : ℝ) - m| ∧
      (m ≠ remQuot x y → |(fvalue x / fvalue y : ℝ) - remQuot x y| = |(fvalue x / fvalue y : ℝ) - m| →
        Even (remQuot x y)) := by
  have hround := nearestEven_roundQuot (magUnits (fmag x)) (magUnits_pos (fmag_pos hy0))
  obtain ⟨hle, htie⟩ := hround.nearest_int (signedInt (fsign x != fsign y) m)
  rw [abs_quot_sub, abs_quot_sub, remQuot, signedInt_signedInt]
  refine ⟨hle, fun hne heq => even_signedInt ?_⟩
  have heven := htie (fun hsame => hne (by rw [← hsame, signedInt_signedInt])) heq
  exact_mod_cast Nat.even_iff.2 heven

include hx hy

theorem fvalue_frem (q : Site) : (fvalue (frem q x y) : ℝ) = fvalue x - remQuot x y * fvalue y := by
  have hsign : ((fsign x != fsign y) != fsign y) = fsign x := by cases fsign x <;> cases fsign y <;> rfl
  rw [fvalue, Rat.cast_div, Rat.cast_intCast, Rat.cast_natCast, funits_frem hx hy hy0, fvalue_eq_signed x,
    fvalue_eq_signed y, remQuot, cast_signedInt, signed_mul_signed, hsign, signed_div, signed_sub]
  congr 1
  push_cast
  ring

end

/-- Settles O35: the remainder leaves a whole multiple of the divisor, and the whole number is the nearest. -/
theorem remainderIsExact : Obligations.RemainderIsExact := by
  unfold Obligations.RemainderIsExact
  intro q x y
  refine ⟨fun hx hy hne => ?exact, fun hx => isNaN_frem_of_not_finite hx q y, fun h => ?nan⟩
  case exact =>
    have hy0 : isZero y = false := by rwa [Ne, fvalue_eq_zero_iff, Bool.not_eq_true] at hne
    obtain ⟨hfin, -⟩ := frem_spec hx hy hy0 q
    refine ⟨hfin, _, by exact_mod_cast fvalue_frem hx hy hy0 q, fun m => ?_, fun m hm htie => ?_⟩
    · obtain ⟨hle, -⟩ := remQuot_nearest (x := x) hy0 m
      exact_mod_cast hle
    · obtain ⟨-, heven⟩ := remQuot_nearest (x := x) hy0 m
      exact heven hm (by exact_mod_cast htie)
  case nan =>
    rcases h with h | h <;> simp [frem, h]

end Sys2Proof.Machine
end

section
/-! The operands and results that rounding a finite value does not settle: zeros, infinities and NaN (00_scope.md R6, R7;
41_nco.md R124). -/

namespace Sys2Proof.Machine

/-! ## Sums with a zero -/

theorem funits_eq_zero_iff {x : F64} : funits x = 0 ↔ isZero x = true := by
  rw [← Int.natAbs_eq_zero, natAbs_funits, magUnits_eq_zero_iff, isZero, decide_eq_true_eq]

theorem fsign_eq_of_funits_ne_zero {x : F64} (h : funits x ≠ 0) : fsign x = decide (funits x < 0) := by
  rw [funits] at h ⊢
  cases hs : fsign x
  · simp
  · simpa [hs, Nat.pos_iff_ne_zero] using h

/-- Rounding the number of units of a finite word gives the word back, but for the sign of a zero. -/
theorem fround_funits {x : F64} (hx : isFinite x = true) (h : funits x ≠ 0) :
    fround (decide (funits x < 0)) (funits x).natAbs 1 = x := by
  rw [← fsign_eq_of_funits_ne_zero h, natAbs_funits, fround_exact hx]

section
variable {x y : F64} (q : Site)

theorem fadd_of_isInf_left (hx : isInf x = true) (hy : isFinite y = true) : fadd q x y = x := by
  have hxc := class_cases x
  have hyc := class_cases y
  simp_all [fadd]

theorem fadd_of_isInf_right (hx : isInf x = true) (hy : isFinite y = true) : fadd q y x = x := by
  have hxc := class_cases x
  have hyc := class_cases y
  simp_all [fadd]

theorem fadd_of_isZero_right (hx : isNaN x = false) (hx0 : isZero x = false) (hy : isZero y = true) :
    fadd q x y = x := by
  have hyf := isFinite_of_isZero hy
  rcases class_cases x with ⟨hnan, -⟩ | ⟨-, hinf, -⟩ | ⟨-, -, hfin⟩
  · cases hnan.symm.trans hx
  · exact fadd_of_isInf_left q hinf hyf
  · have hne : funits x ≠ 0 := by rw [Ne, funits_eq_zero_iff, hx0]; exact Bool.false_ne_true
    rw [fadd_of_isFinite hfin hyf, funits_eq_zero_iff.2 hy, add_zero, if_neg hne, fround_funits hfin hne]

theorem fadd_of_isZero_left (hx : isNaN x = false) (hx0 : isZero x = false) (hy : isZero y = true) :
    fadd q y x = x := by
  have hyf := isFinite_of_isZero hy
  rcases class_cases x with ⟨hnan, -⟩ | ⟨-, hinf, -⟩ | ⟨-, -, hfin⟩
  · cases hnan.symm.trans hx
  · exact fadd_of_isInf_right q hinf hyf
  · have hne : funits x ≠ 0 := by rw [Ne, funits_eq_zero_iff, hx0]; exact Bool.false_ne_true
    rw [fadd_of_isFinite hyf hfin, funits_eq_zero_iff.2 hy, zero_add, if_neg hne, fround_funits hfin hne]

theorem fadd_of_sum_zero (hx : isFinite x = true) (hy : isFinite y = true) (h : funits x + funits y = 0) :
    fadd q x y = fpack (fsign x && fsign y) 0 := by
  rw [fadd_of_isFinite hx hy, if_pos h, fround_zero]

theorem fadd_of_isZero (hx : isZero x = true) (hy : isZero y = true) :
    fadd q x y = fpack (fsign x && fsign y) 0 :=
  fadd_of_sum_zero q (isFinite_of_isZero hx) (isFinite_of_isZero hy)
    (by rw [funits_eq_zero_iff.2 hx, funits_eq_zero_iff.2 hy]; rfl)

end

theorem fpack_zero_eq (b : Bool) : fpack b 0 = if b = true then 0x8000000000000000 else 0x0000000000000000 := by
  cases b <;> decide

theorem eq_of_isZero {x : F64} (h : isZero x = true) : x = fpack (fsign x) 0 := by
  have hmag : fmag x = 0 := by simpa [isZero] using h
  rw [← hmag, fpack_eta]

/-- Settles O42: a number that is not zero is kept by the addition of a zero, and either zero gives `+0.0` with `+0.0`. -/
theorem addingZeroKeepsRate : Obligations.AddingZeroKeepsRate := by
  unfold Obligations.AddingZeroKeepsRate
  intro q r hnan
  have hzero : isZero 0 = true := by decide
  cases hr : isZero r with
  | false =>
    have hne : r ≠ 0x8000000000000000 := by rintro rfl; revert hr; decide
    rw [if_neg hne, fadd_of_isZero_right q hnan hr hzero]
  | true =>
    rw [fadd_of_isZero q hr hzero, eq_of_isZero hr, fsign_fpack]
    cases fsign r <;> decide

/-! ## Infinities, zero divisors and signs -/

section
variable {x y : F64} (q : Site)

theorem fadd_inf_inf_of_ne (hx : isInf x = true) (hy : isInf y = true) (hs : fsign x ≠ fsign y) :
    isNaN (fadd q x y) = true := by
  have hxc := class_cases x
  have hyc := class_cases y
  simp_all [fadd]

theorem fadd_inf_inf_of_eq (hx : isInf x = true) (hy : isInf y = true) (hs : fsign x = fsign y) : fadd q x y = x := by
  have hxc := class_cases x
  have hyc := class_cases y
  simp_all [fadd]

theorem isNaN_fmul_inf_zero (hx : isInf x = true) (hy : isZero y = true) :
    isNaN (fmul q x y) = true ∧ isNaN (fmul q y x) = true := by
  simp [fmul, hx, hy]

theorem isInf_fpack_infMag (b : Bool) : isInf (fpack b infMag) = true := by cases b <;> decide

theorem isZero_fpack_zero (b : Bool) : isZero (fpack b 0) = true := by cases b <;> decide

theorem isZero_of_isInf (hx : isInf x = true) : isZero x = false := by
  have hmag : fmag x = infMag := by simpa [isInf] using hx
  simp [isZero, hmag, infMag]

theorem isNaN_of_isInf (hx : isInf x = true) : isNaN x = false := by
  have hmag : fmag x = infMag := by simpa [isInf] using hx
  simp [isNaN, hmag]

theorem isInf_fmul_inf (hx : isInf x = true) (hy : isNaN y = false) (hy0 : isZero y = false) :
    isInf (fmul q x y) = true ∧ isInf (fmul q y x) = true := by
  simp [fmul, hx, hy, hy0, isNaN_of_isInf hx, isZero_of_isInf hx, isInf_fpack_infMag]

theorem fsign_fmul (h : isNaN (fmul q x y) = false) : fsign (fmul q x y) = (fsign x != fsign y) := by
  unfold fmul at h ⊢
  split_ifs at h ⊢ <;> simp_all

theorem fsign_fdiv (h : isNaN (fdiv q x y) = false) : fsign (fdiv q x y) = (fsign x != fsign y) := by
  unfold fdiv at h ⊢
  split_ifs at h ⊢ <;> simp_all

theorem isNaN_fdiv_inf_inf (hx : isInf x = true) (hy : isInf y = true) : isNaN (fdiv q x y) = true := by
  simp [fdiv, hx, hy]

theorem isNaN_fdiv_zero_zero (hx : isZero x = true) (hy : isZero y = true) : isNaN (fdiv q x y) = true := by
  obtain ⟨-, hxi⟩ := not_nan_and_not_inf_of_isFinite (isFinite_of_isZero hx)
  obtain ⟨-, hyi⟩ := not_nan_and_not_inf_of_isFinite (isFinite_of_isZero hy)
  simp [fdiv, hx, hy, hxi, hyi]

theorem isInf_fdiv_inf (hx : isInf x = true) (hy : isFinite y = true) : isInf (fdiv q x y) = true := by
  obtain ⟨hyn, hyi⟩ := not_nan_and_not_inf_of_isFinite hy
  simp [fdiv, hx, isNaN_of_isInf hx, hyn, hyi, isInf_fpack_infMag]

theorem isZero_fdiv_by_inf (hx : isFinite x = true) (hy : isInf y = true) : isZero (fdiv q x y) = true := by
  obtain ⟨hxn, hxi⟩ := not_nan_and_not_inf_of_isFinite hx
  simp [fdiv, hy, isNaN_of_isInf hy, hxn, hxi, isZero_fpack_zero]

theorem isInf_fdiv_by_zero (hx : isFinite x = true) (hx0 : isZero x = false) (hy : isZero y = true) :
    isInf (fdiv q x y) = true := by
  obtain ⟨hxn, hxi⟩ := not_nan_and_not_inf_of_isFinite hx
  obtain ⟨hyn, hyi⟩ := not_nan_and_not_inf_of_isFinite (isFinite_of_isZero hy)
  simp [fdiv, hxn, hxi, hyn, hyi, hx0, hy, isInf_fpack_infMag]

theorem fsqrt_posInf (hx : isInf x = true) (hs : fsign x = false) : fsqrt q x = x := by
  simp [fsqrt, hx, hs, isNaN_of_isInf hx]

theorem frem_by_inf (hx : isFinite x = true) (hy : isInf y = true) : frem q x y = x := by
  obtain ⟨hxn, hxi⟩ := not_nan_and_not_inf_of_isFinite hx
  simp [frem, hxn, hxi, hy, isNaN_of_isInf hy, isZero_of_isInf hy]

/-- A remainder below the next multiple is not zero, so a zero remainder is the one with the dividend's sign. -/
theorem fsign_frem_of_isZero (h : isZero (frem q x y) = true) : fsign (frem q x y) = fsign x := by
  have hnan := isNaN_of_isZero h
  have hx : isFinite x = true := by
    rw [← Bool.not_eq_false]
    intro hx
    cases hnan.symm.trans (isNaN_frem_of_not_finite hx q y)
  have hy0 : isZero y = false := by
    rw [← Bool.not_eq_true]
    intro hy0
    simp [frem, hy0] at hnan
  rcases class_cases y with ⟨hy, -⟩ | ⟨-, hy, -⟩ | ⟨-, -, hy⟩
  · simp [frem, hy] at hnan
  · rw [frem_by_inf q hx hy]
  · have hmag : fmag (frem q x y) = 0 := by simpa [isZero] using h
    have hinf : fmag y < infMag := by simpa [isFinite] using hy
    have hlt := Nat.mod_lt (magUnits (fmag x)) (magUnits_pos (fmag_pos hy0))
    obtain ⟨-, hhigh⟩ := remainder_mem_range_magUnits (fmag x) (fmag_pos hy0)
    rw [frem_eq hx hy hy0] at hmag ⊢
    rcases roundQuot_cases (magUnits (fmag x)) (magUnits (fmag y)) with ⟨hquot, -⟩ | ⟨hquot, hhalf⟩
    · rw [if_pos hquot, fsign_fround]
    · obtain ⟨-, hunits⟩ := fround_of_mem_range (hhigh hhalf) hinf (Nat.sub_le _ _) (!fsign x)
      rw [if_neg hquot] at hmag
      rw [hmag, magUnits_zero] at hunits
      omega

end

/-- Settles O60: each clause is the branch of its operation for that class of operands. -/
theorem arithmeticSpecialCases : Obligations.ArithmeticSpecialCases := by
  unfold Obligations.ArithmeticSpecialCases
  intro q x y
  refine ⟨fun h => ?nan, by rw [fsub], fadd_inf_inf_of_ne q, fadd_inf_inf_of_eq q,
    fun hx hy => ⟨fadd_of_isInf_left q hx hy, fadd_of_isInf_right q hx hy⟩, fun hx hy hsum => ?zeroSum,
    isNaN_fmul_inf_zero q, isInf_fmul_inf q, fsign_fmul q, isNaN_fdiv_inf_inf q, isNaN_fdiv_zero_zero q,
    isInf_fdiv_inf q, isZero_fdiv_by_inf q, isInf_fdiv_by_zero q, fsign_fdiv q, fsqrt_nan q,
    fun hx => fsqrt_of_isZero hx q, fsqrt_posInf q, fun hx hs => isNaN_fsqrt_of_neg (isZero_of_isInf hx) hs q,
    frem_by_inf q, fsign_frem_of_isZero q, fun n => ?sign⟩
  case nan =>
    rcases h with h | h
    · exact ⟨fadd_nan_left q y h, fsub_nan_left q y h, fmul_nan_left q y h, fdiv_nan_left q y h⟩
    · exact ⟨fadd_nan_right q x h, fsub_nan_right q x h, fmul_nan_right q x h, fdiv_nan_right q x h⟩
  case zeroSum =>
    have hU : (unitScale : ℚ) ≠ 0 := Nat.cast_ne_zero.2 unitScale_pos.ne'
    have hunits : funits x + funits y = 0 := by
      rw [fvalue, fvalue, ← add_div, div_eq_zero_iff, or_iff_left hU] at hsum
      exact_mod_cast hsum
    simp only [fadd_of_sum_zero q hx hy hunits, fpack_zero_eq, Bool.and_eq_true]
  case sign => rw [fofNat, fsign_fround]

end Sys2Proof.Machine
end

section
/-! The root of a rounded square (42_rrc_synth.md R136): the square's error is small beside the spacing of the roots. -/

namespace Sys2Proof.Machine

/-! ## The error of a square -/

/-- A number that is less than half as far from one magnitude as the others are is rounded to that one. -/
theorem NearestMag.eq_of_near {y : ℝ} {w m : ℕ} (h : NearestMag y w)
    (hnear : ∀ n ≠ m, 2 * |(magUnits m : ℝ) - y| < |(magUnits n : ℝ) - magUnits m|) : w = m := by
  by_contra hne
  obtain ⟨hle, -⟩ := h m
  have htriangle := abs_sub_le (magUnits w : ℝ) y (magUnits m)
  rw [abs_sub_comm y] at htriangle
  have hfar := hnear w hne
  linarith

/-- A magnitude is at most the last one of a binade, or belongs to a later binade. -/
theorem magUnits_le_or (m j : ℕ) :
    magUnits m ≤ (2 ^ 53 - 1) * 2 ^ j ∨ ∃ e s, m = (e + (j + 1)) * 2 ^ 52 + s ∧ 2 ^ 52 ≤ s ∧ s < 2 ^ 53 := by
  rcases mag_cases m with h | ⟨k, s, rfl, h1, h2⟩
  · rw [magUnits_sub (by omega), ← mul_one m]
    exact .inl (Nat.mul_le_mul (by omega) Nat.one_le_two_pow)
  · rcases Nat.lt_or_ge j k with hk | hk
    · obtain ⟨e, rfl⟩ := Nat.exists_eq_add_of_le' hk
      exact .inr ⟨e, s, rfl, h1, h2⟩
    · rw [magUnits_normal k s h1 h2]
      exact .inl (Nat.mul_le_mul (by omega) (Nat.pow_le_pow_right two_pos hk))

/-- A square that rounds to a normal number is that of a number from the binade of 2^511 units on. -/
theorem exists_normal_of_square {m w : ℕ} (hw : NearestMag ((magUnits m * magUnits m : ℕ) / unitScale) w)
    (hnormal : 2 ^ 52 ≤ w) :
    ∃ e s, m = (e + 511) * 2 ^ 52 + s ∧ 2 ^ 52 ≤ s ∧ s < 2 ^ 53 := by
  refine (magUnits_le_or m 510).resolve_left fun hle => ?_
  have hsq : 2 * (magUnits m * magUnits m) < (2 ^ 52 - 1 + 2 ^ 52) * unitScale := by
    calc 2 * (magUnits m * magUnits m) ≤ 2 * ((2 ^ 53 - 1) * 2 ^ 510 * ((2 ^ 53 - 1) * 2 ^ 510)) :=
          Nat.mul_le_mul_left 2 (Nat.mul_le_mul hle hle)
      _ < (2 ^ 52 - 1 + 2 ^ 52) * unitScale := by decide +kernel
  have hlow : w ≤ 2 ^ 52 - 1 := by
    refine hw.le_of_lt ?_
    rw [magUnits_sub (m := 2 ^ 52 - 1) (by decide), magUnits_sub (m := 2 ^ 52 - 1 + 1) (by decide), ← mul_div_assoc,
      div_lt_iff₀ unitScale_cast_pos]
    exact_mod_cast hsq
  omega

/-- The square of a significand at scale `e + 511`, in units. -/
theorem square_units (e s : ℕ) :
    ((s * 2 ^ (e + 511) * (s * 2 ^ (e + 511)) : ℕ) : ℝ) / unitScale =
      (s * s : ℕ) / (2 ^ 53 : ℕ) * 2 ^ (2 * e + 1) := by
  have hscale : (2 : ℝ) ^ 1074 = 2 ^ 53 * 2 ^ 1021 := by rw [← pow_add]
  have hsquare : (2 : ℝ) ^ (e + 511) * 2 ^ (e + 511) = 2 ^ (2 * e + 1) * 2 ^ 1021 := by
    rw [← pow_add, ← pow_add, show e + 511 + (e + 511) = 2 * e + 1 + 1021 by omega]
  have hpos : (0 : ℝ) < 2 ^ 1021 := by positivity
  rw [unitScale_eq]
  simp only [Nat.cast_mul, Nat.cast_pow, Nat.cast_ofNat]
  rw [mul_mul_mul_comm, hsquare, hscale, ← mul_assoc, mul_div_mul_right _ _ hpos.ne', mul_div_right_comm]

section
variable {e s w : ℕ} (hw : NearestMag ((s * 2 ^ (e + 511) * (s * 2 ^ (e + 511)) : ℕ) / unitScale) w)
include hw

/-- A multiple of 2^53 with 53 bits lies near the square. -/
theorem square_error (h : s < 2 ^ 53) :
    |(magUnits w : ℝ) - (s * 2 ^ (e + 511) * (s * 2 ^ (e + 511)) : ℕ) / unitScale| ≤ 2 ^ (2 * e) := by
  have hround := nearestEven_roundQuot (s * s) (d := 2 ^ 53) (Nat.two_pow_pos 53)
  have hpow : (0 : ℝ) < 2 ^ (2 * e + 1) := by positivity
  obtain ⟨hhalf, -⟩ := hround
  have hlt : roundQuot (s * s) (2 ^ 53) < 2 ^ 53 := by
    have hsq : s * s ≤ (2 ^ 53 - 1) * (2 ^ 53 - 1) := Nat.mul_le_mul (by omega) (by omega)
    rcases roundQuot_eq_or (s * s) (2 ^ 53) with ⟨hc, -⟩ | ⟨hc, -⟩ <;> omega
  obtain ⟨n, hn⟩ := mul_two_pow_mem_range_magUnits hlt (2 * e + 1)
  obtain ⟨hle, -⟩ := hw n
  rw [square_units] at hle ⊢
  refine hle.trans ?_
  rw [hn, Nat.cast_mul, Nat.cast_pow, Nat.cast_ofNat, ← sub_mul, abs_mul, abs_of_pos hpow, pow_succ (2 : ℝ) (2 * e)]
  have hpos : (0 : ℝ) < 2 ^ (2 * e) := by positivity
  nlinarith

/-- The square of the least significand is a magnitude. -/
theorem square_exact (h : s = 2 ^ 52) :
    (magUnits w : ℝ) = (s * 2 ^ (e + 511) * (s * 2 ^ (e + 511)) : ℕ) / unitScale := by
  have hvalue : ((s * s : ℕ) : ℝ) / (2 ^ 53 : ℕ) * 2 ^ (2 * e + 1) = (2 ^ 52 * 2 ^ (2 * e) : ℕ) := by
    rw [h, pow_succ]; push_cast; ring
  obtain ⟨n, hn⟩ := mul_two_pow_mem_range_magUnits (s := 2 ^ 52) (by decide) (2 * e)
  obtain ⟨hle, -⟩ := hw n
  rw [square_units, hvalue] at hle ⊢
  rw [hn, sub_self, abs_zero] at hle
  exact sub_eq_zero.1 (abs_nonpos_iff.1 hle)

end

/-! ## The root -/

theorem abs_sqrt_sub_lt {z s p : ℝ} (hp : 0 < p) (hs : 1 ≤ s) (h : |z - (s * p) ^ 2| ≤ (s - 1) * p ^ 2) :
    2 * |√z - s * p| < p := by
  obtain ⟨hlow, hhigh⟩ := abs_le.1 h
  have hp2 : 0 < p ^ 2 := by positivity
  have hlt : |√z - s * p| < p / 2 := by
    rw [abs_lt]
    constructor
    · have hroot : (s - 1 / 2) * p < √z := Real.lt_sqrt_of_sq_lt (by nlinarith)
      linarith
    · have hroot : √z < (s + 1 / 2) * p := by
        rw [Real.sqrt_lt' (by positivity)]
        nlinarith
      linarith
  linarith

/-- The magnitudes on both sides of a significand that is not the least one are a whole scale away. -/
theorem scale_le_abs_magUnits_sub {k s n : ℕ} (h1 : 2 ^ 52 < s) (h2 : s < 2 ^ 53) (hne : n ≠ k * 2 ^ 52 + s) :
    (2 : ℝ) ^ k ≤ |(magUnits n : ℝ) - s * 2 ^ k| := by
  obtain ⟨t, rfl⟩ := Nat.exists_eq_add_of_le' (Nat.one_le_of_lt h1)
  rcases Nat.lt_or_ge n (k * 2 ^ 52 + (t + 1)) with hlt | hge
  · have hle := magUnits_strictMono.monotone (show n ≤ k * 2 ^ 52 + t by omega)
    rw [magUnits_scaled (by omega) (by omega)] at hle
    have hle' : (magUnits n : ℝ) ≤ t * 2 ^ k := by exact_mod_cast hle
    rw [abs_sub_comm]
    refine le_trans ?_ (le_abs_self _)
    push_cast
    linarith
  · have hle := magUnits_strictMono.monotone (show k * 2 ^ 52 + (t + 1 + 1) ≤ n by omega)
    rw [magUnits_scaled (by omega) (by omega)] at hle
    have hle' : ((t + 1 + 1 : ℕ) : ℝ) * 2 ^ k ≤ magUnits n := by exact_mod_cast hle
    refine le_trans ?_ (le_abs_self _)
    push_cast at hle' ⊢
    linarith

/-- The root of the nearest magnitude to a square is nearest to the square's own root. -/
theorem root_of_square_near {m w : ℕ} (hw : NearestMag ((magUnits m * magUnits m : ℕ) / unitScale) w)
    (hnormal : 2 ^ 52 ≤ w) : ∀ n ≠ m,
      2 * |(magUnits m : ℝ) - √(magUnits w * unitScale : ℕ)| < |(magUnits n : ℝ) - magUnits m| := by
  have hU := unitScale_cast_pos
  obtain ⟨e, s, rfl, h1, h2⟩ := exists_normal_of_square hw hnormal
  intro n hne
  rw [magUnits_normal (e + 511) s h1 h2] at hw ⊢
  rcases h1.eq_or_lt with heq | hlt
  · have hexact := square_exact hw heq.symm
    rw [Nat.cast_mul (magUnits w), hexact, div_mul_cancel₀ _ hU.ne', Nat.cast_mul (s * 2 ^ (e + 511)),
      Real.sqrt_mul_self (Nat.cast_nonneg _), sub_self, abs_zero, mul_zero, abs_pos, sub_ne_zero,
      Nat.cast_inj.ne, ← magUnits_normal (e + 511) s h1 h2]
    exact fun hsame => hne (magUnits_strictMono.injective hsame)
  · have herror := square_error hw h2
    have hfar := scale_le_abs_magUnits_sub hlt h2 hne
    have hscale : (2 : ℝ) ^ (2 * e) * unitScale = 2 ^ 52 * (2 ^ (e + 511)) ^ 2 := by
      rw [unitScale_eq, Nat.cast_pow, Nat.cast_ofNat, ← pow_add, ← pow_mul, ← pow_add,
        show 2 * e + 1074 = 52 + (e + 511) * 2 by omega]
    have hs : (2 : ℝ) ^ 52 + 1 ≤ s := by exact_mod_cast hlt
    rw [abs_sub_comm, Nat.cast_mul s, Nat.cast_pow, Nat.cast_ofNat]
    refine lt_of_lt_of_le (abs_sqrt_sub_lt (by positivity) (by linarith) ?_) hfar
    rw [abs_sub_quot hU, div_le_iff₀ hU, hscale] at herror
    rw [Nat.cast_mul (s * 2 ^ (e + 511)), Nat.cast_mul s, Nat.cast_pow, Nat.cast_ofNat, ← sq] at herror
    rw [Nat.cast_mul]
    refine herror.trans (mul_le_mul_of_nonneg_right (by linarith) (sq_nonneg _))

/-- Settles O47: the exact root of the rounded square lies less than half a step from the number, so it rounds to it. -/
theorem rootOfSquareIsIdentity : Obligations.RootOfSquareIsIdentity := by
  unfold Obligations.RootOfSquareIsIdentity
  intro q q' x hs hnormal hfin
  have hx : isFinite x = true := by
    rw [← Bool.not_eq_false]
    intro hx
    cases hfin.symm.trans (isFinite_fmul_self q hx)
  have hword := nearestMag_roundWord (magUnits (fmag x) * magUnits (fmag x)) unitScale_pos
  have hsquare : fmul q x x = fround false (magUnits (fmag x) * magUnits (fmag x)) unitScale := by
    rw [fmul_of_isFinite hx hx, bne_self_eq_false]
  have hmag : fmag (fmul q x x) = roundWord (magUnits (fmag x) * magUnits (fmag x)) unitScale := by
    have hlt : fmag (fmul q x x) < infMag := by simpa [isFinite] using hfin
    rw [hsquare, fmag_fround, roundMag_eq] at hlt ⊢
    omega
  rw [← hmag] at hword
  have hnear := root_of_square_near hword hnormal
  have hpos : isZero (fmul q x x) = false := by
    rw [isZero, decide_eq_false_iff_not]; omega
  have hsign : fsign (fmul q x x) = false := by rw [hsquare, fsign_fround]
  have hm : unitScale ≤ magUnits (fmag (fmul q x x)) * unitScale :=
    Nat.le_mul_of_pos_left _ (magUnits_pos (fmag_pos hpos))
  have hroot := (nearestMag_sqrt hm).eq_of_near hnear
  rw [fsqrt_of_pos rfl hfin hpos hsign, fround, roundMag_eq, hroot, Nat.min_eq_right, ← hs, fpack_eta]
  have hlt : fmag x < infMag := by simpa [isFinite] using hx
  exact hlt.le

end Sys2Proof.Machine
end

section
/-! The sign of a rounded sum, and the phase error of the left half-plane (46_phase_detector.md R181). -/

namespace Sys2Proof.Machine

theorem fkey_nonpos_of_fsign {x : F64} (h : fsign x = true) : fkey x ≤ 0 := by
  rw [fkey, if_pos h]; omega

theorem fkey_nonneg_of_fsign {x : F64} (h : fsign x = false) : 0 ≤ fkey x := by
  rw [fkey, if_neg (by rw [h]; exact Bool.false_ne_true)]; omega

theorem funits_fneg (x : F64) : funits (fneg x) = -funits x := by
  rw [funits, funits, fsign_fneg, fmag_fneg]
  cases fsign x <;> simp

/-- A sum of finite numbers that is at most zero does not round above zero. -/
theorem fle_fadd_zero {x y : F64} (hx : isFinite x = true) (hy : isFinite y = true) (h : funits x + funits y ≤ 0)
    (q : Site) : fle (fadd q x y) 0 = true := by
  have hkey : fkey 0 = 0 := by decide
  rw [fadd_of_isFinite hx hy, fle_iff, hkey]
  split_ifs with hzero
  · have hmag : fmag (fround (fsign x && fsign y) 0 1) = 0 := by
      rw [fround_zero, fmag_fpack_of_lt (by decide)]
    exact ⟨isNaN_fround _ _ _, by decide, by simp [fkey, hmag]⟩
  · have hneg : funits x + funits y < 0 := lt_of_le_of_ne h hzero
    exact ⟨isNaN_fround _ _ _, by decide, fkey_nonpos_of_fsign (by rw [fsign_fround, decide_eq_true hneg])⟩

/-- A sum of finite numbers that is at least zero does not round below zero. -/
theorem fle_fneg_fadd_zero {x y : F64} (hx : isFinite x = true) (hy : isFinite y = true) (h : 0 ≤ funits x + funits y)
    (q : Site) : fle (fneg (fadd q x y)) 0 = true := by
  have hkey : fkey 0 = 0 := by decide
  rw [fadd_of_isFinite hx hy, fle_iff, hkey, isNaN_fneg, fkey_fneg]
  split_ifs with hzero
  · have hmag : fmag (fround (fsign x && fsign y) 0 1) = 0 := by
      rw [fround_zero, fmag_fpack_of_lt (by decide)]
    exact ⟨isNaN_fround _ _ _, by decide, by simp [fkey, hmag]⟩
  · have hpos : ¬ funits x + funits y < 0 := by omega
    have hkey := fkey_nonneg_of_fsign (x := fround (decide (funits x + funits y < 0)) (funits x + funits y).natAbs 1)
      (by rw [fsign_fround, decide_eq_false hpos])
    exact ⟨isNaN_fround _ _ _, by decide, by omega⟩

/-- The argument's magnitude is at most that of `PI`. -/
theorem funits_fatan2_bounds {x y : F64} (hx : isNaN x = false) (hy : isNaN y = false) :
    isFinite (fatan2 y x) = true ∧ -funits piC ≤ funits (fatan2 y x) ∧ funits (fatan2 y x) ≤ funits piC := by
  have hmag : fmag (fatan2 y x) ≤ fmag piC := by simpa using fmag_atan2Pos_le hx (y := fabs y) (by simpa using hy)
  have hlt : fmag piC < infMag := by decide
  obtain ⟨hlo, hhi⟩ := fle_of_fmag_le (by decide) (by decide) hmag
  obtain ⟨-, -, hlo⟩ := (fle_iff _ _).1 hlo
  obtain ⟨-, -, hhi⟩ := (fle_iff _ _).1 hhi
  rw [← funits_fneg, ← not_lt, ← not_lt, funits_lt_iff, funits_lt_iff]
  exact ⟨by rw [isFinite, decide_eq_true_eq]; omega, hlo.not_gt, hhi.not_gt⟩

/-- Settles O54: above the axis `PI` is taken off an argument that is at most `PI`, elsewhere the sum of `PI` and an argument
that is at least `-PI` is negated. -/
theorem leftHalfPlaneErrorIsNotPositive : Obligations.LeftHalfPlaneErrorIsNotPositive := by
  unfold Obligations.LeftHalfPlaneErrorIsNotPositive
  intro q z hre him
  obtain ⟨hnan, -⟩ := (flt_zero_iff z.re).1 hre
  obtain ⟨hfin, hlo, hhi⟩ := funits_fatan2_bounds hnan him
  have hpi : isFinite piC = true := by decide
  cases hpos : fgt z.im 0 with
  | true =>
    rw [pdDetect_of_im_pos q (fge_zero_of_neg hre) hpos, fsub]
    exact fle_fadd_zero hfin (by rwa [isFinite_fneg]) (by rw [funits_fneg]; omega) _
  | false =>
    rw [pdDetect_of_im_not_pos q (fge_zero_of_neg hre) hpos]
    exact fle_fneg_fadd_zero hfin hpi (by omega) _

end Sys2Proof.Machine
end

section
/-! The lock state over the first two samples of a session (47_demod_fsm.md R206). -/

namespace Sys2Proof.Machine

/-! ## A zero mean is within every threshold -/

theorem isZero_zero : isZero 0 = true := by decide

theorem isZero_fround_zero (b : Bool) {d : ℕ} (hd : 0 < d) : isZero (fround b 0 d) = true := by
  have hzero := nearestMag_roundWord 0 hd
  rw [Nat.cast_zero, zero_div] at hzero
  rw [isZero, fmag_fround, roundMag_eq, hzero.eq_zero]
  rfl

theorem isZero_fdiv {x y : F64} (hx : isZero x = true) (hy : isFinite y = true) (hy0 : isZero y = false) (q : Site) :
    isZero (fdiv q x y) = true := by
  have hmag : fmag x = 0 := by simpa [isZero] using hx
  rw [fdiv_of_isFinite (isFinite_of_isZero hx) hy hy0, hmag, magUnits_zero, Nat.zero_mul]
  exact isZero_fround_zero _ (magUnits_pos (fmag_pos hy0))

/-! ## The rounded value lies on the same side of every binary64 as the exact one -/

section
variable {v : ℝ} {r z : F64} (h : RoundsTo v r) (hv : |v| < 2 ^ 64)

theorem lt_overflow_of_lt (hv : |v| < 2 ^ 64) : |v| < 2 ^ 1024 - 2 ^ 970 := by
  have hsplit : (2 : ℝ) ^ 1024 = 2 ^ 54 * 2 ^ 970 := by rw [← pow_add]
  have hbig : (2 : ℝ) ^ 64 ≤ 2 ^ 970 := pow_le_pow_right₀ one_le_two (by decide)
  rw [hsplit]
  generalize (2 : ℝ) ^ 970 = b at hbig
  linarith

include h hv

theorem RoundsTo.nearest :
    isFinite r = true ∧ ∀ z, isFinite z = true → |(fvalue r : ℝ) - v| ≤ |(fvalue z : ℝ) - v| := by
  rw [RoundsTo, if_pos (lt_overflow_of_lt hv)] at h
  obtain ⟨hfin, hnear, -⟩ := h
  exact ⟨hfin, hnear⟩

theorem RoundsTo.le_of_le (hz : isFinite z = true) (hle : v ≤ fvalue z) : (fvalue r : ℝ) ≤ fvalue z := by
  by_contra hlt
  obtain ⟨-, hnear⟩ := h.nearest hv
  have hdist := hnear z hz
  rw [abs_of_nonneg (by linarith : (0 : ℝ) ≤ fvalue r - v), abs_of_nonneg (by linarith)] at hdist
  linarith

theorem RoundsTo.ge_of_ge (hz : isFinite z = true) (hle : fvalue z ≤ v) : (fvalue z : ℝ) ≤ fvalue r := by
  by_contra hlt
  obtain ⟨-, hnear⟩ := h.nearest hv
  have hdist := hnear z hz
  rw [abs_of_nonpos (by linarith : (fvalue r : ℝ) - v ≤ 0), abs_of_nonpos (by linarith)] at hdist
  linarith

end

theorem fvalue_one : fvalue one = 1 := by
  have hunits : funits one = unitScale := by decide +kernel
  rw [fvalue, hunits, Int.cast_natCast, div_self (Nat.cast_ne_zero.2 unitScale_pos.ne')]

section
variable {n : ℕ} (hn : n < 2 ^ 64)
include hn

theorem isFinite_fofNat : isFinite (fofNat n) = true := by
  have hv : |(n : ℝ)| < 2 ^ 64 := by rw [Nat.abs_cast]; exact_mod_cast hn
  exact ((roundsTo_fofNat n).nearest hv).1

theorem isZero_fofNat (hpos : 1 ≤ n) : isZero (fofNat n) = false := by
  have hv : |(n : ℝ)| < 2 ^ 64 := by rw [Nat.abs_cast]; exact_mod_cast hn
  have hle := (roundsTo_fofNat n).ge_of_ge (z := one) hv (by decide) (by rw [fvalue_one]; exact_mod_cast hpos)
  rw [fvalue_one] at hle
  rw [← Bool.not_eq_true, ← fvalue_eq_zero_iff]
  intro hzero
  rw [hzero] at hle
  norm_num at hle

end

theorem within_of_isZero {avg thr : F64} (ha : isZero avg = true) (ht : fge thr 0 = true) :
    within avg thr = true ∧ exceeds avg thr = false := by
  obtain ⟨-, hthr, hle⟩ := (fle_iff 0 thr).1 ht
  have hkey : fkey 0 = 0 := by decide
  have hmag : fmag avg = 0 := by simpa [isZero] using ha
  have hwithin : within avg thr = true := within_iff.2 ⟨isNaN_of_isZero ha, hthr, by omega⟩
  exact ⟨hwithin, (within_iff_not_exceeds (isNaN_of_isZero ha) hthr).1 hwithin⟩

/-! ## The mean errors before the first window is full -/

section
variable {s : State} (x : Cplx) (hw : 1 ≤ windowSize s) (hlt : windowSize s < 2 ^ 32)
include hw hlt

theorem isZero_avgFreqErr (hlast : s.fad.last = 0) (hcount : s.fad.count.toNat ≠ windowSize s) :
    isZero (avgFreqErr x s) = true := by
  rw [avgFreqErr, freqDump, adProc_of_count_ne _ _ hcount, hlast]
  exact isZero_fdiv isZero_zero (isFinite_fofNat (by omega)) (isZero_fofNat (by omega) hw) _

theorem isZero_avgPhaseErr (hlast : s.pad.last = 0) (hcount : s.pad.count.toNat ≠ windowSize s) :
    isZero (avgPhaseErr x s) = true := by
  rw [avgPhaseErr, phaseDump, adProc_of_count_ne _ _ hcount, hlast]
  exact isZero_fdiv isZero_zero (isFinite_fofNat (by omega)) (isZero_fofNat (by omega) hw) _

end

section
variable {s : State} {x : Cplx}

theorem lockAfter_of_acquiringFrequency (hlock : s.lock = .acquiringFrequency)
    (h : within (avgFreqErr x s) s.cfgFreqThr = true) : lockAfter x s = .acquiringPhase := by
  rw [within] at h
  rw [lockAfter, hlock]
  exact if_pos h

theorem lockAfter_of_acquiringPhase (hlock : s.lock = .acquiringPhase)
    (hf : exceeds (avgFreqErr x s) s.cfgFreqThr = false) (hp : within (avgPhaseErr x s) s.cfgPhaseThr = true) :
    lockAfter x s = .tracking := by
  rw [exceeds] at hf
  rw [within] at hp
  rw [lockAfter, hlock]
  exact (if_neg (Bool.eq_false_iff.1 hf)).trans (if_pos hp)

end

theorem lock_after_proc {s : State} (re im : F64) (hmode : s.mode = .run) :
    (after (.proc re im) s).lock = lockAfter ⟨re, im⟩ s := by
  rw [after_proc re im hmode]; rfl

theorem lockAfter_respond (x : Cplx) (code : RspCode) (d0 d1 : Word) (s : State) :
    lockAfter x (respond code d0 d1 s) = lockAfter x s := rfl

/-- One call that does not fill the window leaves the held value, and counts one. -/
theorem adProc_of_empty {w : ℕ} (hw : 1 ≤ w) (q : Site) (x : F64) :
    (adProc q w ⟨0, 0, 0⟩ x).2.last = 0 ∧ (adProc q w ⟨0, 0, 0⟩ x).2.count.toNat = 1 := by
  have hne : (0 : BitVec 32).toNat ≠ w := Nat.ne_of_lt hw
  rw [adProc_of_count_ne q x (b := ⟨0, 0, 0⟩) hne]
  exact ⟨rfl, rfl⟩

/-- Settles O31: in a window of at least 2 both held values are still zero at the second sample, and so are the means. -/
theorem trackingAtSecondSample : Obligations.TrackingAtSecondSample := by
  unfold Obligations.TrackingAtSecondSample
  intro s re1 im1 re2 im2 hmode hlock hfad hpad hw hlt hfreq hphase
  have hzero : (0 : BitVec 32).toNat ≠ windowSize s := Nat.ne_of_lt (Nat.one_le_of_lt hw)
  have hone : 1 ≤ windowSize s := Nat.one_le_of_lt hw
  have hfirst : lockAfter ⟨re1, im1⟩ s = .acquiringPhase := by
    have havg := isZero_avgFreqErr ⟨re1, im1⟩ hone hlt (by rw [hfad]) (by rw [hfad]; exact hzero)
    exact lockAfter_of_acquiringFrequency hlock (within_of_isZero havg hfreq).1
  have hsecond : lockAfter ⟨re2, im2⟩ (stepState ⟨re1, im1⟩ s) = .tracking := by
    obtain ⟨hflast, hfcount⟩ := adProc_of_empty hone [5, s.freeCount] (freqErrorSample ⟨re1, im1⟩ s)
    obtain ⟨hplast, hpcount⟩ := adProc_of_empty hone [7, s.freeCount] (phaseError ⟨re1, im1⟩ s)
    rw [← hfad] at hflast hfcount
    rw [← hpad] at hplast hpcount
    have hone' : 1 ≠ windowSize s := Nat.ne_of_lt hw
    have hf := isZero_avgFreqErr (s := stepState ⟨re1, im1⟩ s) ⟨re2, im2⟩ hone hlt hflast (hfcount.trans_ne hone')
    have hp := isZero_avgPhaseErr (s := stepState ⟨re1, im1⟩ s) ⟨re2, im2⟩ hone hlt hplast (hpcount.trans_ne hone')
    exact lockAfter_of_acquiringPhase hfirst (within_of_isZero hf hfreq).2 (within_of_isZero hp hphase).1
  have hafter := after_proc re1 im1 hmode
  have hmode' : (after (.proc re1 im1) s).mode = .run := by rw [hafter]; exact hmode
  rw [lock_after_proc re1 im1 hmode, lock_after_proc re2 im2 hmode', hafter, lockAfter_respond]
  exact ⟨hfirst, hsecond⟩

end Sys2Proof.Machine
end

section
/-! The impulse response of the matched filter (43_fir.md R154). -/

namespace Sys2Proof.Machine

/-! ## Rounding depends on the quotient alone -/

theorem roundQuot_mul_right (n d : ℕ) {c : ℕ} (hc : 0 < c) : roundQuot (n * c) (d * c) = roundQuot n d := by
  have hlt (r : ℕ) : d * c < 2 * (r * c) ↔ d < 2 * r := by rw [← mul_assoc, Nat.mul_lt_mul_right hc]
  have heq (r : ℕ) : 2 * (r * c) = d * c ↔ 2 * r = d := by rw [← mul_assoc, Nat.mul_left_inj hc.ne']
  simp only [roundQuot, Nat.mul_div_mul_right _ _ hc, Nat.mul_mod_mul_right, gt_iff_lt, hlt, Bool.beq_eq_decide_eq, heq]

theorem fround_mul_right (b : Bool) (n d : ℕ) {c : ℕ} (hc : 0 < c) : fround b (n * c) (d * c) = fround b n d := by
  rw [fround, fround, roundMag_eq, roundMag_eq, roundWord, roundWord, Nat.mul_div_mul_right _ _ hc, mul_right_comm,
    roundQuot_mul_right _ _ hc]

/-! ## Products with one and with zero, sums with zero -/

/-- `x`, or `+0.0` for `-0.0`. -/
def posZero (x : F64) : F64 := if x = 0x8000000000000000 then 0 else x

theorem posZero_of_isZero {x : F64} (h : isZero x = true) : posZero x = 0 := by
  rw [eq_of_isZero h]
  cases fsign x <;> decide

theorem posZero_of_not_isZero {x : F64} (h : isZero x = false) : posZero x = x := by
  rw [posZero, if_neg]
  rintro rfl
  revert h
  decide

section
variable {x y : F64} (q : Site)

theorem fmul_one_right (hx : isFinite x = true) : fmul q x one = x := by
  have hone : magUnits (fmag one) = unitScale := by decide +kernel
  have hsign : fsign one = false := by decide
  rw [fmul_of_isFinite hx (by decide), hone, hsign, Bool.bne_false, ← one_mul unitScale, ← mul_assoc, mul_one,
    fround_mul_right _ _ _ unitScale_pos, fround_exact hx]

theorem isZero_fmul_of_isZero_right (hx : isFinite x = true) (hy : isZero y = true) : isZero (fmul q x y) = true := by
  have hmag : fmag y = 0 := by simpa [isZero] using hy
  rw [fmul_of_isFinite hx (isFinite_of_isZero hy), hmag, magUnits_zero, mul_zero]
  exact isZero_fround_zero _ unitScale_pos

theorem fadd_zero_left (hx : isNaN x = false) : fadd q 0 x = posZero x := by
  cases hx0 : isZero x with
  | false => rw [fadd_of_isZero_left q hx hx0 isZero_zero, posZero_of_not_isZero hx0]
  | true =>
    have hsign : fsign 0 = false := by decide
    rw [fadd_of_isZero q isZero_zero hx0, posZero_of_isZero hx0, hsign, Bool.false_and]
    decide

theorem fadd_posZero (hx : isNaN x = false) (hy : isZero y = true) : fadd q (posZero x) y = posZero x := by
  cases hx0 : isZero x with
  | false => rw [posZero_of_not_isZero hx0, fadd_of_isZero_right q hx hx0 hy]
  | true => rw [posZero_of_isZero hx0, fadd_zero_left q (isNaN_of_isZero hy), posZero_of_isZero hy]

end

/-! ## The buffer with one impulse -/

/-- The buffer holds `1.0` at index `i` and zeros at the other indices below `n`. -/
def ImpulseAt (n i : ℕ) (taps : List Cplx) : Prop := ∀ j < n, taps.getD j C0 = if j = i then ⟨one, 0⟩ else C0

theorem getD_firShift_zero {n : ℕ} (hn : 0 < n) (x : Cplx) (taps : List Cplx) : (firShift n x taps).getD 0 C0 = x := by
  obtain ⟨m, rfl⟩ := Nat.exists_eq_add_of_le' hn
  rw [firShift, List.take_succ_cons, List.getD_cons_zero]

theorem getD_firShift_succ {n j : ℕ} (hj : j + 1 < n) (x : Cplx) (taps : List Cplx) :
    (firShift n x taps).getD (j + 1) C0 = taps.getD j C0 := by
  obtain ⟨m, rfl⟩ := Nat.exists_eq_add_of_le' (Nat.lt_of_le_of_lt (Nat.zero_le _) hj)
  rw [firShift, List.take_succ_cons, List.getD_cons_succ, List.getD, List.getD, List.getElem?_take_of_lt (by omega)]

theorem impulseAt_zero (n : ℕ) : ImpulseAt n 0 (firShift n ⟨one, 0⟩ (List.replicate n C0)) := by
  intro j hj
  cases j with
  | zero => rw [getD_firShift_zero hj, if_pos rfl]
  | succ j =>
    rw [getD_firShift_succ hj, if_neg (Nat.succ_ne_zero j), List.getD_replicate]
    omega

theorem ImpulseAt.shift {n i : ℕ} {taps : List Cplx} (h : ImpulseAt n i taps) :
    ImpulseAt n (i + 1) (firShift n C0 taps) := by
  intro j hj
  cases j with
  | zero => rw [getD_firShift_zero hj, if_neg (Nat.succ_ne_zero i).symm]
  | succ j =>
    rw [getD_firShift_succ hj, h j (by omega)]
    simp only [Nat.add_right_cancel_iff]

/-! ## The filter's outputs -/

/-- What the filter answers to an impulse under the coefficient `c`. -/
def impulseOut (c : F64) : Cplx := ⟨posZero c, 0⟩

section
variable (q q' : Site) {c : F64} (hc : isFinite c = true)
include hc

theorem cadd_cscale_one : cadd q C0 (cscale q' c ⟨one, 0⟩) = impulseOut c := by
  obtain ⟨hnan, -⟩ := not_nan_and_not_inf_of_isFinite hc
  have him := isZero_fmul_of_isZero_right (1 :: q') hc isZero_zero
  rw [cadd, cscale, C0, impulseOut, fmul_one_right _ hc, fadd_zero_left _ hnan, fadd_zero_left _ (isNaN_of_isZero him),
    posZero_of_isZero him]

theorem cadd_cscale_zero {a : F64} (ha : isNaN a = false) :
    cadd q (impulseOut a) (cscale q' c C0) = impulseOut a := by
  have hre := isZero_fmul_of_isZero_right (0 :: q') hc isZero_zero
  have him := isZero_fmul_of_isZero_right (1 :: q') hc isZero_zero
  rw [cadd, cscale, C0, impulseOut, fadd_posZero _ ha hre, fadd_zero_left _ (isNaN_of_isZero him), posZero_of_isZero him]

end

section
variable {coef : List F64} (hfin : ∀ c ∈ coef, isFinite c = true)
include hfin

theorem isFinite_getD (j : ℕ) : isFinite (coef.getD j 0) = true := by
  rcases Nat.lt_or_ge j coef.length with hlt | hge
  · rw [List.getD_eq_getElem _ _ hlt]
    exact hfin _ (List.getElem_mem hlt)
  · rw [List.getD_eq_default _ _ hge]
    decide

theorem firSum_of_impulseAt {n i : ℕ} {taps : List Cplx} (h : ImpulseAt n i taps) (q : Site) {m : ℕ} (hm : m ≤ n) :
    firSum q m coef taps = if i < m then impulseOut (coef.getD i 0) else C0 := by
  have hzero : C0 = impulseOut 0 := by decide
  obtain ⟨hnan, -⟩ := not_nan_and_not_inf_of_isFinite (isFinite_getD hfin i)
  induction m with
  | zero => rfl
  | succ m ih =>
    have hc := isFinite_getD hfin m
    rw [firSum_succ, ih (by omega), h m (by omega)]
    rcases lt_trichotomy i m with hlt | rfl | hgt
    · rw [if_pos hlt, if_neg hlt.ne', if_pos (by omega), cadd_cscale_zero _ _ hc hnan]
    · rw [if_neg (lt_irrefl i), if_pos rfl, if_pos (Nat.lt_succ_self i), cadd_cscale_one _ _ hc]
    · rw [if_neg (by omega), if_neg hgt.ne, if_neg (by omega)]
      nth_rw 1 [hzero]
      rw [cadd_cscale_zero _ _ hc (isNaN_of_isZero isZero_zero), hzero]

/-- The zeros after an impulse bring out the coefficients from the impulse's place on. -/
theorem firOutputs_of_impulseAt (q : Site) (k : ℕ) {p i : ℕ} {taps : List Cplx} (hi : i + 1 + k = coef.length)
    (h : ImpulseAt coef.length i taps) :
    firOutputs q coef.length p coef taps (List.replicate k C0) = (coef.drop (i + 1)).map impulseOut := by
  induction k generalizing p i taps with
  | zero => rw [List.drop_eq_nil_of_le hi.ge]; rfl
  | succ k ih =>
    have hlt : i + 1 < coef.length := by omega
    rw [List.replicate_succ, firOutputs, ih (by omega) h.shift, firSum_of_impulseAt hfin h.shift _ le_rfl, if_pos hlt,
      List.getD_eq_getElem _ _ hlt, List.drop_eq_getElem_cons hlt, List.map_cons]

end

/-- Settles O49: the impulse's place in the buffer picks one coefficient after another, and the other terms are zeros. -/
theorem impulseResponseIsCoefficients : Obligations.ImpulseResponseIsCoefficients := by
  unfold Obligations.ImpulseResponseIsCoefficients
  intro q coef hfin hne
  have hpos : 0 < coef.length := List.length_pos_iff.2 hne
  have hfirst := impulseAt_zero coef.length
  have hout : (fun c : F64 => (⟨if c = 0x8000000000000000 then 0 else c, 0⟩ : Cplx)) = impulseOut := rfl
  have hone : (0x3FF0000000000000 : F64) = one := rfl
  rw [hout, hone, firOutputs, firOutputs_of_impulseAt hfin q _ (by omega) hfirst,
    firSum_of_impulseAt hfin hfirst _ le_rfl, if_pos hpos, List.getD_eq_getElem _ _ hpos, ← List.map_cons,
    List.getElem_cons_drop, List.drop_zero]

end Sys2Proof.Machine
end

section
/-! The sample times of the root-raised-cosine grid (42_rrc_synth.md R130). -/

namespace Sys2Proof.Machine

/-! ## Signs and zeros of rounded quotients -/

theorem fneg_fround (b : Bool) (n d : ℕ) : fneg (fround b n d) = fround (!b) n d :=
  f64_ext (by simp) (by simp)

theorem fround_zero_num (b : Bool) {d : ℕ} (hd : 0 < d) : fround b 0 d = fpack b 0 := by
  rw [eq_of_isZero (isZero_fround_zero b hd), fsign_fround]

theorem fpack_false_zero : fpack false 0 = 0x0000000000000000 := by decide

/-- A number of at least one unit does not round to zero. -/
theorem NearestMag.pos {y : ℝ} {w : ℕ} (h : NearestMag y w) (hy : 1 ≤ y) : 0 < w := by
  rw [Nat.pos_iff_ne_zero]
  rintro rfl
  have hone : magUnits 1 = 1 := magUnits_sub (by decide)
  obtain ⟨hle, -⟩ := h 1
  rw [hone, magUnits_zero, Nat.cast_zero, Nat.cast_one, zero_sub, abs_neg, abs_of_nonneg (by linarith), abs_sub_comm,
    abs_of_nonneg (by linarith)] at hle
  linarith

theorem flt_zero_fround {n d : ℕ} (hd : 0 < d) (hle : d ≤ n) : flt 0 (fround false n d) = true := by
  have hone : (1 : ℝ) ≤ n / d := (one_le_div (Nat.cast_pos.2 hd)).2 (Nat.cast_le.2 hle)
  have hpos := (nearestMag_roundWord n hd).pos hone
  have hzero : isZero (fround false n d) = false := by
    have hinf : 0 < infMag := by decide
    rw [isZero, fmag_fround, roundMag_eq, decide_eq_false_iff_not]
    omega
  exact (fgt_zero_iff _).2 ⟨isNaN_fround _ _ _, hzero, fsign_fround _ _ _⟩

/-! ## The times -/

section
variable {sps d : ℕ} (hpos : 1 ≤ sps)
include hpos

/-- Below 2^53 the conversions are exact, so that a time is one rounding of the quotient. -/
theorem rrcTime_eq (hsps : sps < 2 ^ 53) {k : ℕ} {n : ℤ} (hk : (k : ℤ) - sps * d = n) (hn : n.natAbs < 2 ^ 53)
    (q : Site) : rrcTime q sps d k = fround (decide (n < 0)) (n.natAbs * unitScale) sps := by
  obtain ⟨hfinN, hmagN⟩ := fround_whole hn (decide (n < 0))
  obtain ⟨hfinS, hmagS⟩ := fround_whole hsps false
  have hzero := isZero_fofNat (by omega) hpos
  rw [fofNat] at hzero
  rw [rrcTime, hk, fofInt, fofNat, fdiv_of_isFinite hfinN hfinS hzero, hmagN, hmagS, fsign_fround, fsign_fround,
    Bool.bne_false, fround_mul_right _ _ _ unitScale_pos]

/-- The time `j` grid steps before or after the centre. -/
theorem rrcTime_of_offset (hsps : sps < 2 ^ 53) {j k : ℕ} (hj : j < 2 ^ 53) (q : Site) :
    (k = sps * d + j → rrcTime q sps d k = fround false (j * unitScale) sps) ∧
      (k + j = sps * d → 1 ≤ j → rrcTime q sps d k = fround true (j * unitScale) sps) := by
  refine ⟨fun hk => ?_, fun hk h1 => ?_⟩
  · rw [rrcTime_eq hpos hsps (n := j) (by omega) (by omega), decide_eq_false (by omega), Int.natAbs_natCast]
  · rw [rrcTime_eq hpos hsps (n := -j) (by omega) (by omega), decide_eq_true (by omega), Int.natAbs_neg,
      Int.natAbs_natCast]

/-- `d` symbols are `sps * d` grid steps. -/
theorem fround_symbols (b : Bool) : fround b (sps * d * unitScale) sps = fround b (d * unitScale) 1 := by
  rw [mul_assoc, mul_comm sps, ← fround_mul_right b (d * unitScale) 1 hpos, one_mul]

end

/-- A span of 0 has the one time `+0.0`, whatever the grid. -/
theorem rrcTime_span_zero {sps : ℕ} (hpos : 1 ≤ sps) (hsps : sps < 2 ^ 64) (q : Site) :
    rrcTime q sps 0 0 = 0x0000000000000000 := by
  have hzero : fofInt ((0 : ℕ) - sps * (0 : ℕ)) = 0 := by
    rw [Nat.cast_zero, mul_zero, sub_zero, fofInt, Int.natAbs_zero, zero_mul, fround_zero_num _ one_pos]
    decide
  have hsign : fsign (fofNat sps) = false := by rw [fofNat, fsign_fround]
  have htime := isZero_fdiv isZero_zero (isFinite_fofNat hsps) (isZero_fofNat hsps hpos) q
  rw [rrcTime, hzero, eq_of_isZero htime, fsign_fdiv q (isNaN_of_isZero htime), hsign]
  decide

/-- Settles O43: each time is one rounding of the quotient of the grid steps from the centre, whose sign is the side. -/
theorem sampleTimesAreSymmetric : Obligations.SampleTimesAreSymmetric := by
  unfold Obligations.SampleTimesAreSymmetric
  refine ⟨fun q q' sps d htwo _ hd hcount => ?_, fun q sps htwo hsps =>
    ⟨by rw [rrcCount, mul_zero], rrcTime_span_zero (by omega) hsps q⟩⟩
  rw [rrcCount] at hcount ⊢
  have hpos : 1 ≤ sps := by omega
  have hprod : sps * d < 2 ^ 32 := by rw [mul_assoc] at hcount; omega
  have hsps : sps < 2 ^ 32 := (Nat.le_mul_of_pos_right sps hd).trans_lt hprod
  have hspan : d < 2 ^ 32 := (Nat.le_mul_of_pos_left d hpos).trans_lt hprod
  have hoffset {j k : ℕ} (hj : j ≤ sps * d) :=
    rrcTime_of_offset (d := d) (k := k) hpos (hsps.trans (by decide)) (show j < 2 ^ 53 by omega)
  refine ⟨rfl, fun k hk => ?round, ?first, ?last, fvalue_fofNat (by omega), ?centre, fun j h1 hj => ?symmetric⟩
  case round =>
    have hn : ((k : ℤ) - sps * d).natAbs < 2 ^ 53 := by
      rw [mul_assoc] at hk
      have hcast : ((sps * d : ℕ) : ℤ) = sps * d := Nat.cast_mul _ _
      omega
    rw [rrcTime_eq hpos (by omega) rfl hn]
    refine roundsTo_fround _ _ hpos ?_
    have hv : ((k : ℝ) - sps * d) = ((k : ℤ) - sps * d : ℤ) := by push_cast; rfl
    rw [hv, cast_eq_signed, signed_div, Nat.cast_mul, div_div,
      mul_div_mul_right _ _ unitScale_cast_pos.ne']
  case first =>
    rw [(hoffset le_rfl q).2 (Nat.zero_add _) (Nat.mul_pos hpos hd), fround_symbols hpos, fofNat, fneg_fround,
      Bool.not_false]
  case last =>
    rw [(hoffset le_rfl q).1 (by rw [mul_assoc, two_mul]), fround_symbols hpos, fofNat]
  case centre =>
    rw [(hoffset (Nat.zero_le _) q).1 (Nat.add_zero _).symm, zero_mul, fround_zero_num _ hpos, fpack_false_zero]
  case symmetric =>
    rw [(hoffset hj q).2 (by omega) h1, (hoffset hj q').1 rfl, fneg_fround, Bool.not_false]
    refine ⟨rfl, flt_zero_fround hpos ?_⟩
    have hbig : 2 ^ 32 ≤ unitScale := by decide +kernel
    exact hsps.le.trans (hbig.trans (Nat.le_mul_of_pos_left _ h1))

end Sys2Proof.Machine
end

section
/-! The unit tap of a span of 0 (48_host_commands.md R225): the centre value is near 1, where a square is normal and its root
is the value again. -/

namespace Sys2Proof.Machine

/-! ## Bounds through a rounding -/

/-- `x` is finite, at least `lo` and at most `hi`. -/
def Between (lo hi x : F64) : Prop := isFinite x = true ∧ fvalue lo ≤ fvalue x ∧ fvalue x ≤ fvalue hi

/-- A number between two binary64 values stays between them when it is rounded. -/
theorem RoundsTo.between {v : ℚ} {r lo hi : F64} (h : RoundsTo (v : ℝ) r) (hlo : isFinite lo = true)
    (hhi : isFinite hi = true) (hle : fvalue lo ≤ v) (hge : v ≤ fvalue hi) (hsmall : |v| < 2 ^ 64) :
    Between lo hi r := by
  have hv : |(v : ℝ)| < 2 ^ 64 := by exact_mod_cast hsmall
  have hbelow := h.ge_of_ge hv hlo (by exact_mod_cast hle)
  have habove := h.le_of_le hv hhi (by exact_mod_cast hge)
  exact ⟨(h.nearest hv).1, by exact_mod_cast hbelow, by exact_mod_cast habove⟩

theorem fvalue_eq_of_units {x : F64} {a b : ℕ} (hb : 0 < b) (h : funits x * b = a * unitScale) : fvalue x = a / b := by
  have hU : (unitScale : ℚ) ≠ 0 := Nat.cast_ne_zero.2 unitScale_pos.ne'
  have hb' : (b : ℚ) ≠ 0 := Nat.cast_ne_zero.2 hb.ne'
  rw [fvalue, div_eq_div_iff hU hb']
  exact_mod_cast h

/-- The word of 0.25. -/
def quarter : F64 := 0x3FD0000000000000

/-- The word of 0.5. -/
def half : F64 := 0x3FE0000000000000

theorem fvalue_zero : fvalue 0 = 0 := fvalue_eq_zero_iff.2 isZero_zero

theorem fvalue_quarter : fvalue quarter = 1 / 4 := by
  exact_mod_cast fvalue_eq_of_units (a := 1) (b := 4) (by decide) (by decide +kernel)

theorem fvalue_half : fvalue half = 1 / 2 := by
  exact_mod_cast fvalue_eq_of_units (a := 1) (b := 2) (by decide) (by decide +kernel)

theorem fvalue_two : fvalue two = 2 := by
  simpa using fvalue_eq_of_units (x := two) (a := 2) one_pos (by decide +kernel)

theorem fvalue_four : fvalue four = 4 := by
  simpa using fvalue_eq_of_units (x := four) (a := 4) one_pos (by decide +kernel)

theorem two_le_fvalue_piC : 2 ≤ fvalue piC := by
  rw [← fvalue_two, fvalue_le_iff]; decide

theorem fvalue_piC_le_four : fvalue piC ≤ 4 := by
  rw [← fvalue_four, fvalue_le_iff]; decide

/-! ## The centre value -/

section
variable {r : F64} (hpos : fgt r 0 = true) (hle : fle r one = true)
include hpos hle

theorem rolloff_bounds : isFinite r = true ∧ 0 < fvalue r ∧ fvalue r ≤ 1 := by
  obtain ⟨-, -, hkey⟩ := (flt_iff 0 r).1 hpos
  obtain ⟨-, -, hone⟩ := (fle_iff r one).1 hle
  have hzero : fkey 0 = 0 := by decide
  have hlast : fkey one < infMag := by decide
  have habs := natAbs_fkey r
  refine ⟨by rw [isFinite, decide_eq_true_eq]; omega, ?_, ?_⟩
  · rw [← fvalue_zero, fvalue_lt_iff]; exact hkey
  · rw [← fvalue_one, fvalue_le_iff]; exact hone

end

section
variable {x lo : F64} (q : Site) (hx : isFinite x = true) (hlo : isFinite lo = true) (hx0 : 0 ≤ fvalue x)
include hx hlo hx0

theorem one_sub_between (hx1 : fvalue x ≤ 1) (hle : fvalue lo ≤ 1 - fvalue x) : Between lo one (fsub q one x) := by
  refine (roundsTo_fsub (by decide) hx q).between hlo (by decide) ?_ ?_ ?_ <;> rw [fvalue_one]
  · exact hle
  · linarith
  · rw [abs_lt]; constructor <;> linarith

theorem four_mul_between (hx1 : fvalue x ≤ 1) (hle : fvalue lo ≤ 4 * fvalue x) : Between lo four (fmul q four x) := by
  refine (roundsTo_fmul (by decide) hx q).between hlo (by decide) ?_ ?_ ?_ <;> rw [fvalue_four]
  · exact hle
  · linarith
  · rw [abs_lt]; constructor <;> linarith

theorem div_piC_between (hx4 : fvalue x ≤ 4) (hle : fvalue lo * 4 ≤ fvalue x) (hlo0 : 0 ≤ fvalue lo) :
    Between lo two (fdiv q x piC) := by
  have hpi2 := two_le_fvalue_piC
  have hpi4 := fvalue_piC_le_four
  have hpi : 0 < fvalue piC := by linarith
  have hquot0 : 0 ≤ fvalue x / fvalue piC := div_nonneg hx0 hpi.le
  have hquot2 : fvalue x / fvalue piC ≤ 2 := by rw [div_le_iff₀ hpi]; linarith
  refine (roundsTo_fdiv hx (by decide) q (by decide)).between hlo (by decide) ?_ ?_ ?_
  · rw [le_div_iff₀ hpi]
    exact (mul_le_mul_of_nonneg_left hpi4 hlo0).trans hle
  · rwa [fvalue_two]
  · rw [abs_lt]; constructor <;> linarith

end

/-- The linear term is at least 1/2 for a roll-off of at most 1/2, the quotient for a greater one, and neither is
negative. -/
theorem rrcCentre_between {r : F64} (hpos : fgt r 0 = true) (hle : fle r one = true) (q : Site) :
    Between half four (rrcCentre q r) := by
  obtain ⟨hr, hr0, hr1⟩ := rolloff_bounds hpos hle
  have hsum {a g : F64} (ha : isFinite a = true) (ha1 : fvalue a ≤ fvalue one) (hg : isFinite g = true)
      (hg2 : fvalue g ≤ fvalue two) (h : 1 / 2 ≤ fvalue a + fvalue g) : Between half four (fadd (3 :: q) a g) := by
    rw [fvalue_one] at ha1
    rw [fvalue_two] at hg2
    refine (roundsTo_fadd ha hg _).between (by decide) (by decide) (by rwa [fvalue_half]) ?_ ?_
    · rw [fvalue_four]; linarith
    · rw [abs_lt]; constructor <;> linarith
  have hzero := fvalue_zero
  have hhalf := fvalue_half
  have htwo := fvalue_two
  have hfour := fvalue_four
  rw [rrcCentre]
  rcases le_total (fvalue r) (1 / 2) with hlow | hhigh
  · obtain ⟨ha, halo, hahi⟩ := one_sub_between (lo := half) (0 :: q) hr (by decide) hr0.le hr1 (by linarith)
    obtain ⟨hb, hblo, hbhi⟩ := four_mul_between (lo := 0) (1 :: q) hr (by decide) hr0.le hr1 (by linarith)
    obtain ⟨hg, hglo, hghi⟩ := div_piC_between (lo := 0) (2 :: q) hb (by decide) (by linarith) (by linarith)
      (by linarith) hzero.ge
    exact hsum ha hahi hg hghi (by linarith)
  · obtain ⟨ha, halo, hahi⟩ := one_sub_between (lo := 0) (0 :: q) hr (by decide) hr0.le hr1 (by linarith)
    obtain ⟨hb, hblo, hbhi⟩ := four_mul_between (lo := two) (1 :: q) hr (by decide) hr0.le hr1 (by linarith)
    obtain ⟨hg, hglo, hghi⟩ := div_piC_between (lo := half) (2 :: q) hb (by decide) (by linarith) (by linarith)
      (by linarith) (by linarith)
    exact hsum ha hahi hg hghi (by linarith)

/-! ## The unit tap -/

section
variable {c : F64} (h : Between half four c)
include h

theorem fsign_of_between_half : fsign c = false ∧ isZero c = false := by
  obtain ⟨-, hlo, -⟩ := h
  have hpos : 0 < fvalue c := by rw [fvalue_half] at hlo; linarith
  rw [← Bool.not_eq_true, ← Bool.not_eq_true, ← fvalue_eq_zero_iff]
  refine ⟨fun hsign => ?_, hpos.ne'⟩
  rw [← fvalue_zero, fvalue_lt_iff] at hpos
  have hkey := fkey_nonpos_of_fsign hsign
  have hzero : fkey 0 = 0 := by decide
  omega

/-- A square from the range of the centre value is finite and normal. -/
theorem square_normal (q : Site) :
    isFinite (fmul q c c) = true ∧ 2 ^ 52 ≤ fmag (fmul q c c) ∧ isZero (fmul q c c) = false := by
  obtain ⟨hc, hlo, hhi⟩ := h
  rw [fvalue_half] at hlo
  rw [fvalue_four] at hhi
  have hsixteen : fvalue (fofNat 16) = (16 : ℕ) := fvalue_fofNat (by decide)
  obtain ⟨hfin, hle, -⟩ := (roundsTo_fmul hc hc q).between (lo := quarter) (hi := fofNat 16) (by decide)
    (isFinite_fofNat (by decide)) (by rw [fvalue_quarter]; nlinarith) (by rw [hsixteen]; norm_num; nlinarith)
    (by rw [abs_lt]; constructor <;> nlinarith)
  rw [fvalue_le_iff] at hle
  have hkey : 2 ^ 52 ≤ fkey quarter := by decide
  have habs := natAbs_fkey (fmul q c c)
  refine ⟨hfin, by omega, ?_⟩
  rw [isZero, decide_eq_false_iff_not]
  omega

theorem fdiv_self (q : Site) : fdiv q c c = one := by
  obtain ⟨hsign, hzero⟩ := fsign_of_between_half h
  obtain ⟨hc, -, -⟩ := h
  have hone : fround false unitScale 1 = one := by decide +kernel
  have hcancel := fround_mul_right false unitScale 1 (magUnits_pos (fmag_pos hzero))
  rw [fdiv_of_isFinite hc hc hzero, bne_self_eq_false, mul_comm, ← hone, ← hcancel, one_mul]

/-- One tap has its own square as energy, and the root of that divides it to 1. -/
theorem rrcNorm_singleton (q q' : Site) :
    rrcNorm q [c] (rrcEnergy q' [c]) = [one] ∧ rrcDegenerate (rrcEnergy q' [c]) [one] = false := by
  obtain ⟨hsign, -⟩ := fsign_of_between_half h
  obtain ⟨hfin, hnormal, hzero⟩ := square_normal h (0 :: 0 :: q')
  obtain ⟨hnan, -⟩ := not_nan_and_not_inf_of_isFinite hfin
  have henergy : rrcEnergy q' [c] = fmul (0 :: 0 :: q') c c := by
    rw [rrcEnergy, rrcEnergyFrom, rrcEnergyFrom, fadd_of_isZero_left _ hnan hzero isZero_zero]
  have hroot := rootOfSquareIsIdentity (0 :: 0 :: q') (0 :: q) c hsign hnormal hfin
  rw [henergy]
  constructor
  · have hnorm (e : F64) : rrcNorm q [c] e = [fdiv (1 :: 0 :: q) c (fsqrt (0 :: q) e)] := rfl
    rw [hnorm, hroot, fdiv_self h]
  · rw [rrcDegenerate_eq_false_iff, feq_zero_eq]
    refine ⟨hfin, hzero, fun v hv => ?_⟩
    rw [List.mem_singleton.1 hv]
    decide

end

/-- Settles O46: the one time is the centre, whose value divided by the root of its square is 1. -/
theorem spanZeroGivesUnitTap : Obligations.SpanZeroGivesUnitTap := by
  unfold Obligations.SpanZeroGivesUnitTap
  intro s hmode hsps hlow hhigh hw1 hw2 hspan
  have hspan0 : s.cfgSpan.toNat = 0 := by rw [hspan]; rfl
  have hcount : cfgCount s = 1 := by rw [cfgCount, hspan0, rrcCount, mul_zero]
  have hraw : ∃ c, Between half four c ∧ cfgRawTaps s = [c] := by
    have htime := rrcTime_span_zero (Nat.le_of_succ_le hsps) s.cfgSps.isLt [0, 0, 0, s.freeCount]
    have hcentre : feq 0x0000000000000000 0 = true := (feq_zero_eq _).trans isZero_zero
    refine ⟨_, rrcCentre_between hlow hhigh [0, 1, 0, 0, s.freeCount], ?_⟩
    rw [← rrcRaw_of_centre _ hcentre, ← htime, cfgRawTaps, hspan0, rrcRawTaps, rrcCount, mul_zero]
    rfl
  obtain ⟨c, hc, hraw⟩ := hraw
  obtain ⟨htaps, hsound⟩ := rrcNorm_singleton hc [2, s.freeCount] [1, s.freeCount]
  rw [← hraw, ← cfgEnergy] at htaps hsound
  rw [← cfgTaps] at htaps
  have hnone : startReject s = none := by
    have hfits : ¬Config.maxTaps < cfgCount s := by rw [hcount]; exact Nat.not_lt.2 one_le_maxTaps
    rw [startReject_of_first_four hmode hsps ((rolloffLegal_iff s).2 ⟨hlow, hhigh⟩) ⟨hw1, hw2⟩, if_neg hfits, htaps,
      hsound]
    rfl
  refine ⟨_, exec_start_of_startReject_none hnone, rfl, hcount, htaps⟩

end Sys2Proof.Machine
end

section
/-! The symmetry of the coefficients (42_rrc_synth.md R139): the raw taps of opposite times have one value, whatever NaN an
operation of either yields and whatever sign a zero has. -/

namespace Sys2Proof.Machine

/-! ## Numbers without the NaN's payload, and without the sign of zero -/

/-- The number that a word stands for: the word, or nothing for a NaN. -/
def number (x : F64) : Option F64 := if isNaN x then none else some x

/-- The place of a number in the order; the two zeros have one place. -/
def numberKey (x : F64) : Option ℤ := (number x).map fkey

section
variable {x y : F64}

theorem number_of_nan (h : isNaN x = true) : number x = none := if_pos h

theorem number_of_not_nan (h : isNaN x = false) : number x = some x := by rw [number, h]; rfl

theorem number_eq_iff : number x = number y ↔ x = y ∨ (isNaN x = true ∧ isNaN y = true) := by
  cases hx : isNaN x <;> cases hy : isNaN y
  · rw [number_of_not_nan hx, number_of_not_nan hy]; simp
  · rw [number_of_not_nan hx, number_of_nan hy]
    have hne : x ≠ y := by rintro rfl; rw [hx] at hy; cases hy
    simp [hne]
  · rw [number_of_nan hx, number_of_not_nan hy]
    have hne : x ≠ y := by rintro rfl; rw [hx] at hy; cases hy
    simp [hne]
  · rw [number_of_nan hx, number_of_nan hy]; simp

theorem numberKey_of_number (h : number x = number y) : numberKey x = numberKey y := congrArg (Option.map fkey) h

theorem numberKey_of_isZero (hx : isZero x = true) (hy : isZero y = true) : numberKey x = numberKey y := by
  rw [numberKey, numberKey, number_of_not_nan (isNaN_of_isZero hx), number_of_not_nan (isNaN_of_isZero hy), Option.map_some,
    Option.map_some, (isZero_iff_fkey x).1 hx, (isZero_iff_fkey y).1 hy]

theorem numberKey_eq_cases (h : numberKey x = numberKey y) : number x = number y ∨ (isZero x = true ∧ isZero y = true) := by
  rw [numberKey, numberKey, number, number] at h
  split_ifs at h with hx hy hy
  · exact .inl (number_eq_iff.2 (.inr ⟨hx, hy⟩))
  · cases h
  · cases h
  · have hkey : fkey x = fkey y := Option.some.inj h
    by_cases hzero : fkey y = 0
    · exact .inr ⟨(isZero_iff_fkey x).2 (hkey.trans hzero), (isZero_iff_fkey y).2 hzero⟩
    · exact .inl (congrArg number ((eq_iff_fkey_eq hzero).2 hkey))

theorem feq_of_numberKey (hx : isNaN x = false) (hy : isNaN y = false) (h : numberKey x = numberKey y) :
    feq x y = true := by
  rw [numberKey, numberKey, number_of_not_nan hx, number_of_not_nan hy] at h
  exact (feq_iff x y).2 ⟨hx, hy, Option.some.inj h⟩

end

/-! ## Operations on equal numbers -/

/-- An operation whose site only picks a NaN, and that passes NaN on. -/
theorem number_congr {f : Site → F64 → F64 → F64}
    (hsite : ∀ q q' x y, f q x y = f q' x y ∨ (isNaN (f q x y) = true ∧ isNaN (f q' x y) = true))
    (hleft : ∀ q {x} y, isNaN x = true → isNaN (f q x y) = true)
    (hright : ∀ q x {y}, isNaN y = true → isNaN (f q x y) = true) {x x' y y' : F64} (hx : number x = number x')
    (hy : number y = number y') (q q' : Site) : number (f q x y) = number (f q' x' y') := by
  rw [number_eq_iff] at hx hy ⊢
  rcases hx with rfl | ⟨hx, hx'⟩
  · rcases hy with rfl | ⟨hy, hy'⟩
    · exact hsite q q' x y
    · exact .inr ⟨hright q x hy, hright q' x hy'⟩
  · exact .inr ⟨hleft q y hx, hleft q' y' hx'⟩

section
variable {x x' y y' : F64} {q q' : Site} (hx : number x = number x')
include hx

theorem number_fneg : number (fneg x) = number (fneg x') := by
  rw [number_eq_iff] at hx ⊢
  rw [isNaN_fneg, isNaN_fneg]
  exact hx.imp_left (congrArg fneg)

theorem number_fsin : number (fsin x) = number (fsin x') := by
  rw [number_eq_iff] at hx ⊢
  refine hx.imp (congrArg fsin) fun ⟨h, h'⟩ => ?_
  exact ⟨(isNaN_fsin_fcos (isFinite_of_isNaN h)).1, (isNaN_fsin_fcos (isFinite_of_isNaN h')).1⟩

theorem number_fcos : number (fcos x) = number (fcos x') := by
  rw [number_eq_iff] at hx ⊢
  refine hx.imp (congrArg fcos) fun ⟨h, h'⟩ => ?_
  exact ⟨(isNaN_fsin_fcos (isFinite_of_isNaN h)).2, (isNaN_fsin_fcos (isFinite_of_isNaN h')).2⟩

theorem number_fsqrt : number (fsqrt q x) = number (fsqrt q' x') := by
  rw [number_eq_iff] at hx ⊢
  rcases hx with rfl | ⟨h, h'⟩
  · exact fsqrt_site q q' x
  · exact .inr ⟨fsqrt_nan q h, fsqrt_nan q' h'⟩

theorem feq_congr_right (a : F64) : feq a x = feq a x' := by
  rw [number_eq_iff] at hx
  rcases hx with rfl | ⟨h, h'⟩
  · rfl
  · rw [(compare_nan (.inr h)).2.2, (compare_nan (.inr h')).2.2]

variable (hy : number y = number y')
include hy

theorem number_fadd : number (fadd q x y) = number (fadd q' x' y') :=
  number_congr fadd_site fadd_nan_left fadd_nan_right hx hy q q'

theorem number_fsub : number (fsub q x y) = number (fsub q' x' y') :=
  number_congr fsub_site fsub_nan_left fsub_nan_right hx hy q q'

theorem number_fmul : number (fmul q x y) = number (fmul q' x' y') :=
  number_congr fmul_site fmul_nan_left fmul_nan_right hx hy q q'

theorem number_fdiv : number (fdiv q x y) = number (fdiv q' x' y') :=
  number_congr fdiv_site fdiv_nan_left fdiv_nan_right hx hy q q'

end

/-! ## Operations on opposite numbers -/

theorem fneg_fpack (b : Bool) (m : ℕ) : fneg (fpack b m) = fpack (!b) m := f64_ext (by simp) (by simp)

section
variable (q : Site) (x y : F64)

theorem number_fmul_fneg_left : number (fmul q (fneg x) y) = number (fneg (fmul q x y)) := by
  have hsign : (fsign (fneg x) != fsign y) = !(fsign x != fsign y) := by rw [fsign_fneg, Bool.not_bne]
  rw [number_eq_iff]
  unfold fmul
  rw [hsign, isNaN_fneg, isInf_fneg, isZero_fneg, fmag_fneg]
  split_ifs
  · exact .inr ⟨isNaN_qnan q, by rw [isNaN_fneg, isNaN_qnan]⟩
  · exact .inr ⟨isNaN_qnan q, by rw [isNaN_fneg, isNaN_qnan]⟩
  · exact .inl (fneg_fpack _ _).symm
  · exact .inl (fneg_fround _ _ _).symm

theorem fmul_comm : fmul q x y = fmul q y x := by
  unfold fmul
  rw [Bool.or_comm (isNaN x), Bool.or_comm (isInf x), Bool.or_comm (isZero x), bne_comm (a := fsign x), mul_comm]

theorem number_fmul_fneg_right : number (fmul q x (fneg y)) = number (fneg (fmul q x y)) := by
  rw [fmul_comm, number_fmul_fneg_left, fmul_comm]

theorem number_fdiv_fneg_fneg : number (fdiv q (fneg x) (fneg y)) = number (fdiv q x y) := by
  have hsign : (fsign (fneg x) != fsign (fneg y)) = (fsign x != fsign y) := by
    rw [fsign_fneg, fsign_fneg]; cases fsign x <;> cases fsign y <;> rfl
  unfold fdiv
  rw [hsign, isNaN_fneg, isNaN_fneg, isInf_fneg, isInf_fneg, isZero_fneg, isZero_fneg, fmag_fneg, fmag_fneg]

/-- The sum of the opposites is the opposite of the sum, but for the sign of an exact zero. -/
theorem numberKey_fadd_fneg_fneg : numberKey (fadd q (fneg x) (fneg y)) = numberKey (fneg (fadd q x y)) := by
  unfold fadd
  have hunits : funits (fneg x) + funits (fneg y) = -(funits x + funits y) := by rw [funits_fneg, funits_fneg]; omega
  have hsign : (fsign (fneg x) != fsign (fneg y)) = (fsign x != fsign y) := by
    rw [fsign_fneg, fsign_fneg]; cases fsign x <;> cases fsign y <;> rfl
  rw [hsign, hunits, isNaN_fneg, isNaN_fneg, isInf_fneg, isInf_fneg, Int.natAbs_neg]
  simp only [neg_eq_zero]
  have hnan : numberKey (qnan q) = numberKey (fneg (qnan q)) :=
    numberKey_of_number (number_eq_iff.2 (.inr ⟨isNaN_qnan q, by rw [isNaN_fneg, isNaN_qnan]⟩))
  split_ifs with h1 h2 h3 h4 h5
  · exact hnan
  · exact hnan
  · rfl
  · rfl
  · exact numberKey_of_isZero (isZero_fpack_zero _) (by rw [isZero_fneg]; exact isZero_fpack_zero _)
  · have hneg : decide (-(funits x + funits y) < 0) = !decide (funits x + funits y < 0) := by
      rw [← decide_not]; exact decide_eq_decide.2 (by omega)
    rw [fneg_fround, hneg]

end

section
variable {x x' y y' : F64} {q q' : Site} (hx : number x = number (fneg x'))
include hx

theorem number_fmul_odd_left (hy : number y = number y') : number (fmul q x y) = number (fneg (fmul q' x' y')) :=
  (number_fmul hx hy).trans (number_fmul_fneg_left q' x' y')

theorem number_fmul_odd_right (hy : number y = number y') : number (fmul q y x) = number (fneg (fmul q' y' x')) :=
  (number_fmul hy hx).trans (number_fmul_fneg_right q' y' x')

theorem number_fmul_odd_odd (hy : number y = number (fneg y')) : number (fmul q x y) = number (fmul q' x' y') := by
  have hneg := number_fneg (number_fmul_fneg_right q' x' y')
  rw [fneg_fneg] at hneg
  exact (number_fmul_odd_left hx hy).trans hneg

theorem number_fsin_odd : number (fsin x) = number (fneg (fsin x')) := by
  rw [number_fsin hx, fsin_fneg]

theorem number_fcos_odd : number (fcos x) = number (fcos x') := by
  rw [number_fcos hx, fcos_fneg]

theorem numberKey_fadd_odd_odd (hy : number y = number (fneg y')) :
    numberKey (fadd q x y) = numberKey (fneg (fadd q' x' y')) :=
  (numberKey_of_number (number_fadd hx hy)).trans (numberKey_fadd_fneg_fneg q' x' y')

end

/-- The sign of a zero numerator is the sign of a zero quotient, or lost in a NaN. -/
theorem numberKey_fdiv {x x' : F64} (h : numberKey x = numberKey x') (y : F64) (q q' : Site) :
    numberKey (fdiv q x y) = numberKey (fdiv q' x' y) := by
  rcases numberKey_eq_cases h with h | ⟨hx, hx'⟩
  · exact numberKey_of_number (number_fdiv h rfl)
  · have hnan (h : isNaN (fdiv q x y) = true ∧ isNaN (fdiv q' x' y) = true) :=
      numberKey_of_number (number_eq_iff.2 (.inr h))
    rcases class_cases y with ⟨hy, -⟩ | ⟨-, hy, -⟩ | ⟨-, -, hy⟩
    · exact hnan ⟨fdiv_nan_right q x hy, fdiv_nan_right q' x' hy⟩
    · exact numberKey_of_isZero (isZero_fdiv_by_inf q (isFinite_of_isZero hx) hy)
        (isZero_fdiv_by_inf q' (isFinite_of_isZero hx') hy)
    · cases hy0 : isZero y with
      | true => exact hnan ⟨isNaN_fdiv_zero_zero q hx hy0, isNaN_fdiv_zero_zero q' hx' hy0⟩
      | false => exact numberKey_of_isZero (isZero_fdiv hx hy hy0 q) (isZero_fdiv hx' hy hy0 q')

/-! ## The raw taps of opposite times -/

section
variable (q q' : Site) (t r : F64)

theorem number_rrcCentre : number (rrcCentre q r) = number (rrcCentre q' r) :=
  number_fadd (number_fsub rfl rfl) (number_fdiv (number_fmul rfl rfl) rfl)

theorem number_rrcSingularTime : number (rrcSingularTime q r) = number (rrcSingularTime q' r) :=
  number_fdiv rfl (number_fmul rfl rfl)

theorem number_rrcSingular : number (rrcSingular q r) = number (rrcSingular q' r) := by
  have harg : number (fdiv (1 :: q) piC (fmul (0 :: q) four r)) = number (fdiv (1 :: q') piC (fmul (0 :: q') four r)) :=
    number_fdiv rfl (number_fmul rfl rfl)
  exact number_fmul (number_fdiv rfl (number_fsqrt rfl))
    (number_fadd (number_fmul (number_fadd rfl (number_fdiv rfl rfl)) (number_fsin harg))
      (number_fmul (number_fsub rfl (number_fdiv rfl rfl)) (number_fcos harg)))

/-- The numerator is odd but for the sign of a zero: both its terms are odd. -/
theorem numberKey_rrcNum_fneg : numberKey (rrcNum q (fneg t) r) = numberKey (fneg (rrcNum q' t r)) :=
  numberKey_fadd_odd_odd
    (number_fsin_odd (number_fmul_odd_left (number_fmul_odd_right rfl rfl) (number_fsub rfl rfl)))
    (number_fmul_odd_left (number_fmul_odd_right rfl (number_fmul rfl rfl))
      (number_fcos_odd (number_fmul_odd_left (number_fmul_odd_right rfl rfl) (number_fadd rfl rfl))))

/-- The denominator is odd: its second factor has the square of an odd product. -/
theorem number_rrcDen_fneg : number (rrcDen q (fneg t) r) = number (fneg (rrcDen q' t r)) := by
  have hx : number (fmul (1 :: q) (fmul (0 :: q) four r) (fneg t)) =
      number (fneg (fmul (1 :: q') (fmul (0 :: q') four r) t)) := number_fmul_odd_right rfl (number_fmul rfl rfl)
  exact number_fmul_odd_left (number_fmul_odd_right rfl rfl) (number_fsub rfl (number_fmul_odd_odd hx hx))

theorem numberKey_rrcGeneral_fneg : numberKey (rrcGeneral q (fneg t) r) = numberKey (rrcGeneral q' t r) := by
  calc numberKey (rrcGeneral q (fneg t) r)
      = numberKey (fdiv (2 :: q') (fneg (rrcNum (0 :: q') t r)) (rrcDen (1 :: q) (fneg t) r)) :=
        numberKey_fdiv (numberKey_rrcNum_fneg _ _ t r) _ _ _
    _ = numberKey (fdiv (2 :: q') (fneg (rrcNum (0 :: q') t r)) (fneg (rrcDen (1 :: q') t r))) :=
        numberKey_of_number (number_fdiv rfl (number_rrcDen_fneg _ _ t r))
    _ = numberKey (rrcGeneral q' t r) := numberKey_of_number (number_fdiv_fneg_fneg _ _ _)

/-- Opposite times take the same branch. -/
theorem numberKey_rrcRaw_fneg : numberKey (rrcRaw q (fneg t) r) = numberKey (rrcRaw q' t r) := by
  have hcentre : feq (fneg t) 0 = feq t 0 := by rw [feq_zero_eq, feq_zero_eq, isZero_fneg]
  have hsingular : feq (fabs (fneg t)) (rrcSingularTime (1 :: q) r) = feq (fabs t) (rrcSingularTime (1 :: q') r) := by
    rw [fabs_fneg, feq_congr_right (number_rrcSingularTime _ _ r)]
  cases hc : feq t 0 with
  | true =>
    rw [rrcRaw_of_centre _ hc, rrcRaw_of_centre _ (hcentre.trans hc)]
    exact numberKey_of_number (number_rrcCentre _ _ r)
  | false =>
    cases hs : feq (fabs t) (rrcSingularTime (1 :: q') r) with
    | true =>
      rw [rrcRaw_of_singular _ hc hs, rrcRaw_of_singular _ (hcentre.trans hc) (hsingular.trans hs)]
      exact numberKey_of_number (number_rrcSingular _ _ r)
    | false =>
      rw [rrcRaw_of_general _ hc hs, rrcRaw_of_general _ (hcentre.trans hc) (hsingular.trans hs)]
      exact numberKey_rrcGeneral_fneg _ _ t r

end

/-! ## The coefficients of a session -/

theorem getD_cfgTaps {s : State} {k : ℕ} (hk : k < cfgCount s) :
    (cfgTaps s).getD k 0 = fdiv [1, k, 2, s.freeCount]
      (rrcRaw [1, k, 0, s.freeCount] (rrcTime [0, k, 0, s.freeCount] s.cfgSps.toNat s.cfgSpan.toNat k) s.cfgRolloff)
      (fsqrt [0, 2, s.freeCount] (cfgEnergy s)) := by
  rw [List.getD, cfgTaps, getElem?_rrcNorm, cfgRawTaps, getElem?_rrcRawTaps _ _ hk, Option.map_some,
    Option.getD_some]

/-- The taps `j` steps before and after the centre. -/
theorem numberKey_cfgTaps {s : State} (hsps : 2 ≤ s.cfgSps.toNat) (hcount : cfgCount s < 2 ^ 32) {j : ℕ}
    (hj : j ≤ s.cfgSps.toNat * s.cfgSpan.toNat) :
    numberKey ((cfgTaps s).getD (s.cfgSps.toNat * s.cfgSpan.toNat - j) 0) =
      numberKey ((cfgTaps s).getD (s.cfgSps.toNat * s.cfgSpan.toNat + j) 0) := by
  have hsize : cfgCount s = 2 * (s.cfgSps.toNat * s.cfgSpan.toNat) + 1 := by rw [cfgCount, rrcCount, mul_assoc]
  rcases Nat.eq_zero_or_pos j with rfl | hpos
  · rfl
  · have hspan : 1 ≤ s.cfgSpan.toNat := Nat.pos_of_mul_pos_left (hpos.trans_le hj)
    obtain ⟨htimes, -⟩ := sampleTimesAreSymmetric
    rw [getD_cfgTaps (by omega), getD_cfgTaps (by omega)]
    obtain ⟨-, -, -, -, -, -, hsymmetric⟩ := htimes [0, s.cfgSps.toNat * s.cfgSpan.toNat - j, 0, s.freeCount]
      [0, s.cfgSps.toNat * s.cfgSpan.toNat + j, 0, s.freeCount] _ _ hsps s.cfgSps.isLt hspan hcount
    obtain ⟨hopposite, -⟩ := hsymmetric j hpos hj
    rw [hopposite]
    exact numberKey_fdiv (numberKey_rrcRaw_fneg _ _ _ _) _ _ _

/-- Settles O45: opposite times have one raw value up to the sign of a zero, and dividing by one root keeps that. -/
theorem coefficientsAreSymmetric : Obligations.CoefficientsAreSymmetric := by
  unfold Obligations.CoefficientsAreSymmetric
  intro s t hexec hrun hidle k hk
  rcases hreject : startReject s with _ | c
  · obtain ⟨-, hsps, -, -, -, hfits, hsound⟩ := startReject_none hreject
    obtain ⟨-, -, hfinite⟩ := (rrcDegenerate_eq_false_iff _ _).1 hsound
    obtain rfl := Host.Outcome.next.inj ((exec_start_of_startReject_none hreject).symm.trans hexec)
    have hcount := hfits.trans_lt maxTaps_lt
    have hnan (j : ℕ) := (not_nan_and_not_inf_of_isFinite (isFinite_getD hfinite j)).1
    have hsize : cfgCount s = 2 * (s.cfgSps.toNat * s.cfgSpan.toNat) + 1 := by rw [cfgCount, rrcCount, mul_assoc]
    have hntaps : (respond .ok 0 0 (beginSession (cfgCount s) (cfgTaps s) s)).ntaps = cfgCount s := rfl
    have hcoef : (respond .ok 0 0 (beginSession (cfgCount s) (cfgTaps s) s)).coef = cfgTaps s := rfl
    rw [hntaps] at hk ⊢
    rw [hcoef]
    refine feq_of_numberKey (hnan k) (hnan _) ?_
    rcases Nat.le_total k (s.cfgSps.toNat * s.cfgSpan.toNat) with hle | hge
    · obtain ⟨j, hj⟩ := Nat.exists_eq_add_of_le hle
      have hmirror := numberKey_cfgTaps hsps hcount (j := j) (by omega)
      rwa [show s.cfgSps.toNat * s.cfgSpan.toNat - j = k by omega,
        show s.cfgSps.toNat * s.cfgSpan.toNat + j = cfgCount s - 1 - k by omega] at hmirror
    · obtain ⟨j, hj⟩ := Nat.exists_eq_add_of_le hge
      have hmirror := numberKey_cfgTaps hsps hcount (j := j) (by omega)
      rw [show s.cfgSps.toNat * s.cfgSpan.toNat - j = cfgCount s - 1 - k by omega, ← hj] at hmirror
      exact hmirror.symm
  · obtain rfl := Host.Outcome.next.inj ((exec_start_of_startReject hreject).symm.trans hexec)
    cases hidle.symm.trans hrun

end Sys2Proof.Machine
end
